-- ==== Sys2Proof/Word.lean ====
section
/-! DEFINITION. The word types of the LPG core: 32-bit registers and command words (R7 XLEN, R51), 8-bit bytes (R9, R52). -/

namespace Sys2Proof

/-- A 32-bit operand register, `STATUS` value or command word (R7 `XLEN`). -/
abbrev Word := BitVec 32

/-- One byte of a buffer; a character is one byte (R9, R84). -/
abbrev Byte := BitVec 8

end Sys2Proof
end

