-- ==== Sys2Proof/Config.lean ====
section
/-! DEFINITION. The parameters of rule R7, the buffer map of rule R55, and the one free value of the block: the sink's
response to a `WRITE` (R168). -/

namespace Sys2Proof.Config

/-- `IDLEN`: length of an ID in the reference use (R7). -/
def idLen : Nat := 4
/-- `W_REF`: width in pixels of the reference image (R7). -/
def wRef : Nat := 256
/-- `H_REF`: height in pixels of the reference image (R7). -/
def hRef : Nat := 1
/-- `ROWCAP`: capacity in bytes of `ROW` (R7). -/
def rowCap : Nat := 32
/-- `GLYPH_OFFSET`: byte offset in `ROW` of the first glyph byte in the reference use (R7). -/
def glyphOffset : Nat := 1
/-- `NGLYPH`: number of glyph bytes in the reference use (R7). -/
def nGlyph : Nat := 6
/-- `OUTLEN_REF`: check code width of the reference use (R7). -/
def outLenRef : Nat := nGlyph - idLen
/-- `MOD_REF`: modulus of the reference use; a parameter of `ENCODE` with this default (R7, D18). -/
def modRef : Nat := 97
/-- `NSEG`: segments per glyph (R7). -/
def nSeg : Nat := 7
/-- `DCAP`: capacity in characters of `DBUF` (R7). -/
def dCap : Nat := 32
/-- `PCAP`: capacity in bytes of `PBUF` (R7). -/
def pCap : Nat := 32
/-- `CCAP`: capacity in characters of `CBUF`, and the largest legal `OUTLEN` (R7). -/
def cCap : Nat := 9

/-- `VMAX`: the largest value the checksum engine's integer can hold, at its default (R7, R114, D8). The functions that
depend on it take it as an argument (`checksum`, `csumWith`); the machine uses this default. Log 6. -/
def vmax : Nat := 4294967295

/-- The constraint rule R7 puts on any other choice of `VMAX`. -/
abbrev vmaxLegal (v : Nat) : Prop := 10 ^ cCap ≤ v

end Sys2Proof.Config

namespace Sys2Proof

/-- The byte buffers and the glyph table of the buffer space (R30 to R34, R55). -/
inductive Buffer where
  | dbuf | pbuf | row | cbuf | grom
  deriving DecidableEq, Repr

/-- The base address of a buffer (R55). -/
def Buffer.base : Buffer → Nat
  | .dbuf => 0x00
  | .pbuf => 0x20
  | .row  => 0x40
  | .cbuf => 0x60
  | .grom => 0x70

/-- The size in bytes of a buffer (R55). -/
def Buffer.cap : Buffer → Nat
  | .dbuf => Config.dCap
  | .pbuf => Config.pCap
  | .row  => Config.rowCap
  | .cbuf => Config.cCap
  | .grom => 10

/-- The sink's answer to one `WRITE` that passed its parameter checks (R168). -/
inductive SinkResponse where
  /-- opened, header accepted, all rows accepted, closed -/
  | accepted
  /-- the destination could not be opened or created -/
  | openFailed
  /-- opened, but the header or the encoder structure was refused -/
  | initFailed
  /-- opened and initialised, but a row was refused -/
  | rowFailed
  deriving DecidableEq, Repr, Inhabited

/-- FREE VALUE. The sink's response number `k`, where nothing outside laid a response down: rule R168 calls it "a free input
of that step which the core cannot predict or influence". No body: nothing can be proved about its values. Log 3. -/
opaque Config.sinkDraw : Nat → SinkResponse

end Sys2Proof
end

