-- ==== Sys2Proof/Syntax.lean ====
section
/-! DEFINITION. The commands (R81), the register names and numbers (R21, R24, R25, R27), the host's transactions (R76), the
inputs of the machine, and the assembler lines and transaction triples of rule R97. -/

namespace Sys2Proof

/-- The seven commands, one constructor per row of spec/opcode_table.json. A command has no operand field (R80, R83): every
operand comes from a fixed register or buffer. -/
inductive Instr where
  /-- `VALID`, 0x00000001 (R177) -/
  | valid
  /-- `CSUM`, 0x00000002 (R113) -/
  | csum
  /-- `CAT`, 0x00000003 (R178) -/
  | cat
  /-- `MAP`, 0x00000004 (R133) -/
  | map
  /-- `CLRROW`, 0x00000005 (R146) -/
  | clrrow
  /-- `PLACE`, 0x00000006 (R147) -/
  | place
  /-- `WRITE`, 0x00000007 (R169) -/
  | write
  deriving DecidableEq, Repr

/-- The ten operand registers by name; "names are aliases for numbers" (R21). -/
inductive OpReg where
  | dlen | explen | modulus | outlen | offset | width | height | tag | clen | plen
  deriving DecidableEq, Repr

/-- The register number of an operand register (R21). -/
def OpReg.number : OpReg → Fin 10
  | .dlen => 0
  | .explen => 1
  | .modulus => 2
  | .outlen => 3
  | .offset => 4
  | .width => 5
  | .height => 6
  | .tag => 7
  | .clen => 8
  | .plen => 9

/-- What a register number of the register space names (R51). -/
inductive RegSel where
  /-- numbers 0 to 9 (R21) -/
  | operand (r : OpReg)
  /-- numbers 10 to 13: no register exists there (R27) -/
  | reserved
  /-- number 14 (R24) -/
  | status
  /-- number 15 (R25) -/
  | cmd
  deriving DecidableEq, Repr

/-- A host transaction (R76). `CMD <mnemonic>` is `wr 15 <command word>`. -/
inductive HostTxn where
  /-- register write `WR <reg>, <value>` -/
  | wr (reg : Fin 16) (value : Word)
  /-- register read `RD <reg>` -/
  | rd (reg : Fin 16)
  /-- byte write `WB <addr>, <byte>` -/
  | wb (addr : Fin 256) (byte : Byte)
  /-- byte read `RB <addr>` -/
  | rb (addr : Fin 256)
  deriving DecidableEq, Repr

/-- What can reach the core from outside: a host transaction, or the reset event (R220), which is none of the host's
transactions. -/
inductive Input where
  | txn (t : HostTxn)
  | reset
  deriving DecidableEq, Repr

/-- One line of a test program as it is written (R97): registers and addresses are numbers, values may be any number, and
WellFormed.lean says which lines are legal. -/
inductive AsmLine where
  /-- `WR <reg>, <value>` -/
  | wr (reg value : Nat)
  /-- `RD <reg>` -/
  | rd (reg : Nat)
  /-- `WB <addr>, <byte>` -/
  | wb (addr byte : Nat)
  /-- `RB <addr>` -/
  | rb (addr : Nat)
  /-- `WB <buffer>[<index>], <byte>` -/
  | wbAt (b : Buffer) (index byte : Nat)
  /-- `RB <buffer>[<index>]` -/
  | rbAt (b : Buffer) (index : Nat)
  /-- `CMD <mnemonic>` -/
  | cmd (i : Instr)
  /-- `WS <buffer>, "<string>"` -/
  | ws (b : Buffer) (s : List Byte)
  deriving DecidableEq, Repr

/-- The kind of a transaction in its triple (R97). -/
inductive TxnKind where
  | wr | rd | wb | rb
  deriving DecidableEq, Repr

/-- The triple (kind, address, data) that encodes a transaction (R97). A read sends no data. -/
structure Triple where
  kind : TxnKind
  address : Nat
  data : Option Nat
  deriving DecidableEq, Repr

end Sys2Proof
end

