-- ==== Sys2Proof/WellFormed.lean ====
section
/-! DEFINITION. Which commands, assembler lines and transaction triples are well formed (R51, R52, R55, R76, R80, R97). -/

namespace Sys2Proof

/-- Every command is well formed: a command word has no operand field whose value could be out of range (R80, R83). -/
def Instr.wf : Instr → Bool
  | .valid => true
  | .csum => true
  | .cat => true
  | .map => true
  | .clrrow => true
  | .place => true
  | .write => true

/-- A register number names one of the 16 registers of the register space (R50, R51). -/
def regInRange (n : Nat) : Bool := decide (n < 16)

/-- A buffer-space address is one of 256 (R50, R52). -/
def addrInRange (a : Nat) : Bool := decide (a < 256)

/-- A register value has 32 bits (R51). -/
def valueInRange (v : Nat) : Bool := decide (v < 2 ^ 32)

/-- A byte has 8 bits (R9). -/
def byteInRange (b : Nat) : Bool := decide (b < 256)

/-- An index lies inside its buffer (R55). -/
def indexInRange (b : Buffer) (i : Nat) : Bool := decide (i < b.cap)

/-- A string fits the buffer it is written to (R97, R98: longer strings "cannot be loaded"). -/
def stringFits (b : Buffer) (s : List Byte) : Bool := decide (s.length ≤ b.cap)

/-- An assembler line is legal (R97). -/
def AsmLine.wf : AsmLine → Bool
  | .wr r v => regInRange r && valueInRange v
  | .rd r => regInRange r
  | .wb a b => addrInRange a && byteInRange b
  | .rb a => addrInRange a
  | .wbAt b i v => indexInRange b i && byteInRange v
  | .rbAt b i => indexInRange b i
  | .cmd i => i.wf
  | .ws b s => stringFits b s

/-- A triple encodes a transaction: address in its space, data of the right width for a write and none for a read (R97). -/
def Triple.wf (t : Triple) : Bool :=
  match t.kind, t.data with
  | .wr, some v => regInRange t.address && valueInRange v
  | .rd, none => regInRange t.address
  | .wb, some v => addrInRange t.address && byteInRange v
  | .rb, none => addrInRange t.address
  | .wr, none => false
  | .wb, none => false
  | .rd, some _ => false
  | .rb, some _ => false

end Sys2Proof
end

