-- ==== Sys2Proof/Decode.lean ====
section
/-! DEFINITION. Decoding and encoding: command words (R80 to R82, R96), register numbers (R21, R24, R25, R27), transaction
triples and assembler lines (R97). The unit a decoder reads is the whole 32-bit word the host writes to `CMD` (R80, R96): it is
never laid out as bytes (R64, R74), so decoding is total on every 32-bit word. Log 18. -/

namespace Sys2Proof

/-- Why a word is no command (R82). Either reason raises IllegalCommand. -/
inductive DecodeReject where
  /-- a bit of 31:8 is not zero -/
  | zeroFieldSet (zero : BitVec 24)
  /-- bits 31:8 are zero and `OP` is none of 0x01 .. 0x07 -/
  | reservedOp (op : Byte)
  deriving DecidableEq, Repr

/-- Bits 31:8 of a command word, the field `ZERO` (R80). -/
def zeroField (w : Word) : BitVec 24 := w.extractLsb' 8 24

/-- Bits 7:0 of a command word, the field `OP` (R80). -/
def opField (w : Word) : Byte := w.extractLsb' 0 8

/-- The command an operation code stands for (R81). -/
def decodeOp (op : Byte) : Option Instr :=
  match op.toNat with
  | 0x01 => some .valid
  | 0x02 => some .csum
  | 0x03 => some .cat
  | 0x04 => some .map
  | 0x05 => some .clrrow
  | 0x06 => some .place
  | 0x07 => some .write
  | _ => none

/-- The decoder: total on every 32-bit word, rejecting by name (R81, R82). -/
def decode (w : Word) : Except DecodeReject Instr :=
  if zeroField w = 0 then
    match decodeOp (opField w) with
    | some i => .ok i
    | none => .error (.reservedOp (opField w))
  else .error (.zeroFieldSet (zeroField w))

/-- The operation code of a command (R81). -/
def opcode : Instr → Byte
  | .valid => 0x01
  | .csum => 0x02
  | .cat => 0x03
  | .map => 0x04
  | .clrrow => 0x05
  | .place => 0x06
  | .write => 0x07

/-- The encoder: `ZERO` in bits 31:8 and `OP` in bits 7:0 (R80, R81). -/
def encode (i : Instr) : Word := (0#24 ++ opcode i : BitVec 32)

/-- A row of the command table: "a decoder tests the whole word: mask `0xFFFFFFFF`, match the word in the table" (R81). -/
structure CommandRow where
  mask : Word
  pattern : Word
  instr : Instr
  deriving DecidableEq, Repr

/-- The command table of rule R81 as masks and patterns (spec/opcode_table.json). -/
def commandTable : List CommandRow :=
  [⟨0xFFFFFFFF, 0x00000001, .valid⟩, ⟨0xFFFFFFFF, 0x00000002, .csum⟩, ⟨0xFFFFFFFF, 0x00000003, .cat⟩,
   ⟨0xFFFFFFFF, 0x00000004, .map⟩, ⟨0xFFFFFFFF, 0x00000005, .clrrow⟩, ⟨0xFFFFFFFF, 0x00000006, .place⟩,
   ⟨0xFFFFFFFF, 0x00000007, .write⟩]

/-- What the decoder reads from an opcode-table word of `nbits` bits, bit 0 the least significant (fixed name of the host). A
number that needs more than 32 bits is no command word. -/
def decodeTableWord (nbits w : Nat) : Option Instr :=
  let v := w % 2 ^ nbits
  if v < 2 ^ 32 then (decode (BitVec.ofNat 32 v)).toOption else none

/-- What a register number names (R21, R24, R25, R27, R51). -/
def selectReg (n : Fin 16) : RegSel :=
  match n.val with
  | 0 => .operand .dlen
  | 1 => .operand .explen
  | 2 => .operand .modulus
  | 3 => .operand .outlen
  | 4 => .operand .offset
  | 5 => .operand .width
  | 6 => .operand .height
  | 7 => .operand .tag
  | 8 => .operand .clen
  | 9 => .operand .plen
  | 14 => .status
  | 15 => .cmd
  | _ => .reserved

/-- The register-space number of an operand register (R51). -/
def regNumber (r : OpReg) : Fin 16 := ⟨r.number.val, by omega⟩

/-- The number of `STATUS` (R24). -/
def statusNumber : Fin 16 := 14

/-- The number of `CMD` (R25). -/
def cmdNumber : Fin 16 := 15

/-- `CMD <mnemonic>` is "the same as `WR 15, <command word>`" (R76). -/
def commandTxn (i : Instr) : HostTxn := .wr cmdNumber (encode i)

/-- The triple of a transaction (R97). -/
def HostTxn.triple : HostTxn → Triple
  | .wr r v => ⟨.wr, r.val, some v.toNat⟩
  | .rd r => ⟨.rd, r.val, none⟩
  | .wb a b => ⟨.wb, a.val, some b.toNat⟩
  | .rb a => ⟨.rb, a.val, none⟩

/-- The transaction a triple encodes, if it is well formed (R97). -/
def Triple.txn (t : Triple) : Option HostTxn :=
  match t.kind, t.data with
  | .wr, some v => if h : t.address < 16 ∧ v < 2 ^ 32 then some (.wr ⟨t.address, h.1⟩ (BitVec.ofNat 32 v)) else none
  | .rd, none => if h : t.address < 16 then some (.rd ⟨t.address, h⟩) else none
  | .wb, some v => if h : t.address < 256 ∧ v < 256 then some (.wb ⟨t.address, h.1⟩ (BitVec.ofNat 8 v)) else none
  | .rb, none => if h : t.address < 256 then some (.rb ⟨t.address, h⟩) else none
  | .wr, none => none
  | .wb, none => none
  | .rd, some _ => none
  | .rb, some _ => none

/-- One byte write per character, first character at index 0, in increasing index order: the lines `WS` abbreviates (R97). -/
def stringTriples (a : Nat) : List Byte → List Triple
  | [] => []
  | c :: s => ⟨.wb, a, some c.toNat⟩ :: stringTriples (a + 1) s

/-- The triples an assembler line stands for (R97). -/
def AsmLine.triples : AsmLine → List Triple
  | .wr r v => [⟨.wr, r, some v⟩]
  | .rd r => [⟨.rd, r, none⟩]
  | .wb a b => [⟨.wb, a, some b⟩]
  | .rb a => [⟨.rb, a, none⟩]
  | .wbAt b i v => [⟨.wb, b.base + i, some v⟩]
  | .rbAt b i => [⟨.rb, b.base + i, none⟩]
  | .cmd i => [(commandTxn i).triple]
  | .ws b s => stringTriples b.base s

/-- The transactions of an assembler line; none if the line is not well formed (R97). -/
def AsmLine.txns (l : AsmLine) : Option (List HostTxn) :=
  if l.wf then l.triples.mapM Triple.txn else none

end Sys2Proof
end

