-- ==== Sys2Proof/Machine/State.lean ====
section
/-! DEFINITION. The state of the LPG core and its environment (10_state.md), the raster record (R165), the error names (R191),
the reasons a step can stop, and the state after reset (R40). -/

namespace Sys2Proof.Machine

/-- The names of the error codes 1 to 8 (R191). -/
inductive ErrCode where
  | invalidInput | numericOverflow | unmappableCharacter | destinationUnwritable | encoderInitFailed | writeFailed
  | paramError | illegalCommand
  deriving DecidableEq, Repr

/-- `depth`: enumeration of one value, 1 bit per pixel (R92). -/
inductive BitDepth where
  | one
  deriving DecidableEq, Repr

/-- The number of bits per pixel a depth stands for (R92). -/
def BitDepth.bits : BitDepth → Nat
  | .one => 1

/-- `colour`: enumeration of one value (R92). -/
inductive Colour where
  | gray
  deriving DecidableEq, Repr

/-- `compression`: enumeration of one value (R92, R175). -/
inductive Compression where
  | default
  deriving DecidableEq, Repr

/-- `filter`: enumeration of one value (R92). -/
inductive Filter where
  | none
  deriving DecidableEq, Repr

/-- `interlace`: enumeration of one value (R92). -/
inductive Interlace where
  | none
  deriving DecidableEq, Repr

/-- The seven header fields of a raster record (R92, R162). -/
structure Header where
  width : Nat
  height : Nat
  depth : BitDepth
  colour : Colour
  compression : Compression
  filter : Filter
  interlace : Interlace
  deriving DecidableEq, Repr

/-- The raster record: tag, header, and the rows top row first, each a list of complemented bytes (R165). -/
structure RasterRecord where
  tag : Word
  header : Header
  rows : List (List Byte)
  deriving DecidableEq, Repr

/-- The content of the sink's store for one tag (R37). -/
inductive SinkEntry where
  /-- what an accepted `WRITE` left -/
  | record (r : RasterRecord)
  /-- "A model treats an `unspecified` entry as any value: no claim may read it" (R172). Log 9. -/
  | unspecified
  deriving DecidableEq, Repr

/-- What the sink port carries during one `WRITE` (R77). -/
inductive SinkEvent where
  | openRequest (tag : Word)
  | header (h : Header)
  /-- all rows, top row first -/
  | rows (r : List (List Byte))
  /-- the rows phase began and a row was refused; which row, and how many crossed before it, the spec does not say (log 10) -/
  | rowsRefused
  | close
  deriving DecidableEq, Repr

/-- A value returned to a host read (R76). -/
inductive HostReply where
  | reg (w : Word)
  | byte (b : Byte)
  deriving DecidableEq, Repr

/-- The reasons the machine could stop with a fault: there are none. "A command never stops the core, hangs it, or leaves it
unable to take the next command" (R190); failures are result codes in `STATUS.ERR`. No constructor, so nobody raises one. Log 20. -/
inductive Fault where
  deriving DecidableEq, Repr

/-- The transactions to which the model gives no meaning. -/
inductive Refusal where
  /-- Raised by `exec` for a command that has no meaning yet; no arm uses it. Safe. -/
  | notModelled (mnemonic : String)
  /-- Raised by a host read of a register number 10 to 13: "the spec gives a host read of them no meaning (a model should refuse
  it)" (R27, U9). Safe. -/
  | readReservedRegister (reg : Fin 16)
  /-- Raised by a host read of `CMD`: "the spec gives a host read of `CMD` no meaning (a model should refuse it)" (R25, U9). Safe. -/
  | readCommandRegister
  /-- Raised by a host read of an address 0x69 to 0x6F or 0x7A to 0xFF: "the spec gives a host read there no meaning: a model
  should refuse it" (R56, U9). Safe. -/
  | readReservedAddress (addr : Fin 256)
  deriving DecidableEq, Repr

/-- The stored bytes of the buffer space: address and byte, addresses strictly rising, no entry equal to what an unlisted
address reads as (`Memory.unlisted`). -/
abbrev Memory := List Host.Cell

/-- The sink's store: tag and content, tags strictly rising (R37). -/
abbrev SinkStore := List (Nat × SinkEntry)

/-- The state of one LPG core (R20) and of the environment its host port and sink port act on (R37, R76, R77, R168). -/
structure State where
  /-- `x[0] .. x[9]` (R21) -/
  regs : Vector Word 10
  /-- `STATUS.ERR`, bits 3:0 (R24) -/
  err : BitVec 4
  /-- `STATUS.V`, bit 4 (R24) -/
  v : Bool
  /-- the hidden flag `OPEN` (R35), read as `STATUS` bit 5 (R24) -/
  chanOpen : Bool
  /-- `DBUF`, `PBUF`, `ROW`, `CBUF` at their addresses (R55); `GROM` is constant and reads through `State.readByte` -/
  mem : Memory
  /-- the sink's store (R37) -/
  sink : SinkStore
  /-- the history of emitted records, oldest first (R37, R53) -/
  emitted : List RasterRecord
  /-- what the sink port has carried, oldest first (R77) -/
  sinkPort : List SinkEvent
  /-- host transactions and reset events that have not reached the core yet, next first (the model's own field, log 1) -/
  inputs : List Input
  /-- what host reads have returned, oldest first (the model's own field, log 15) -/
  replies : List HostReply
  /-- sink responses laid down from outside, next first (the model's own field, log 3) -/
  sinkAnswers : List SinkResponse
  /-- how many sink responses have been drawn (the model's own field, log 3) -/
  draws : Nat
  deriving DecidableEq, Repr

/-- The state right after reset (R40): every register, `STATUS` and `OPEN` zero, all four buffers at their reset contents
(nothing listed), and an environment in which nothing has happened (logs 1, 3, 4, 10, 15). -/
def State.reset : State where
  regs := Vector.replicate 10 0
  err := 0
  v := false
  chanOpen := false
  mem := []
  sink := []
  emitted := []
  sinkPort := []
  inputs := []
  replies := []
  sinkAnswers := []
  draws := 0

end Sys2Proof.Machine
end

