-- ==== Sys2Proof/Machine/Flags.lean ====
section
/-! DEFINITION. The fields of `STATUS` (R24): the error numbers (R191), who writes `ERR` and `V` (R26), and the 32-bit value a host
read returns. -/

namespace Sys2Proof.Machine

/-- The number of an error (R191). -/
def errNumber : ErrCode → BitVec 4
  | .invalidInput => 1
  | .numericOverflow => 2
  | .unmappableCharacter => 3
  | .destinationUnwritable => 4
  | .encoderInitFailed => 5
  | .writeFailed => 6
  | .paramError => 7
  | .illegalCommand => 8

/-- The number of success (R191). -/
def errSuccess : BitVec 4 := 0

/-- `STATUS.ERR <- e` (R24, R26). -/
def State.setErr (s : State) (e : BitVec 4) : State := { s with err := e }

/-- `STATUS.V <- b` (R24, R26). -/
def State.setV (s : State) (b : Bool) : State := { s with v := b }

/-- The 32-bit value of `STATUS`: `ERR` in bits 3:0, `V` in bit 4, `OPEN` in bit 5, bits 31:6 zero (R24). -/
def State.statusWord (s : State) : Word := BitVec.ofNat 32 (s.err.toNat + 2 ^ 4 * s.v.toNat + 2 ^ 5 * s.chanOpen.toNat)

/-- `STATUS.ERR` of a value read from `STATUS` (R24): bits 3:0. -/
def statusErr (w : Word) : BitVec 4 := w.extractLsb' 0 4

/-- `STATUS.V` of a value read from `STATUS` (R24): bit 4. -/
def statusV (w : Word) : Bool := w.getLsbD 4

/-- `STATUS.OPEN` of a value read from `STATUS` (R24): bit 5. -/
def statusOpen (w : Word) : Bool := w.getLsbD 5

/-- The result of a command as rule R190 has it, a discriminated success or failure: the only error numbers that occur are 0
and those of rule R191. -/
def errName (e : BitVec 4) : Option ErrCode :=
  match e.toNat with
  | 1 => some .invalidInput
  | 2 => some .numericOverflow
  | 3 => some .unmappableCharacter
  | 4 => some .destinationUnwritable
  | 5 => some .encoderInitFailed
  | 6 => some .writeFailed
  | 7 => some .paramError
  | 8 => some .illegalCommand
  | _ => none

end Sys2Proof.Machine
end

