-- ==== Sys2Proof/Machine/Ops.lean ====
section
/-! DEFINITION. The named operations over the buffer space (R52, R55 to R57, R66), the registers (R21, R22), the sink (R37, R77,
R168, R171) and a failing command (R196). -/

namespace Sys2Proof.Machine

/-! ## The buffer space -/

/-- The ten glyph patterns of rule R87, for the digits 0 to 9. -/
def glyphTable : List Byte := [0x77, 0x42, 0xB6, 0xD6, 0xC3, 0xD5, 0xF5, 0x46, 0xF7, 0xD7]

/-- `GROM[d]` (R34, R87). Only `d < 10` is ever presented to the table (R136). -/
def glyph (d : Nat) : Byte := glyphTable.getD d 0x00

/-- The buffer an address of the buffer space belongs to; none for a reserved address (R55, R56). -/
def bufferAt (a : Nat) : Option Buffer :=
  if a < 0x20 then some .dbuf
  else if a < 0x40 then some .pbuf
  else if a < 0x60 then some .row
  else if a < 0x69 then some .cbuf
  else if a < 0x70 then none
  else if a < 0x7A then some .grom
  else none

/-- An address that holds a byte which something can change: every buffer's but `GROM`'s (R34, R55). -/
def storedAt (a : Nat) : Bool := decide (a < 0x69)

/-- What an address with no entry reads as: the constants of `GROM`, and `0x00`, the reset contents, elsewhere (R40). -/
def Memory.unlisted (a : Nat) : Byte := if 0x70 ≤ a ∧ a < 0x7A then glyph (a - 0x70) else 0x00

/-- The byte an entry list gives an address. -/
def Memory.lookup : Memory → Nat → Byte
  | [], a => Memory.unlisted a
  | c :: m, a => if c.1 = a then c.2 else Memory.lookup m a

/-- Read one byte. `GROM` is hard-wired: no entry can change what it reads as (R34; log 8). -/
def Memory.read (m : Memory) (a : Nat) : Byte := if storedAt a then Memory.lookup m a else Memory.unlisted a

/-- The entries of every other address. -/
def Memory.erase (m : Memory) (a : Nat) : Memory := m.filter (fun c => decide (c.1 ≠ a))

/-- Put an entry in its place in rising order. -/
def Memory.place : Memory → Nat → Byte → Memory
  | [], a, b => [(a, b)]
  | c :: m, a, b => if a < c.1 then (a, b) :: c :: m else c :: Memory.place m a b

/-- Write one byte; only the stored addresses can change (R55 to R57). The canonical form is kept: a byte equal to what an
unlisted address reads as leaves no entry. -/
def Memory.write (m : Memory) (a : Nat) (b : Byte) : Memory :=
  if storedAt a then
    if b = Memory.unlisted a then Memory.erase m a else Memory.place (Memory.erase m a) a b
  else m

/-- Write bytes at `a`, `a + 1`, … in that order. -/
def Memory.writeFrom (m : Memory) (a : Nat) : List Byte → Memory
  | [] => m
  | b :: l => Memory.writeFrom (Memory.write m a b) (a + 1) l

/-- The canonical form: stored addresses only, strictly rising, no entry equal to what an unlisted address reads as. -/
def Memory.wf : Memory → Bool
  | [] => true
  | c :: m => storedAt c.1 && decide (c.2 ≠ Memory.unlisted c.1) && m.all (fun d => decide (c.1 < d.1)) && Memory.wf m

/-- `MemRead(a, 1)` (R11, R52). -/
def State.readByte (s : State) (a : Nat) : Byte := Memory.read s.mem a

/-- `B[0], …, B[n-1]` (R10, R11, R55). -/
def State.bytes (s : State) (b : Buffer) (n : Nat) : List Byte := (List.range n).map (fun i => s.readByte (b.base + i))

/-- `MemWrite` of a sequence of bytes from address `a` up (R11, R52, R58). -/
def State.storeBytes (s : State) (a : Nat) (l : List Byte) : State := { s with mem := Memory.writeFrom s.mem a l }

/-! ## The operand registers -/

/-- `x[r]` (R11, R21). -/
def State.x (s : State) (r : OpReg) : Word := s.regs[r.number]

/-- `x[r] <- w` (R11, R21). -/
def State.setX (s : State) (r : OpReg) (w : Word) : State := { s with regs := s.regs.set r.number w }

/-! ## The sink -/

/-- The entries of every other tag. -/
def SinkStore.erase (k : SinkStore) (t : Nat) : SinkStore := k.filter (fun c => decide (c.1 ≠ t))

/-- Put an entry in its place in rising order of tags. -/
def SinkStore.place : SinkStore → Nat → SinkEntry → SinkStore
  | [], t, e => [(t, e)]
  | c :: k, t, e => if t < c.1 then (t, e) :: c :: k else c :: SinkStore.place k t e

/-- Replace the entry of one tag (R37, R172). -/
def SinkStore.put (k : SinkStore) (t : Nat) (e : SinkEntry) : SinkStore := SinkStore.place (SinkStore.erase k t) t e

/-- The entry of a tag; none if nothing was ever stored under it (R37). -/
def SinkStore.get : SinkStore → Nat → Option SinkEntry
  | [], _ => none
  | c :: k, t => if c.1 = t then some c.2 else SinkStore.get k t

/-- The canonical form of the store: tags are 32-bit numbers, strictly rising. -/
def SinkStore.wf : SinkStore → Bool
  | [] => true
  | c :: k => decide (c.1 < 2 ^ 32) && k.all (fun d => decide (c.1 < d.1)) && SinkStore.wf k

/-- The sink's entry for a tag (R37). -/
def State.sinkAt (s : State) (t : Word) : Option SinkEntry := SinkStore.get s.sink t.toNat

/-- `sink[t] <- e` (R169, R172). -/
def State.sinkPut (s : State) (t : Word) (e : SinkEntry) : State := { s with sink := SinkStore.put s.sink t.toNat e }

/-- One item crosses the sink port (R77). -/
def State.portSend (s : State) (e : SinkEvent) : State := { s with sinkPort := s.sinkPort ++ [e] }

/-- The record joins the history of emitted records (R37, R53). -/
def State.addEmitted (s : State) (r : RasterRecord) : State := { s with emitted := s.emitted ++ [r] }

/-- `emit(rec)`: the record is handed to the sink, whose entry for its tag it becomes (R11, R169). -/
def State.emit (s : State) (r : RasterRecord) : State := (s.sinkPut r.tag (.record r)).addEmitted r

/-- `OPEN <- 1` (R35). -/
def State.openChannel (s : State) : State := { s with chanOpen := true }

/-- `OPEN <- 0` (R35, R171). -/
def State.closeChannel (s : State) : State := { s with chanOpen := false }

/-- The response the sink gives next: the next one laid down from outside, else the free one (R168; log 3). -/
def State.nextResponse (s : State) : SinkResponse := s.sinkAnswers.headD (Config.sinkDraw s.draws)

/-- The response has been drawn: one draw serves one `WRITE` (R168, R199). -/
def State.drawResponse (s : State) : State := { s with sinkAnswers := s.sinkAnswers.tail, draws := s.draws + 1 }

/-! ## The host port -/

/-- The value a host read returns (R76). Nothing else changes (R65). -/
def State.reply (s : State) (r : HostReply) : State := { s with replies := s.replies ++ [r] }

/-- The inputs that remain. -/
def State.setInputs (s : State) (l : List Input) : State := { s with inputs := l }

/-! ## A failing command -/

/-- The failure writes of rule R196 beside `STATUS.ERR`: a failing `CSUM` clears `CBUF` and `CLEN`, a failing `MAP` clears
`PBUF` and `PLEN`; an illegal word (`none`) and every other command write nothing more. -/
def failureWrites (i : Option Instr) (s : State) : State :=
  match i with
  | some .csum => (s.storeBytes Buffer.cbuf.base (List.replicate Config.cCap 0x00)).setX .clen 0
  | some .map => (s.storeBytes Buffer.pbuf.base (List.replicate Config.pCap 0x00)).setX .plen 0
  | some .valid => s
  | some .cat => s
  | some .clrrow => s
  | some .place => s
  | some .write => s
  | none => s

/-- `raise <Error>` (R11, R196, R197): the failure writes, then `STATUS.ERR <- code`, and the command ends. Control goes
nowhere and nothing is saved (R197); there is no return: `ERR` stands until the next `CMD` write (R198). -/
def raiseError (i : Option Instr) (e : ErrCode) (s : State) : Host.Outcome State Fault Refusal :=
  .next ((failureWrites i s).setErr (errNumber e))

/-- A command ends with success: `STATUS.ERR <- 0` (R190, R191). -/
def succeed (s : State) : Host.Outcome State Fault Refusal := .next (s.setErr errSuccess)

end Sys2Proof.Machine
end

