-- ==== Sys2Proof/Machine/Operands.lean ====
section
/-! DEFINITION. Operands: digit characters and decimal text (R12, R84 to R86), the string operand (R83), and register operands as
natural numbers (R8, R83). -/

namespace Sys2Proof.Machine

/-- `isdigit(c)` (R12, R84). -/
def isDigit (c : Byte) : Bool := decide (0x30 ≤ c.toNat ∧ c.toNat ≤ 0x39)

/-- `digit(c)`, for a digit character (R12). -/
def digit (c : Byte) : Nat := c.toNat - 0x30

/-- `chr(d)`, for `d` in `0 .. 9` (R12). -/
def chr (d : Nat) : Byte := BitVec.ofNat 8 (0x30 + d)

/-- `num(t)`: decimal text as a number, first character most significant (R85). The empty text, whose number the spec does not
define and never asks for, is the recursion's end. -/
def num : List Byte → Nat
  | [] => 0
  | c :: t => digit c * 10 ^ t.length + num t

/-- `dec_n(c)`: a number below `10^n` as text of exactly `n` digit characters (R86). -/
def decText (n c : Nat) : List Byte := (List.range n).map (fun j => chr (c / 10 ^ (n - 1 - j) % 10))

/-- A register operand: "an unsigned 32-bit number, whole" (R83), with no wrap-around in what is computed from it (R8). -/
def State.xNat (s : State) (r : OpReg) : Nat := (s.x r).toNat

/-- The string operand: "always `DBUF[0 .. DLEN-1]`" (R83). -/
def State.digitString (s : State) : List Byte := s.bytes .dbuf (s.xNat .dlen)

/-! ## The buffers by name and index (R11, R55) -/

/-- `DBUF[i]` (R30). -/
def State.dbuf (s : State) (i : Nat) : Byte := s.readByte (Buffer.dbuf.base + i)
/-- `PBUF[i]` (R32). -/
def State.pbuf (s : State) (i : Nat) : Byte := s.readByte (Buffer.pbuf.base + i)
/-- `ROW[i]` (R33). -/
def State.row (s : State) (i : Nat) : Byte := s.readByte (Buffer.row.base + i)
/-- `CBUF[i]` (R31). -/
def State.cbuf (s : State) (i : Nat) : Byte := s.readByte (Buffer.cbuf.base + i)
/-- `GROM[d]` (R34). -/
def State.grom (s : State) (d : Nat) : Byte := s.readByte (Buffer.grom.base + d)

/-! ## What the host may write -/

/-- Host access to an operand register: `x[8]` and `x[9]` are read only (R21, R22). -/
def hostWritesReg : OpReg → Bool
  | .clen => false
  | .plen => false
  | .dlen => true
  | .explen => true
  | .modulus => true
  | .outlen => true
  | .offset => true
  | .width => true
  | .height => true
  | .tag => true

/-- Host access to a buffer: `PBUF`, `CBUF` and `GROM` are read only (R55, R57). -/
def hostWritesBuffer : Buffer → Bool
  | .dbuf => true
  | .row => true
  | .pbuf => false
  | .cbuf => false
  | .grom => false

end Sys2Proof.Machine
end

