-- ==== Sys2Proof/Machine/Checksum.lean ====
section
/-! DEFINITION. The modular-checksum engine and the command `CSUM` (40_checksum.md). -/

namespace Sys2Proof.Machine

/-- `N(s) = num(reverse(s))` (R111). -/
def reversedValue (s : List Byte) : Nat := num s.reverse

/-- `Checksum(s, m, n)` with the integer range `0 .. vmax` (R112, R114): digit test, overflow test on the exact value, the two
reductions in their order, the text. -/
def checksum (vmax : Nat) (s : List Byte) (m n : Nat) : Except ErrCode (List Byte) :=
  if s.all isDigit then
    if vmax < reversedValue s then .error .numericOverflow
    else .ok (decText n (reversedValue s % m % 10 ^ n))
  else .error .invalidInput

/-- The digit-serial accumulator of rule R115 over the characters in the order they are read (last character of the string
first); none at the first step whose new value exceeds `vmax`. -/
def accumulate (vmax : Nat) : Nat → List Byte → Option Nat
  | acc, [] => some acc
  | acc, c :: t => if vmax < acc * 10 + digit c then none else accumulate vmax (acc * 10 + digit c) t

/-- The digit-serial form of `Checksum` (R115): every character is tested first, then the accumulator runs and may stop at
the first overflow. -/
def checksumSerial (vmax : Nat) (s : List Byte) (m n : Nat) : Except ErrCode (List Byte) :=
  if s.all isDigit then
    match accumulate vmax 0 s.reverse with
    | none => .error .numericOverflow
    | some acc => .ok (decText n (acc % m % 10 ^ n))
  else .error .invalidInput

/-- `CSUM` with `VMAX` as a parameter (R7, R113). -/
def csumWith (vmax : Nat) (s : State) : Host.Outcome State Fault Refusal :=
  if s.xNat .dlen = 0 ∨ Config.dCap < s.xNat .dlen ∨ s.xNat .modulus = 0 ∨ vmax < s.xNat .modulus
      ∨ s.xNat .outlen = 0 ∨ Config.cCap < s.xNat .outlen then
    raiseError (some .csum) .paramError s
  else
    match checksum vmax s.digitString (s.xNat .modulus) (s.xNat .outlen) with
    | .error e => raiseError (some .csum) e s
    | .ok r =>
      succeed ((s.storeBytes Buffer.cbuf.base (r ++ List.replicate (Config.cCap - s.xNat .outlen) 0x00)).setX .clen
        (s.x .outlen))

/-- `CSUM`: the check code of the string in `DBUF` (R113), with the default `VMAX` (D8; log 6). -/
def execCsum (s : State) : Host.Outcome State Fault Refusal := csumWith Config.vmax s

end Sys2Proof.Machine
end

