-- ==== Sys2Proof/Machine/Helpers.lean ====
section
/-! DEFINITION. The ID-format checker `VALID` and the concatenation `CAT` (43_helpers_pipeline.md). -/

namespace Sys2Proof.Machine

/-- `ValidateId(s, e)`: exact length and digits only (R176). -/
def validateId (s : List Byte) (e : Nat) : Bool := decide (s.length = e) && s.all isDigit

/-- `VALID`: check the format of the string in `DBUF` (R177). -/
def execValid (s : State) : Host.Outcome State Fault Refusal :=
  if Config.dCap < s.xNat .dlen then raiseError (some .valid) .paramError s
  else succeed (s.setV (validateId s.digitString (s.xNat .explen)))

/-- `CAT`: put the check code in front of the string in `DBUF`; the old string is taken before any byte is written (R178). -/
def execCat (s : State) : Host.Outcome State Fault Refusal :=
  if s.xNat .clen = 0 ∨ Config.dCap < s.xNat .dlen ∨ Config.dCap < s.xNat .clen + s.xNat .dlen then
    raiseError (some .cat) .paramError s
  else
    succeed ((s.storeBytes Buffer.dbuf.base (s.bytes .cbuf (s.xNat .clen) ++ s.digitString)).setX .dlen
      (BitVec.ofNat 32 (s.xNat .clen + s.xNat .dlen)))

end Sys2Proof.Machine
end

