-- ==== Sys2Proof/Machine/Pattern.lean ====
section
/-! DEFINITION. The seven-segment pattern encoder and the command `MAP` (41_pattern.md). -/

namespace Sys2Proof.Machine

/-- `MapDigits(s)`: one glyph pattern per character, all or nothing (R132, R134). -/
def mapDigits (s : List Byte) : Except ErrCode (List Byte) :=
  if s.all isDigit then .ok (s.map (fun c => glyph (digit c))) else .error .unmappableCharacter

/-- `MAP`: encode the string in `DBUF` into `PBUF`, rewriting all 32 bytes (R133). -/
def execMap (s : State) : Host.Outcome State Fault Refusal :=
  if Config.dCap < s.xNat .dlen then raiseError (some .map) .paramError s
  else
    match mapDigits s.digitString with
    | .error e => raiseError (some .map) e s
    | .ok r =>
      succeed ((s.storeBytes Buffer.pbuf.base (r ++ List.replicate (Config.pCap - s.xNat .dlen) 0x00)).setX .plen
        (s.x .dlen))

end Sys2Proof.Machine
end

