-- ==== Sys2Proof/Machine/Raster.lean ====
section
/-! DEFINITION. The bit-packing raster serializer and the commands `CLRROW`, `PLACE`, `WRITE` (42_raster.md). -/

namespace Sys2Proof.Machine

/-! ## Filling the row buffer -/

/-- `CLRROW`: the whole row buffer to background (R146). -/
def execClrrow (s : State) : Host.Outcome State Fault Refusal :=
  succeed (s.storeBytes Buffer.row.base (List.replicate Config.rowCap 0x00))

/-- `PLACE`: copy `PBUF[0 .. PLEN-1]` to `ROW[OFFSET ..]`; the sum is taken without wrap-around (R147). -/
def execPlace (s : State) : Host.Outcome State Fault Refusal :=
  if s.xNat .plen = 0 ∨ Config.rowCap < s.xNat .offset + s.xNat .plen then raiseError (some .place) .paramError s
  else succeed (s.storeBytes (Buffer.row.base + s.xNat .offset) (s.bytes .pbuf (s.xNat .plen)))

/-! ## Geometry, pixels and the record -/

/-- The row stride `rb = ceil(w/8)` in bytes (R8, R160). -/
def rowStride (w : Nat) : Nat := (w + 7) / 8

/-- The size of an image in bytes, `nb = h * rb` (R160). -/
def imageBytes (w h : Nat) : Nat := h * rowStride w

/-- Pixel `p` of a row of packed bytes: bit `7 - (p mod 8)` of byte `p div 8`, the leftmost pixel of a byte its most
significant bit (R60). No command uses it; a reader of the rows does. -/
def pixel (row : List Byte) (p : Nat) : Bool := (row.getD (p / 8) 0x00).getLsbD (7 - p % 8)

/-- The header of a record: width and height vary, the other five fields are constants (R92, R162). -/
def headerOf (w h : Nat) : Header := ⟨w, h, .one, .gray, .default, .none, .none⟩

/-- The polarity inversion of one byte (R166); all eight bits, padding bits included (R167). -/
def invert (b : Byte) : Byte := ~~~b

/-- `Serialize(w, h, buf, t)`: the raster record (R165). Row `r` is the inverted bytes `buf[r*rb + j]`, `j < rb`. The rule is
for a `buf` of at least `nb` bytes, and `WRITE` gives it exactly `nb`. -/
def serialize (w h : Nat) (buf : List Byte) (t : Word) : RasterRecord where
  tag := t
  header := headerOf w h
  rows := (List.range h).map (fun r => (List.range (rowStride w)).map (fun j => invert (buf.getD (r * rowStride w + j) 0x00)))

/-! ## The sink and the command -/

/-- What follows the sink's response to a record (R168, R169, R171, R172, R77). The channel is closed before `STATUS.ERR` is
written, on every path on which it was opened. -/
def sinkOutcome (resp : SinkResponse) (r : RasterRecord) (s : State) : Host.Outcome State Fault Refusal :=
  let asked := s.portSend (.openRequest r.tag)
  match resp with
  | .openFailed => raiseError (some .write) .destinationUnwritable asked
  | .initFailed =>
    raiseError (some .write) .encoderInitFailed
      (((asked.openChannel.portSend (.header r.header)).sinkPut r.tag .unspecified).portSend .close).closeChannel
  | .rowFailed =>
    raiseError (some .write) .writeFailed
      ((((asked.openChannel.portSend (.header r.header)).portSend .rowsRefused).sinkPut r.tag .unspecified).portSend
        .close).closeChannel
  | .accepted =>
    succeed
      ((((asked.openChannel.portSend (.header r.header)).portSend (.rows r.rows)).emit r).portSend .close).closeChannel

/-- `WRITE`: serialize the row buffer and hand the record to the sink (R169). `ROW` is read, not written (R170). -/
def execWrite (s : State) : Host.Outcome State Fault Refusal :=
  if s.xNat .width = 0 ∨ s.xNat .height = 0 then raiseError (some .write) .paramError s
  else if Config.rowCap < imageBytes (s.xNat .width) (s.xNat .height) then raiseError (some .write) .paramError s
  else
    sinkOutcome s.nextResponse
      (serialize (s.xNat .width) (s.xNat .height) (s.bytes .row (imageBytes (s.xNat .width) (s.xNat .height))) (s.x .tag))
      s.drawResponse

end Sys2Proof.Machine
end

