-- ==== Sys2Proof/Machine/Dispatch.lean ====
section
/-! DEFINITION. One arm per command: the meaning of each (R81). -/

namespace Sys2Proof.Machine

def exec (i : Instr) (s : State) : Host.Outcome State Fault Refusal :=
  match i with
  | .valid => Sys2Proof.Machine.execValid s
  | .csum => Sys2Proof.Machine.execCsum s
  | .cat => Sys2Proof.Machine.execCat s
  | .map => Sys2Proof.Machine.execMap s
  | .clrrow => Sys2Proof.Machine.execClrrow s
  | .place => Sys2Proof.Machine.execPlace s
  | .write => Sys2Proof.Machine.execWrite s

end Sys2Proof.Machine
end

