-- ==== Sys2Proof/Machine/HostPort.lean ====
section
/-! DEFINITION. The host port (R76), the command register (R25, R82) and the reset event (R220). -/

namespace Sys2Proof.Machine

/-- A host write of `w` to `CMD`: "executes the command that `w` encodes, completely, before the write transaction ends" (R25);
a word that is no command raises IllegalCommand, and nothing else changes (R82). -/
def commandWrite (w : Word) (s : State) : Host.Outcome State Fault Refusal :=
  match decode w with
  | .ok i => exec i s
  | .error _ => raiseError none .illegalCommand s

/-- `WR <reg>, <value>`: stores in registers 0 to 7, executes a command at 15, has no effect at 8 to 14 (R22, R24, R27, R76). -/
def hostWriteReg (n : Fin 16) (w : Word) (s : State) : Host.Outcome State Fault Refusal :=
  match selectReg n with
  | .operand r => .next (if hostWritesReg r then s.setX r w else s)
  | .reserved => .next s
  | .status => .next s
  | .cmd => commandWrite w s

/-- `RD <reg>`: returns `x[0 .. 9]` or `STATUS` (R22, R24, R76); a read of a reserved number or of `CMD` has no meaning and is refused
(R25, R27, U9; log 7). -/
def hostReadReg (n : Fin 16) (s : State) : Host.Outcome State Fault Refusal :=
  match selectReg n with
  | .operand r => .next (s.reply (.reg (s.x r)))
  | .status => .next (s.reply (.reg s.statusWord))
  | .reserved => .refused (.readReservedRegister n)
  | .cmd => .refused .readCommandRegister

/-- `WB <addr>, <byte>`: stores in `DBUF` and `ROW`, has no effect elsewhere (R56, R57, R76). -/
def hostWriteByte (a : Fin 256) (b : Byte) (s : State) : Host.Outcome State Fault Refusal :=
  match bufferAt a.val with
  | some u => .next (if hostWritesBuffer u then s.storeBytes a.val [b] else s)
  | none => .next s

/-- `RB <addr>`: returns the byte of a buffer or of `GROM` (R55, R76); a read of a reserved address has no meaning and is refused
(R56, U9; log 7). -/
def hostReadByte (a : Fin 256) (s : State) : Host.Outcome State Fault Refusal :=
  match bufferAt a.val with
  | some _ => .next (s.reply (.byte (s.readByte a.val)))
  | none => .refused (.readReservedAddress a)

/-- One host transaction, completely (R65, R70, R76). -/
def transact (t : HostTxn) (s : State) : Host.Outcome State Fault Refusal :=
  match t with
  | .wr n w => hostWriteReg n w s
  | .rd n => hostReadReg n s
  | .wb a b => hostWriteByte a b s
  | .rb a => hostReadByte a s

/-- The reset event: the core's state to the values of rule R40; the sink's store and everything else of the environment as it
was (R220). -/
def resetEvent (s : State) : State :=
  { State.reset with
    sink := s.sink, emitted := s.emitted, sinkPort := s.sinkPort, inputs := s.inputs, replies := s.replies,
    sinkAnswers := s.sinkAnswers, draws := s.draws }

/-- One input from outside: a host transaction or reset (R76, R220). -/
def takeInput (i : Input) (s : State) : Host.Outcome State Fault Refusal :=
  match i with
  | .txn t => transact t s
  | .reset => .next (resetEvent s)

end Sys2Proof.Machine
end

