-- ==== Sys2Proof/Machine/Step.lean ====
section
/-! DEFINITION. One step of the machine: the next input from outside, taken completely (R65, R70). -/

namespace Sys2Proof.Machine

/-- One step. The order of the inputs is the order in which the host issues them (R23, R70); with no input waiting the core is
idle and nothing changes (R5, R205; log 2). -/
def step (s : State) : Host.Outcome State Fault Refusal :=
  match s.inputs with
  | [] => .next s
  | i :: rest => takeInput i (s.setInputs rest)

/-- `s` with a command word as the host's next transaction, the write of `CMD` that executes it (R25; fixed name of the host; log 1). -/
def State.withFetchWord (s : State) (nbits w : Nat) : State :=
  s.setInputs (.txn (.wr cmdNumber (BitVec.ofNat 32 (w % 2 ^ nbits))) :: s.inputs)

end Sys2Proof.Machine
end

