-- ==== Sys2Proof/Machine/Container.lean ====
section
/-! DEFINITION. The container parameter `Frame` (R7, R165, R173, R174; D11): the file is `Frame(rec)`, and no rule of the core uses it. -/

namespace Sys2Proof.Machine

/-- What a conforming reader reports of a file (R174). -/
structure ReaderReport where
  width : Nat
  height : Nat
  depth : BitDepth
  colour : Colour
  deriving DecidableEq, Repr

/-- A container format: the function `Frame` from records to file bytes, a conforming reader, and the obligation that the reader
recovers the four header values (R174). That equal records give equal bytes (R173) is what being a function says. The spec leaves
the function open, so statements take a container as an argument (log 11). -/
structure Container where
  frame : RasterRecord → List Byte
  read : List Byte → Option ReaderReport
  recovers : ∀ r, read (frame r) = some ⟨r.header.width, r.header.height, r.header.depth, r.header.colour⟩

/-- The file a record becomes (R165). -/
def fileOf (c : Container) (r : RasterRecord) : List Byte := c.frame r

end Sys2Proof.Machine
end

