-- ==== Sys2Proof/Machine/Pipeline.lean ====
section
/-! DEFINITION. The host's side: single transactions through `step`, the source calls as transaction sequences (R98), and the
pseudo-command `ENCODE` with the host's three `STATUS` tests (R186 to R188). -/

namespace Sys2Proof.Machine

/-- The host issues one transaction, and the core takes it before anything else (R70). -/
def issue (t : HostTxn) (s : State) : Host.Outcome State Fault Refusal :=
  step (s.setInputs (.txn t :: s.inputs))

/-- The host issues transactions one after another (R70). -/
def issueAll : List HostTxn → State → Host.Outcome State Fault Refusal
  | [], s => .next s
  | t :: l, s =>
    match issue t s with
    | .next s' => issueAll l s'
    | .fault f => .fault f
    | .refused r => .refused r

/-- `WS <buffer>, "<string>"` as byte writes, first character at index 0 (R97). An address past 255 cannot be issued. -/
def stringTxns (a : Nat) : List Byte → List HostTxn
  | [] => []
  | c :: s => if h : a < 256 then .wb ⟨a, h⟩ c :: stringTxns (a + 1) s else []

/-- `WR <name>, <value>` (R76, R97). `WR` carries a 32-bit value (R97), and every caller below either gives a number that has 32
bits or tests with `valueInRange` first: what a host does with a larger number the spec does not say, and the model's host does not
issue the `WR` (DESIGN CHOICE, log 23; R8: a width limit is "an explicit comparison, never ... silent truncation"). -/
def writeReg (r : OpReg) (n : Nat) : HostTxn := .wr (regNumber r) (BitVec.ofNat 32 n)

/-- `RD STATUS` (R76). -/
def readStatus : HostTxn := .rd statusNumber

/-- The tag of an ID: first character in bits 31:24 of four (R94). `ENCODE` gives it four characters only, which fit 32 bits. -/
def idTag (id : List Byte) : Nat := id.foldl (fun acc c => acc * 2 ^ 8 + c.toNat) 0

/-- `RB <buffer>[0 .. n-1]`, the reading of a result (R98). -/
def readBuffer (b : Buffer) (n : Nat) : List HostTxn :=
  (List.range n).filterMap (fun i => if h : b.base + i < 256 then some (.rb ⟨b.base + i, h⟩) else none)

/-- The value the host's last register read returned. In the state after `RD STATUS` that is the last reply; the other two arms,
which no such state reaches, name the same register. -/
def statusRead (s : State) : Word :=
  match s.replies.getLast? with
  | some (.reg w) => w
  | some (.byte _) => s.statusWord
  | none => s.statusWord

/-- Read `STATUS` and go on with its value (R98, R186). -/
def withStatus {α : Type} (s : State) (k : Word → State → Host.Outcome α Fault Refusal) : Host.Outcome α Fault Refusal :=
  match issue readStatus s with
  | .next t => k (statusRead t) t
  | .fault f => .fault f
  | .refused r => .refused r

/-! ## The source's calls (R98) -/

/-- A source call as the host makes it: one row of the table of rule R98. -/
structure SourceCall where
  /-- every argument can be loaded: strings of at most `DCAP` and buffers of at most `ROWCAP` bytes (R98), numbers of 32 bits (log 23) -/
  loadable : Bool
  /-- the loading of the arguments, then the command -/
  load : List HostTxn
  /-- the reading of the result, "if `ERR = 0`" -/
  readBack : List HostTxn
  deriving DecidableEq, Repr

/-- What the host has after a source call. -/
inductive CallResult where
  /-- an argument "cannot be loaded" (R98), and nothing was issued (log 23) -/
  | notLoadable
  /-- the value of `RD STATUS`, and the bytes read back -/
  | answered (status : Word) (bytes : List Byte)
  deriving DecidableEq, Repr

/-- `validateIdFormat(id, expectedLength)`; the result is `V`, which `RD STATUS` returns. -/
def callValidate (id : List Byte) (expectedLength : Nat) : SourceCall where
  loadable := stringFits .dbuf id && valueInRange expectedLength
  load := stringTxns Buffer.dbuf.base id ++ [writeReg .dlen id.length, writeReg .explen expectedLength, commandTxn .valid]
  readBack := []

/-- `computeChecksum(id, modulus, outLen)`. -/
def callChecksum (id : List Byte) (modulus outLen : Nat) : SourceCall where
  loadable := stringFits .dbuf id && valueInRange modulus && valueInRange outLen
  load := stringTxns Buffer.dbuf.base id ++
    [writeReg .dlen id.length, writeReg .modulus modulus, writeReg .outlen outLen, commandTxn .csum]
  readBack := readBuffer .cbuf outLen

/-- `mapDigitsToPattern(digitString)`. -/
def callMapDigits (d : List Byte) : SourceCall where
  loadable := stringFits .dbuf d
  load := stringTxns Buffer.dbuf.base d ++ [writeReg .dlen d.length, commandTxn .map]
  readBack := readBuffer .pbuf d.length

/-- `writeRasterImage(path, width, height, packedBuffer)`, the path as its tag (R94). A buffer shorter than the image is loaded as it
is: what `WRITE` serializes is always the bytes of `ROW` (R161; log 23). -/
def callWriteRaster (tag : Word) (width height : Nat) (packed : List Byte) : SourceCall where
  loadable := stringFits .row packed && valueInRange width && valueInRange height
  load := stringTxns Buffer.row.base packed ++
    [writeReg .width width, writeReg .height height, writeReg .tag tag.toNat, commandTxn .write]
  readBack := []

/-- The bytes among the replies of host reads, oldest first. -/
def bytesOf : List HostReply → List Byte
  | [] => []
  | .byte b :: l => b :: bytesOf l
  | .reg _ :: l => bytesOf l

/-- The result of a source call is read back: the bytes are what the reads returned (R98). -/
def readResult (c : SourceCall) (w : Word) (s : State) : Host.Outcome (State × CallResult) Fault Refusal :=
  match issueAll c.readBack s with
  | .next t => .next (t, .answered w (bytesOf (t.replies.drop s.replies.length)))
  | .fault f => .fault f
  | .refused r => .refused r

/-- The host makes a source call: load the arguments, issue the command, read `STATUS`, and "if `ERR = 0`" read the result (R98). -/
def runCall (c : SourceCall) (s : State) : Host.Outcome (State × CallResult) Fault Refusal :=
  if c.loadable then
    match issueAll c.load s with
    | .next t =>
      withStatus t (fun w u => if statusErr w = errSuccess then readResult c w u else .next (u, .answered w []))
    | .fault f => .fault f
    | .refused r => .refused r
  else .next (s, .notLoadable)

/-! ## `ENCODE` (R186, R187) -/

/-- What the host makes of one candidate ID (R186). -/
inductive EncodeResult where
  /-- the candidate failed `VALID` -/
  | rejected
  /-- a later command failed with this code -/
  | failed (err : BitVec 4)
  /-- the modulus has more than 32 bits, and `WR MODULUS` cannot carry it: the host stops before step 6 (DESIGN CHOICE, log 23) -/
  | notLoadable
  /-- the record was written -/
  | success
  deriving DecidableEq, Repr

/-- One action of the host's sequence: a transaction, or a `RD STATUS` with what the host does with the value read (R186). -/
inductive HostAct where
  | io (t : HostTxn)
  /-- step 5: "if ERR != 0 or V = 0: stop, result rejected" -/
  | stopUnlessValid
  /-- before step 6: a number that `WR` cannot carry: stop, result not loadable (DESIGN CHOICE, log 23) -/
  | stopUnlessFits (n : Nat)
  /-- steps 9 and 12: "if ERR != 0: stop, result ERR" -/
  | stopOnError
  deriving DecidableEq, Repr

/-- The result of the last `RD STATUS`, step 20: "0 success, or 4, 5, 6" (R186). -/
def finalResult (w : Word) : EncodeResult := if statusErr w = errSuccess then .success else .failed (statusErr w)

/-- The host runs its actions: it alone tests `STATUS` and stops (R187). At the end it reads `STATUS` once more (step 20). -/
def runHost : List HostAct → State → Host.Outcome (State × EncodeResult) Fault Refusal
  | [], s => withStatus s (fun w t => .next (t, finalResult w))
  | .io a :: l, s =>
    match issue a s with
    | .next t => runHost l t
    | .fault f => .fault f
    | .refused r => .refused r
  | .stopUnlessValid :: l, s =>
    withStatus s (fun w t => if statusErr w ≠ errSuccess ∨ statusV w = false then .next (t, .rejected) else runHost l t)
  | .stopUnlessFits n :: l, s => if valueInRange n then runHost l s else .next (s, .notLoadable)
  | .stopOnError :: l, s =>
    withStatus s (fun w t => if statusErr w ≠ errSuccess then .next (t, .failed (statusErr w)) else runHost l t)

/-- The expansion of `ENCODE <id>, <m>`, steps 1 to 19; step 20 is the end of `runHost` (R186). The test of `m` before step 6 is the
model's (log 23): it passes for every `m` below `2^32`. -/
def encodeActs (id : List Byte) (m : Nat) : List HostAct :=
  (stringTxns Buffer.dbuf.base id).map HostAct.io ++
    [.io (writeReg .dlen id.length),
     .io (writeReg .explen Config.idLen),
     .io (commandTxn .valid),
     .stopUnlessValid,
     .stopUnlessFits m,
     .io (writeReg .modulus m),
     .io (writeReg .outlen Config.outLenRef),
     .io (commandTxn .csum),
     .stopOnError,
     .io (commandTxn .cat),
     .io (commandTxn .map),
     .stopOnError,
     .io (commandTxn .clrrow),
     .io (writeReg .offset Config.glyphOffset),
     .io (commandTxn .place),
     .io (writeReg .width Config.wRef),
     .io (writeReg .height Config.hRef),
     .io (writeReg .tag (idTag id)),
     .io (commandTxn .write)]

/-- `ENCODE <id>, <m>`: a candidate longer than `DBUF` "is rejected by the host without the core: its length is not 4" (R186). -/
def encodeId (id : List Byte) (m : Nat) (s : State) : Host.Outcome (State × EncodeResult) Fault Refusal :=
  if Config.dCap < id.length then .next (s, .rejected) else runHost (encodeActs id m) s

/-- `ENCODE <id>` with the default modulus (R186, D18). -/
def encodeIdRef (id : List Byte) (s : State) : Host.Outcome (State × EncodeResult) Fault Refusal :=
  encodeId id Config.modRef s

end Sys2Proof.Machine
end

