-- ==== Sys2Proof/Safety.lean ====
section
/-! DEFINITION. The invariants of rule R39, the canonical forms of the two stores, and the frame predicates in which statements say
what a transaction leaves unchanged. -/

namespace Sys2Proof.Machine

/-! ## Invariants -/

/-- R39 (a): `CLEN <= CCAP`, digit characters below `CLEN`, `0x00` from there on. -/
abbrev cbufAgrees (s : State) : Prop :=
  s.xNat .clen ≤ 9 ∧ ∀ j < 9, if j < s.xNat .clen then isDigit (s.cbuf j) = true else s.cbuf j = 0x00

/-- R39 (b): `PLEN <= PCAP`, glyph patterns below `PLEN`, `0x00` from there on. -/
abbrev pbufAgrees (s : State) : Prop :=
  s.xNat .plen ≤ 32 ∧ ∀ k < 32, if k < s.xNat .plen then ∃ d < 10, s.pbuf k = s.grom d else s.pbuf k = 0x00

/-- R39 (c): `STATUS.ERR <= 8` and `STATUS[31:6] = 0`. -/
abbrev statusLegal (s : State) : Prop := s.err.toNat ≤ 8 ∧ s.statusWord.extractLsb' 6 26 = 0

/-- R39 (d): `STATUS.OPEN = 0`. -/
abbrev channelClosed (s : State) : Prop := s.chanOpen = false

/-- R39 (e): `GROM` holds the values of rule R87. -/
abbrev gromConstant (s : State) : Prop :=
  s.grom 0 = 0x77 ∧ s.grom 1 = 0x42 ∧ s.grom 2 = 0xB6 ∧ s.grom 3 = 0xD6 ∧ s.grom 4 = 0xC3 ∧ s.grom 5 = 0xD5
    ∧ s.grom 6 = 0xF5 ∧ s.grom 7 = 0x46 ∧ s.grom 8 = 0xF7 ∧ s.grom 9 = 0xD7

/-- The invariants "that hold in every state the host can observe, from reset onward" (R39). -/
abbrev Inv (s : State) : Prop :=
  cbufAgrees s ∧ pbufAgrees s ∧ statusLegal s ∧ channelClosed s ∧ gromConstant s

/-- The buffers' bytes and the sink's entries are listed in their canonical forms (the model's own convention, log 5). -/
abbrev Canonical (s : State) : Prop := Memory.wf s.mem = true ∧ SinkStore.wf s.sink = true

/-! ## Outcomes -/

/-- The next state, if there is one. -/
def nextOf (o : Host.Outcome State Fault Refusal) : Option State :=
  match o with
  | .next t => some t
  | .fault _ => none
  | .refused _ => none

/-- The reason of a refusal, if there is one. -/
def refusalOf (o : Host.Outcome State Fault Refusal) : Option Refusal :=
  match o with
  | .next _ => none
  | .fault _ => none
  | .refused r => some r

/-- A safe outcome goes on: no fault, and no refusal (the host read nothing that has no meaning, U9). -/
def safeOutcome (o : Host.Outcome State Fault Refusal) : Bool := (nextOf o).isSome

/-! ## Frames: `t` after, `s` before -/

/-- Every operand register but those listed is unchanged. -/
abbrev sameRegsBut (l : List OpReg) (s t : State) : Prop := ∀ r, r ∉ l → t.x r = s.x r

/-- Every byte of the buffer space outside `lo .. lo + n - 1` reads as before. -/
abbrev sameBytesOutside (lo n : Nat) (s t : State) : Prop := ∀ a, ¬ (lo ≤ a ∧ a < lo + n) → t.readByte a = s.readByte a

/-- Every byte of the buffer space reads as before. -/
abbrev sameBytes (s t : State) : Prop := ∀ a, t.readByte a = s.readByte a

/-- The sink, its port and its responses are as before. -/
abbrev sameSink (s t : State) : Prop :=
  t.sink = s.sink ∧ t.emitted = s.emitted ∧ t.sinkPort = s.sinkPort ∧ t.sinkAnswers = s.sinkAnswers ∧ t.draws = s.draws

/-- The host's waiting inputs and the values returned to it are as before. -/
abbrev sameHost (s t : State) : Prop := t.inputs = s.inputs ∧ t.replies = s.replies

/-- What a command other than `VALID` and `WRITE` leaves alone whatever it does: `V`, `OPEN`, the sink, the host's side. -/
abbrev sameRest (s t : State) : Prop := t.v = s.v ∧ t.chanOpen = s.chanOpen ∧ sameSink s t ∧ sameHost s t

end Sys2Proof.Machine
end

