-- ==== Sys2Proof/Certificates/Slice0/Obligations.lean ====
section
/-! DEFINITION. The statements for the provers, in the words and numbers of the rules of spec/. -/

namespace Sys2Proof.Spec

open Sys2Proof.Machine

/-- A digit character: a byte in `0x30 .. 0x39` (R12, R84). -/
abbrev digitByte (b : Byte) : Prop := 0x30 ≤ b.toNat ∧ b.toNat ≤ 0x39

/-- Every character of the string operand is a digit character. -/
abbrev allDigits (s : State) : Prop := ∀ i < s.xNat .dlen, digitByte (s.dbuf i)

/-- `N(DBUF[0 .. DLEN-1])` as rule R111 writes it out: the first character has weight 1, character `i` weight `10^i`. -/
abbrev stringValue (s : State) : Nat := ∑ i ∈ Finset.range (s.xNat .dlen), ((s.dbuf i).toNat - 0x30) * 10 ^ i

/-- The register range tests of `CSUM` (R113, R192), for an integer range `0 .. vmax`. -/
abbrev csumRangeFails (vmax : Nat) (s : State) : Prop :=
  s.xNat .dlen = 0 ∨ 32 < s.xNat .dlen ∨ s.xNat .modulus = 0 ∨ vmax < s.xNat .modulus ∨ s.xNat .outlen = 0
    ∨ 9 < s.xNat .outlen

/-- The register range test of `CAT` (R178, R192). -/
abbrev catRangeFails (s : State) : Prop :=
  s.xNat .clen = 0 ∨ 32 < s.xNat .dlen ∨ 32 < s.xNat .clen + s.xNat .dlen

/-- The register range test of `PLACE` (R147, R192). -/
abbrev placeRangeFails (s : State) : Prop := s.xNat .plen = 0 ∨ 32 < s.xNat .offset + s.xNat .plen

/-- The register range test of `WRITE` (R161, R169, R192); `ceil(w/8)` is `(w + 7) div 8` (R8). -/
abbrev writeRangeFails (s : State) : Prop :=
  s.xNat .width = 0 ∨ s.xNat .height = 0 ∨ 32 < s.xNat .height * ((s.xNat .width + 7) / 8)

/-- A failing `CSUM` with code `e` (R196): `ERR <- e`, `CBUF` and `CLEN` cleared, nothing else. -/
abbrev csumFailed (e : BitVec 4) (s t : State) : Prop :=
  t.err = e ∧ t.x .clen = 0 ∧ (∀ j < 9, t.cbuf j = 0x00) ∧ sameRegsBut [.clen] s t ∧ sameBytesOutside 0x60 9 s t
    ∧ sameRest s t

/-- A failing `MAP` with code `e` (R196): `ERR <- e`, `PBUF` and `PLEN` cleared, nothing else. -/
abbrev mapFailed (e : BitVec 4) (s t : State) : Prop :=
  t.err = e ∧ t.x .plen = 0 ∧ (∀ k < 32, t.pbuf k = 0x00) ∧ sameRegsBut [.plen] s t ∧ sameBytesOutside 0x20 32 s t
    ∧ sameRest s t

/-- The error a command that starts in `s` must report, 0 for success: the table of rule R192 in the order of rule R194. -/
def errorOf (i : Instr) (s : State) : Nat :=
  match i with
  | .valid => if 32 < s.xNat .dlen then 7 else 0
  | .csum =>
    if csumRangeFails 4294967295 s then 7 else if ¬ allDigits s then 1 else if 4294967295 < stringValue s then 2 else 0
  | .cat => if catRangeFails s then 7 else 0
  | .map => if 32 < s.xNat .dlen then 7 else if ¬ allDigits s then 3 else 0
  | .clrrow => 0
  | .place => if placeRangeFails s then 7 else 0
  | .write =>
    if writeRangeFails s then 7
    else
      match s.nextResponse with
      | .accepted => 0
      | .openFailed => 4
      | .initFailed => 5
      | .rowFailed => 6

/-- The error a `CMD` write of `w` in `s` must report: "the word is decoded before anything else" (R194), and a word that is
none of the seven is IllegalCommand. -/
def errorOfWord (w : Word) (s : State) : Nat :=
  match w.toNat with
  | 1 => errorOf .valid s
  | 2 => errorOf .csum s
  | 3 => errorOf .cat s
  | 4 => errorOf .map s
  | 5 => errorOf .clrrow s
  | 6 => errorOf .place s
  | 7 => errorOf .write s
  | _ => 8

/-- The raster record a `WRITE` in `s` hands to the sink (R165), said of the bytes of `ROW`. -/
abbrev isRecordOf (s : State) (r : RasterRecord) : Prop :=
  r.tag = s.x .tag ∧ r.header.width = s.xNat .width ∧ r.header.height = s.xNat .height ∧ r.header.depth.bits = 1
    ∧ r.header.colour = .gray ∧ r.header.compression = .default ∧ r.header.filter = .none ∧ r.header.interlace = .none
    ∧ r.rows.length = s.xNat .height
    ∧ ∀ k < s.xNat .height, ∃ row, r.rows[k]? = some row ∧ row.length = (s.xNat .width + 7) / 8
      ∧ ∀ j < (s.xNat .width + 7) / 8, row[j]? = some (255 - s.row (k * ((s.xNat .width + 7) / 8) + j))

/-- `s` and `t` agree on everything the command reads (R54): the registers, and the bytes of its buffers below the lengths it is
given (R113, R133, R147, R169, R177, R178). -/
def readsAgree (i : Instr) (s t : State) : Prop :=
  match i with
  | .valid => t.x .dlen = s.x .dlen ∧ t.x .explen = s.x .explen ∧ ∀ k < 32, k < s.xNat .dlen → t.dbuf k = s.dbuf k
  | .csum =>
    t.x .dlen = s.x .dlen ∧ t.x .modulus = s.x .modulus ∧ t.x .outlen = s.x .outlen
      ∧ ∀ k < 32, k < s.xNat .dlen → t.dbuf k = s.dbuf k
  | .cat =>
    t.x .dlen = s.x .dlen ∧ t.x .clen = s.x .clen ∧ (∀ k < 32, k < s.xNat .dlen → t.dbuf k = s.dbuf k)
      ∧ ∀ j < 32, j < s.xNat .clen → t.cbuf j = s.cbuf j
  | .map => t.x .dlen = s.x .dlen ∧ ∀ k < 32, k < s.xNat .dlen → t.dbuf k = s.dbuf k
  | .clrrow => True
  | .place => t.x .offset = s.x .offset ∧ t.x .plen = s.x .plen ∧ ∀ k < 32, k < s.xNat .plen → t.pbuf k = s.pbuf k
  | .write =>
    t.x .width = s.x .width ∧ t.x .height = s.x .height ∧ t.x .tag = s.x .tag ∧ t.nextResponse = s.nextResponse
      ∧ ∀ k < 32, k < s.xNat .height * ((s.xNat .width + 7) / 8) → t.row k = s.row k

/-- What the command wrote in `s'` (from `s`) and in `t'` (from `t`) is the same (R54). A `WRITE` that ends with 0, 5 or 6 has written
`OPEN` and the sink's entry for the tag; one that ends with 7 or 4 has written neither (R169). What it appended to the output history
and to the port's traffic is the same either way. -/
def writesAgree (i : Instr) (s s' t t' : State) : Prop :=
  match i with
  | .valid => t'.err = s'.err ∧ (s'.err = 0 → t'.v = s'.v)
  | .csum => t'.err = s'.err ∧ t'.x .clen = s'.x .clen ∧ ∀ j < 9, t'.cbuf j = s'.cbuf j
  | .cat => t'.err = s'.err ∧ t'.x .dlen = s'.x .dlen ∧ ∀ k < s'.xNat .dlen, s'.err = 0 → t'.dbuf k = s'.dbuf k
  | .map => t'.err = s'.err ∧ t'.x .plen = s'.x .plen ∧ ∀ k < 32, t'.pbuf k = s'.pbuf k
  | .clrrow => t'.err = s'.err ∧ ∀ k < 32, t'.row k = s'.row k
  | .place =>
    t'.err = s'.err
      ∧ ∀ k, s'.err = 0 → s.xNat .offset ≤ k → k < s.xNat .offset + s.xNat .plen → t'.row k = s'.row k
  | .write =>
    t'.err = s'.err
      ∧ (s'.err = 0 ∨ s'.err = 5 ∨ s'.err = 6 → t'.chanOpen = s'.chanOpen ∧ t'.sinkAt (t.x .tag) = s'.sinkAt (s.x .tag))
      ∧ (s'.err = 7 ∨ s'.err = 4 → s'.chanOpen = s.chanOpen ∧ t'.chanOpen = t.chanOpen ∧ s'.sink = s.sink ∧ t'.sink = t.sink)
      ∧ (∃ l, s'.emitted = s.emitted ++ l ∧ t'.emitted = t.emitted ++ l)
      ∧ (∃ l, s'.sinkPort = s.sinkPort ++ l ∧ t'.sinkPort = t.sinkPort ++ l)
      ∧ ∃ n, s'.draws = s.draws + n ∧ t'.draws = t.draws + n
        ∧ s'.sinkAnswers = s.sinkAnswers.drop n ∧ t'.sinkAnswers = t.sinkAnswers.drop n

end Sys2Proof.Spec

open Sys2Proof Sys2Proof.Machine Sys2Proof.Spec

/-! ## Encodings -/

/-- R81: the seven command words, each written out, decode to their commands. -/
def Obligations.CommandWordsDecode : Prop :=
  decode 0x00000001 = .ok .valid ∧ decode 0x00000002 = .ok .csum ∧ decode 0x00000003 = .ok .cat
    ∧ decode 0x00000004 = .ok .map ∧ decode 0x00000005 = .ok .clrrow ∧ decode 0x00000006 = .ok .place
    ∧ decode 0x00000007 = .ok .write

/-- R80, R81: the decoder reads a command from a word exactly when the whole word matches the command's row under its mask, and
reads back every command that was encoded. -/
def Obligations.DecoderMatchesCommandTable : Prop :=
  ∀ (w : Word) (i : Instr),
    (decode w = .ok i ↔ ∃ row ∈ commandTable, row.instr = i ∧ w &&& row.mask = row.pattern) ∧ decode (encode i) = .ok i
      ∧ i.wf = true

/-- R97: a transaction and its triple (kind, address, data) determine each other, and a legal assembler line encodes as the
triples it stands for. -/
def Obligations.TransactionTriplesRoundTrip : Prop :=
  (∀ t : HostTxn, t.triple.wf = true ∧ t.triple.txn = some t)
    ∧ (∀ q : Triple, q.wf = true → ∃ t, q.txn = some t ∧ t.triple = q)
    ∧ ∀ l : AsmLine, l.wf = true → ∃ ts, l.txns = some ts ∧ ts.map HostTxn.triple = l.triples

/-- R82: a word that is none of the seven, written to `CMD`, sets `ERR` to 8 and changes nothing else. -/
def Obligations.IllegalWordOnlySetsErr : Prop :=
  ∀ (s : State) (w : Word) (rest : List Input), s.inputs = .txn (.wr 15 w) :: rest → (w.toNat = 0 ∨ 7 < w.toNat) →
    step s = .next { s with inputs := rest, err := 8 }

/-- R25: a step on a write of `CMD` runs the command its word encodes, on the state in which that transaction is taken. -/
def Obligations.StepRunsDecodedCommand : Prop :=
  ∀ (s : State) (w : Word) (i : Instr), decode w = .ok i →
    (∀ rest, s.inputs = .txn (.wr 15 w) :: rest → step s = exec i { s with inputs := rest })
      ∧ step (s.withFetchWord 32 w.toNat) = exec i s

/-! ## The seven commands -/

/-- R177 (with R176): `VALID`. -/
def Obligations.ValidCommand : Prop :=
  encode .valid = 0x00000001 ∧ ∀ s : State,
    (s.xNat .dlen ≤ 32 → ∃ t, exec .valid s = .next t ∧ t.err = 0
      ∧ (t.v = true ↔ s.xNat .dlen = s.xNat .explen ∧ allDigits s)
      ∧ sameRegsBut [] s t ∧ sameBytes s t ∧ t.chanOpen = s.chanOpen ∧ sameSink s t ∧ sameHost s t)
    ∧ (32 < s.xNat .dlen → exec .valid s = .next { s with err := 7 })

/-- R113 (with R112, R192, R196): `CSUM`. -/
def Obligations.CsumCommand : Prop :=
  encode .csum = 0x00000002 ∧ ∀ s : State,
    (¬ csumRangeFails 4294967295 s → allDigits s → stringValue s ≤ 4294967295 →
      ∃ t, exec .csum s = .next t ∧ t.err = 0 ∧ t.x .clen = s.x .outlen
        ∧ (∀ j < s.xNat .outlen,
            (t.cbuf j).toNat
              = 0x30 + (stringValue s % s.xNat .modulus % 10 ^ s.xNat .outlen) / 10 ^ (s.xNat .outlen - 1 - j) % 10)
        ∧ (∀ j < 9, s.xNat .outlen ≤ j → t.cbuf j = 0x00)
        ∧ sameRegsBut [.clen] s t ∧ sameBytesOutside 0x60 9 s t ∧ sameRest s t)
    ∧ (csumRangeFails 4294967295 s → ∃ t, exec .csum s = .next t ∧ csumFailed 7 s t)
    ∧ (¬ csumRangeFails 4294967295 s → ¬ allDigits s → ∃ t, exec .csum s = .next t ∧ csumFailed 1 s t)
    ∧ (¬ csumRangeFails 4294967295 s → allDigits s → 4294967295 < stringValue s →
        ∃ t, exec .csum s = .next t ∧ csumFailed 2 s t)

/-- R178: `CAT`. The premise `CLEN <= 9` is the invariant of rule R39 (a), stated by InvariantKeptByEveryStep; without it
`CBUF[0 .. CLEN-1]` names bytes that do not exist. -/
def Obligations.CatCommand : Prop :=
  encode .cat = 0x00000003 ∧ ∀ s : State,
    (¬ catRangeFails s → s.xNat .clen ≤ 9 → ∃ t, exec .cat s = .next t ∧ t.err = 0
      ∧ t.xNat .dlen = s.xNat .clen + s.xNat .dlen
      ∧ (∀ j < s.xNat .clen, t.dbuf j = s.cbuf j)
      ∧ (∀ i < s.xNat .dlen, t.dbuf (s.xNat .clen + i) = s.dbuf i)
      ∧ sameRegsBut [.dlen] s t ∧ sameBytesOutside 0x00 (s.xNat .clen + s.xNat .dlen) s t ∧ sameRest s t)
    ∧ (catRangeFails s → exec .cat s = .next { s with err := 7 })

/-- R133 (with R132, R134, R87): `MAP`. -/
def Obligations.MapCommand : Prop :=
  encode .map = 0x00000004 ∧ ∀ s : State,
    (s.xNat .dlen ≤ 32 → allDigits s → ∃ t, exec .map s = .next t ∧ t.err = 0 ∧ t.x .plen = s.x .dlen
      ∧ (∀ k < s.xNat .dlen, t.pbuf k = s.grom ((s.dbuf k).toNat - 0x30))
      ∧ (∀ k < 32, s.xNat .dlen ≤ k → t.pbuf k = 0x00)
      ∧ sameRegsBut [.plen] s t ∧ sameBytesOutside 0x20 32 s t ∧ sameRest s t)
    ∧ (32 < s.xNat .dlen → ∃ t, exec .map s = .next t ∧ mapFailed 7 s t)
    ∧ (s.xNat .dlen ≤ 32 → ¬ allDigits s → ∃ t, exec .map s = .next t ∧ mapFailed 3 s t)

/-- R146: `CLRROW`, which cannot fail. -/
def Obligations.ClrrowCommand : Prop :=
  encode .clrrow = 0x00000005 ∧ ∀ s : State, ∃ t, exec .clrrow s = .next t ∧ t.err = 0 ∧ (∀ i < 32, t.row i = 0x00)
    ∧ sameRegsBut [] s t ∧ sameBytesOutside 0x40 32 s t ∧ sameRest s t

/-- R147: `PLACE`. -/
def Obligations.PlaceCommand : Prop :=
  encode .place = 0x00000006 ∧ ∀ s : State,
    (¬ placeRangeFails s → ∃ t, exec .place s = .next t ∧ t.err = 0
      ∧ (∀ k < s.xNat .plen, t.row (s.xNat .offset + k) = s.pbuf k)
      ∧ sameRegsBut [] s t ∧ sameBytesOutside (0x40 + s.xNat .offset) (s.xNat .plen) s t ∧ sameRest s t)
    ∧ (placeRangeFails s → exec .place s = .next { s with err := 7 })

/-- R169 (with R165, R168, R171, R172): `WRITE`, for each response of the sink. -/
def Obligations.WriteCommand : Prop :=
  encode .write = 0x00000007 ∧ ∀ s : State,
    (writeRangeFails s → exec .write s = .next { s with err := 7 })
    ∧ (¬ writeRangeFails s → ∃ t r, exec .write s = .next t ∧ isRecordOf s r
      ∧ sameRegsBut [] s t ∧ sameBytes s t ∧ t.v = s.v ∧ sameHost s t ∧ t.draws = s.draws + 1
      ∧ t.sinkAnswers = s.sinkAnswers.tail ∧ (∀ u, u ≠ s.x .tag → t.sinkAt u = s.sinkAt u)
      ∧ (s.nextResponse = .accepted → t.err = 0 ∧ t.chanOpen = false ∧ t.sinkAt (s.x .tag) = some (.record r)
          ∧ t.emitted = s.emitted ++ [r])
      ∧ (s.nextResponse = .openFailed → t.err = 4 ∧ t.chanOpen = s.chanOpen ∧ t.sink = s.sink ∧ t.emitted = s.emitted)
      ∧ (s.nextResponse = .initFailed → t.err = 5 ∧ t.chanOpen = false ∧ t.sinkAt (s.x .tag) = some .unspecified
          ∧ t.emitted = s.emitted)
      ∧ (s.nextResponse = .rowFailed → t.err = 6 ∧ t.chanOpen = false ∧ t.sinkAt (s.x .tag) = some .unspecified
          ∧ t.emitted = s.emitted))

/-! ## Rules about every command -/

/-- R190: every command write ends with a result, and the next transaction can be taken. -/
def Obligations.EveryCommandWriteCompletes : Prop :=
  ∀ (s : State) (w : Word) (rest : List Input), s.inputs = .txn (.wr 15 w) :: rest →
    ∃ t, step s = .next t ∧ t.inputs = rest ∧ t.err.toNat ≤ 8

/-- R194 (the conditions are those of the table R192): the error of each command, exactly, and the first in the order of rule R194
when several conditions hold; the same of every word written to `CMD`. -/
def Obligations.ErrorCausesAndPriority : Prop :=
  (∀ (i : Instr) (s t : State), exec i s = .next t → t.err.toNat = errorOf i s)
  ∧ ∀ (s t : State) (w : Word) (rest : List Input), s.inputs = .txn (.wr 15 w) :: rest → step s = .next t →
      t.err.toNat = errorOfWord w s

/-- R196: the state written by a failing command, in full. -/
def Obligations.FailingCommandWrites : Prop :=
  ∀ (i : Instr) (s t : State), exec i s = .next t → t.err ≠ 0 →
    t.v = s.v ∧ sameHost s t ∧ t.emitted = s.emitted
    ∧ (i = .csum → csumFailed t.err s t)
    ∧ (i = .map → mapFailed t.err s t)
    ∧ (i ≠ .csum → i ≠ .map → sameRegsBut [] s t ∧ sameBytes s t)
    ∧ (i = .write ∧ (t.err = 5 ∨ t.err = 6) → t.chanOpen = false ∧ t.sinkAt (s.x .tag) = some .unspecified
        ∧ ∀ u, u ≠ s.x .tag → t.sinkAt u = s.sinkAt u)
    ∧ (¬ (i = .write ∧ (t.err = 5 ∨ t.err = 6)) → t.chanOpen = s.chanOpen ∧ t.sink = s.sink)
    ∧ (¬ (i = .write ∧ t.err ≠ 7) → sameSink s t)

/-- The table of the spec's own inference R54: what a command writes. No command writes
`x[1] .. x[7]`; each buffer is written by the commands the table names. -/
def Obligations.CommandWriteSets : Prop :=
  ∀ (i : Instr) (s t : State), exec i s = .next t →
    (∀ r, t.x r ≠ s.x r → (i = .csum ∧ r = .clen) ∨ (i = .cat ∧ r = .dlen) ∨ (i = .map ∧ r = .plen))
    ∧ (∀ a, t.readByte a ≠ s.readByte a →
        (i = .csum ∧ 0x60 ≤ a ∧ a < 0x69) ∨ (i = .cat ∧ a < 0x20) ∨ (i = .map ∧ 0x20 ≤ a ∧ a < 0x40)
          ∨ ((i = .clrrow ∨ i = .place) ∧ 0x40 ≤ a ∧ a < 0x60))
    ∧ (t.v ≠ s.v → i = .valid ∧ t.err = 0)
    ∧ (t.chanOpen ≠ s.chanOpen → i = .write)
    ∧ (¬ sameSink s t → i = .write)
    ∧ (t.emitted ≠ s.emitted → t.err = 0 ∧ ∃ r, t.emitted = s.emitted ++ [r])

/-- The table of the spec's own inference R54: a command depends on nothing but what the table says it reads. -/
def Obligations.CommandReadSets : Prop :=
  ∀ (i : Instr) (s t s' t' : State), readsAgree i s t → exec i s = .next s' → exec i t = .next t' →
    writesAgree i s s' t t'

/-- R26: no command reads `ERR` or `V`; every command writes `ERR`; `V` is written only by a `VALID` that ends with success. -/
def Obligations.FlagsNotReadByCommands : Prop :=
  ∀ (s t : State) (w : Word) (rest : List Input) (e : BitVec 4) (b : Bool), s.inputs = .txn (.wr 15 w) :: rest →
    step s = .next t →
    (w = 0x00000001 ∧ t.err = 0 → step { s with err := e, v := b } = .next t)
    ∧ (¬ (w = 0x00000001 ∧ t.err = 0) → t.v = s.v ∧ step { s with err := e, v := b } = .next { t with v := b })

/-! ## The checksum engine -/

/-- R111: the reversed value, and what the reversal does to zeros at the two ends. -/
def Obligations.ReversedValueWeights : Prop :=
  ∀ s : List Byte, s ≠ [] → (∀ c ∈ s, digitByte c) →
    reversedValue s = ∑ i ∈ Finset.range s.length, digit (s.getD i 0x00) * 10 ^ i
    ∧ reversedValue (s ++ [0x30]) = reversedValue s
    ∧ reversedValue (0x30 :: s) = 10 * reversedValue s

/-- R86: fixed-width decimal text, by the formula and as the unpadded decimal text with `'0'` on its left. -/
def Obligations.DecimalTextIsPaddedText : Prop :=
  ∀ n c : Nat, 1 ≤ n → c < 10 ^ n →
    (decText n c).length = n
    ∧ (∀ j < n, (decText n c)[j]? = some (chr (c / 10 ^ (n - 1 - j) % 10)))
    ∧ decText n c = List.replicate (n - (max 1 (Nat.digits 10 c).length)) 0x30
        ++ (if c = 0 then [0x30] else (Nat.digits 10 c).reverse.map chr)

/-- R85, R86: reading back the text of a number gives the number. -/
def Obligations.DecimalTextReadsBack : Prop :=
  ∀ n c : Nat, 1 ≤ n → c < 10 ^ n → num (decText n c) = c

/-- The spec's own inference R115: the digit-serial form computes the same result, and stops early exactly when the value
overflows; where it does not, the accumulator ends at the value. (Of the empty string and of non-digits this speaks of the
model's own values, log 21.) -/
def Obligations.DigitSerialFormAgrees : Prop :=
  ∀ (vmax : Nat) (s : List Byte) (m n : Nat),
    checksumSerial vmax s m n = checksum vmax s m n
    ∧ (accumulate vmax 0 s.reverse = none ↔ vmax < reversedValue s)
    ∧ (reversedValue s ≤ vmax → accumulate vmax 0 s.reverse = some (reversedValue s))

/-- R114: for every integer range the spec allows (`VMAX >= 10^9`), NumericOverflow is decided by the value and by nothing else. -/
def Obligations.OverflowDecidedByValue : Prop :=
  ∀ (vmax : Nat) (s : State), 10 ^ 9 ≤ vmax → ¬ csumRangeFails vmax s → allDigits s →
    ∃ t, csumWith vmax s = .next t ∧ (t.err = 2 ↔ vmax < stringValue s) ∧ (t.err = 0 ↔ stringValue s ≤ vmax)
      ∧ (s.xNat .dlen ≤ 9 → t.err = 0)

/-- R117: every `CSUM` that succeeds leaves exactly `OUTLEN` digit characters. -/
def Obligations.ChecksumHasOutlenDigits : Prop :=
  ∀ s t : State, exec .csum s = .next t → t.err = 0 →
    t.x .clen = s.x .outlen ∧ 1 ≤ t.xNat .clen ∧ t.xNat .clen ≤ 9 ∧ ∀ j < t.xNat .clen, digitByte (t.cbuf j)

/-! ## The pattern encoder -/

/-- R87: the ten patterns of its table, read as `GROM` in every state (R34). That bit 3 of each is clear (R89), that none is `0x00`
(R133 case f) and that no two are equal (the end of R188) are the spec's own inferences from R87, which it marks so. -/
def Obligations.GlyphTableConstant : Prop :=
  (∀ s : State, gromConstant s)
  ∧ (∀ d < 10, (glyph d).getLsbD 3 = false ∧ glyph d ≠ 0x00)
  ∧ ∀ d < 10, ∀ e < 10, glyph d = glyph e → d = e

/-- The spec's own inference R135: mapping is character by character: of two strings joined, the results joined, and a failure
of either part fails the whole. -/
def Obligations.MappingIsLaneByLane : Prop :=
  ∀ a b : List Byte,
    (∀ p q, mapDigits a = .ok p → mapDigits b = .ok q → p.length = a.length ∧ mapDigits (a ++ b) = .ok (p ++ q))
    ∧ ((∃ c ∈ a ++ b, ¬ digitByte c) ↔ mapDigits (a ++ b) = .error .unmappableCharacter)

/-! ## The raster serializer -/

/-- From R161: exactly when a `WRITE` is accepted for serialization, and the shapes that leaves; otherwise nothing is emitted. -/
def Obligations.WritePreconditions : Prop :=
  ∀ s t : State, exec .write s = .next t →
    (t.err ≠ 7 ↔ 1 ≤ s.xNat .width ∧ 1 ≤ s.xNat .height ∧ s.xNat .height * ((s.xNat .width + 7) / 8) ≤ 32)
    ∧ (t.err ≠ 7 → s.xNat .width ≤ 256 ∧ s.xNat .height ≤ 32)
    ∧ (t.err = 7 → sameSink s t)

/-- R166, R167, R60: every pixel position of an emitted row, padding included, is the opposite of the bit in `ROW`. -/
def Obligations.EmittedPixelsInverted : Prop :=
  ∀ s t : State, exec .write s = .next t → t.err = 0 →
    ∃ r, t.emitted = s.emitted ++ [r] ∧ r.rows.length = s.xNat .height
      ∧ ∀ k < s.xNat .height, ∃ row, r.rows[k]? = some row
        ∧ ∀ p < 8 * ((s.xNat .width + 7) / 8),
          pixel row p = !(s.row (k * ((s.xNat .width + 7) / 8) + p / 8)).getLsbD (7 - p % 8)

/-- R170, R171: `WRITE` changes no byte, and the channel is closed on every path; no other command touches `OPEN`. -/
def Obligations.ChannelClosedOnEveryPath : Prop :=
  ∀ (i : Instr) (s t : State), exec i s = .next t →
    (i = .write → (s.chanOpen = false → t.chanOpen = false) ∧ (t.err = 0 ∨ t.err = 5 ∨ t.err = 6 → t.chanOpen = false)
      ∧ sameBytes s t)
    ∧ (i ≠ .write → t.chanOpen = s.chanOpen)

/-- R173: two accepted `WRITE`s with equal inputs emit equal records, so equal files in every container. -/
def Obligations.EqualWritesEmitEqualRecords : Prop :=
  ∀ (s s' t t' : State) (c : Container), exec .write s = .next t → t.err = 0 → exec .write s' = .next t' → t'.err = 0 →
    s'.x .width = s.x .width → s'.x .height = s.x .height → s'.x .tag = s.x .tag →
    (∀ k < s.xNat .height * ((s.xNat .width + 7) / 8), s'.row k = s.row k) →
    ∃ r r', t.emitted = s.emitted ++ [r] ∧ t'.emitted = s'.emitted ++ [r'] ∧ r' = r ∧ fileOf c r' = fileOf c r

/-- R174: what a conforming reader reports of the file of the reference image. -/
def Obligations.ReaderRecoversHeader : Prop :=
  ∀ (s t : State) (c : Container), exec .write s = .next t → t.err = 0 → s.xNat .width = 256 → s.xNat .height = 1 →
    ∃ r, t.emitted = s.emitted ++ [r] ∧ c.read (fileOf c r) = some ⟨256, 1, .one, .gray⟩

/-- R199: a failed `WRITE` can be issued again: the retry draws a fresh response and, if accepted, emits the same record. -/
def Obligations.RetrySerializesSameRecord : Prop :=
  ∀ s t : State, exec .write s = .next t → (t.err = 4 ∨ t.err = 5 ∨ t.err = 6) → t.nextResponse = .accepted →
    ∃ u r, exec .write t = .next u ∧ u.err = 0 ∧ isRecordOf s r ∧ u.emitted = s.emitted ++ [r]
      ∧ u.sinkAt (s.x .tag) = some (.record r) ∧ u.draws = t.draws + 1

/-- From R77: what crosses the sink port during a `WRITE`, phase by phase; nothing crosses it in any other step of a command. That a
refused row is one mark, and that no close follows a refused open, is the model's choice (log 10). -/
def Obligations.SinkPortTraffic : Prop :=
  (∀ (i : Instr) (s t : State), exec i s = .next t → (i ≠ .write ∨ t.err = 7) → t.sinkPort = s.sinkPort)
  ∧ ∀ s t : State, exec .write s = .next t → t.err ≠ 7 →
    ∃ r, isRecordOf s r
      ∧ (t.err = 4 → t.sinkPort = s.sinkPort ++ [.openRequest r.tag])
      ∧ (t.err = 5 → t.sinkPort = s.sinkPort ++ [.openRequest r.tag, .header r.header, .close])
      ∧ (t.err = 6 → t.sinkPort = s.sinkPort ++ [.openRequest r.tag, .header r.header, .rowsRefused, .close])
      ∧ (t.err = 0 → t.sinkPort = s.sinkPort ++ [.openRequest r.tag, .header r.header, .rows r.rows, .close])

/-! ## The host port -/

/-- R22, R24, R27: a host register write stores in `x[0] .. x[7]` and has no effect at numbers 8 to 14. -/
def Obligations.HostRegisterWrite : Prop :=
  ∀ (s : State) (n : Fin 16) (w : Word) (rest : List Input), s.inputs = .txn (.wr n w) :: rest → n.val < 15 →
    ∃ t, step s = .next t ∧ t.inputs = rest
      ∧ (∀ r, t.x r = if r.number.val = n.val ∧ n.val < 8 then w else s.x r)
      ∧ sameBytes s t ∧ t.err = s.err ∧ t.v = s.v ∧ t.chanOpen = s.chanOpen ∧ sameSink s t ∧ t.replies = s.replies

/-- From R22, R24, R25, R27: a host register read returns the value held, with no side effect; `STATUS` has its fields in their places;
reads of 10 to 13 and of `CMD` are refused (log 7). -/
def Obligations.HostRegisterRead : Prop :=
  ∀ (s : State) (n : Fin 16) (rest : List Input), s.inputs = .txn (.rd n) :: rest →
    (∀ r : OpReg, r.number.val = n.val →
      step s = .next { s with inputs := rest, replies := s.replies ++ [.reg (s.x r)] })
    ∧ (n.val = 14 → ∃ w : Word, step s = .next { s with inputs := rest, replies := s.replies ++ [.reg w] }
        ∧ w.extractLsb' 0 4 = s.err ∧ w.getLsbD 4 = s.v ∧ w.getLsbD 5 = s.chanOpen ∧ w.extractLsb' 6 26 = 0)
    ∧ (10 ≤ n.val → n.val ≤ 13 → step s = .refused (.readReservedRegister n))
    ∧ (n.val = 15 → step s = .refused .readCommandRegister)

/-- R55 to R57, R76: a host byte write stores in `DBUF` and `ROW` and has no effect anywhere else. -/
def Obligations.HostByteWrite : Prop :=
  ∀ (s : State) (a : Fin 256) (b : Byte) (rest : List Input), s.inputs = .txn (.wb a b) :: rest →
    ∃ t, step s = .next t ∧ t.inputs = rest
      ∧ (∀ c, t.readByte c = if c = a.val ∧ (a.val < 0x20 ∨ (0x40 ≤ a.val ∧ a.val < 0x60)) then b else s.readByte c)
      ∧ sameRegsBut [] s t ∧ t.err = s.err ∧ t.v = s.v ∧ t.chanOpen = s.chanOpen ∧ sameSink s t ∧ t.replies = s.replies

/-- R55, R56, R76: a host byte read returns the byte of the region its address lies in, by the map of rule R55; a read of a
reserved address is refused (log 7). -/
def Obligations.HostByteRead : Prop :=
  ∀ (s : State) (a : Fin 256) (rest : List Input), s.inputs = .txn (.rb a) :: rest →
    (∀ b : Byte,
      ((a.val < 0x20 ∧ b = s.dbuf a.val) ∨ (0x20 ≤ a.val ∧ a.val < 0x40 ∧ b = s.pbuf (a.val - 0x20))
        ∨ (0x40 ≤ a.val ∧ a.val < 0x60 ∧ b = s.row (a.val - 0x40)) ∨ (0x60 ≤ a.val ∧ a.val < 0x69 ∧ b = s.cbuf (a.val - 0x60))
        ∨ (0x70 ≤ a.val ∧ a.val < 0x7A ∧ b = s.grom (a.val - 0x70))) →
      step s = .next { s with inputs := rest, replies := s.replies ++ [.byte b] })
    ∧ ((0x69 ≤ a.val ∧ a.val < 0x70) ∨ 0x7A ≤ a.val → step s = .refused (.readReservedAddress a))

/-- The spec's own inference R71: a read returns the latest write, for every writable location of the host port. -/
def Obligations.ReadReturnsLatestWrite : Prop :=
  (∀ (s : State) (a : Fin 256) (b : Byte), a.val < 0x20 ∨ (0x40 ≤ a.val ∧ a.val < 0x60) →
    ∃ t, issueAll [.wb a b, .rb a] s = .next t ∧ t.replies = s.replies ++ [.byte b])
  ∧ ∀ (s : State) (n : Fin 16) (w : Word), n.val < 8 →
    ∃ t, issueAll [.wr n w, .rd n] s = .next t ∧ t.replies = s.replies ++ [.reg w]

/-- R65: writing the same value to a location twice equals writing it once. -/
def Obligations.RepeatedWriteEqualsOne : Prop :=
  (∀ (s : State) (a : Fin 256) (b : Byte), issueAll [.wb a b, .wb a b] s = issueAll [.wb a b] s)
  ∧ ∀ (s : State) (n : Fin 16) (w : Word), n.val < 15 → issueAll [.wr n w, .wr n w] s = issueAll [.wr n w] s

/-! ## Reset and invariants -/

/-- R40: the values after reset. -/
def Obligations.ResetValues : Prop :=
  (∀ r, State.reset.x r = 0) ∧ State.reset.statusWord = 0 ∧ State.reset.err = 0 ∧ State.reset.v = false
    ∧ State.reset.chanOpen = false ∧ (∀ i < 32, State.reset.dbuf i = 0x00) ∧ (∀ j < 9, State.reset.cbuf j = 0x00)
    ∧ (∀ k < 32, State.reset.pbuf k = 0x00) ∧ (∀ i < 32, State.reset.row i = 0x00) ∧ gromConstant State.reset

/-- R220, R40: the reset event, from any state: the core's state to its reset values, the sink's store and everything else of the
environment as it was. -/
def Obligations.ResetEvent : Prop :=
  ∀ (s : State) (rest : List Input), s.inputs = .reset :: rest →
    ∃ t, step s = .next t ∧ t.inputs = rest ∧ (∀ r, t.x r = 0) ∧ t.statusWord = 0
      ∧ (∀ a < 0x69, t.readByte a = 0x00) ∧ t.chanOpen = false ∧ gromConstant t ∧ sameSink s t
      ∧ t.replies = s.replies

/-- The spec's own inference R223: the first command after reset, each of the seven. -/
def Obligations.FirstCommandAfterReset : Prop :=
  (∃ t, exec .valid State.reset = .next t ∧ t.err = 0 ∧ t.v = true)
  ∧ (∃ t, exec .csum State.reset = .next t ∧ t.err = 7) ∧ (∃ t, exec .cat State.reset = .next t ∧ t.err = 7)
  ∧ (∃ t, exec .map State.reset = .next t ∧ t.err = 0 ∧ t.x .plen = 0)
  ∧ (∃ t, exec .clrrow State.reset = .next t ∧ t.err = 0) ∧ (∃ t, exec .place State.reset = .next t ∧ t.err = 7)
  ∧ ∃ t, exec .write State.reset = .next t ∧ t.err = 7

/-- The spec's own inference R39: the invariants hold after reset. -/
def Obligations.InvariantHoldsAtReset : Prop := Inv State.reset

/-- The spec's own inference R39: every step keeps the invariants, whatever the input and whatever the sink answers. -/
def Obligations.InvariantKeptByEveryStep : Prop :=
  ∀ s t : State, Inv s → step s = .next t → Inv t

/-- The canonical forms of the buffers' list and of the sink's store (the model's own convention, log 5): they hold at reset and
every step keeps them. -/
def Obligations.StorageStaysCanonical : Prop :=
  Canonical State.reset ∧ ∀ s t : State, Canonical s → step s = .next t → Canonical t

/-- Two canonical memories that read alike are equal (the model's own convention, log 5). -/
def Obligations.CanonicalMemoriesAreEqual : Prop :=
  ∀ m m' : Memory, Memory.wf m = true → Memory.wf m' = true → (∀ a, Memory.read m a = Memory.read m' a) → m = m'

/-- R53, R37: the output stream only grows, by one record at a time, and only at a `WRITE` command the sink accepts. -/
def Obligations.OutputStreamGrowsByAcceptedWrites : Prop :=
  ∀ s t : State, step s = .next t →
    t.emitted = s.emitted
    ∨ ∃ rest r, s.inputs = .txn (.wr 15 0x00000007) :: rest ∧ s.nextResponse = .accepted ∧ isRecordOf s r
        ∧ t.emitted = s.emitted ++ [r] ∧ t.sinkAt (s.x .tag) = some (.record r)

/-! ## The reference pipeline -/

/-- R98: each source call, made by the host as its row of the table says, computes the source function: what `RD STATUS` returns and,
"if `ERR = 0`", the bytes read back are the function's result. For every argument that can be loaded; out of range the answer is
ParamError (R192). The fourth clause speaks of a buffer of at least the image's bytes (R161). -/
def Obligations.SourceCallsComputeTheirFunctions : Prop :=
  (∀ (s : State) (id : List Byte) (e : Nat), id.length ≤ 32 → e < 2 ^ 32 →
    ∃ t w, runCall (callValidate id e) s = .next (t, .answered w []) ∧ t.replies = s.replies ++ [.reg w] ∧ statusErr w = 0
      ∧ statusV w = validateId id e)
  ∧ (∀ (s : State) (id : List Byte) (m n : Nat), id.length ≤ 32 → m < 2 ^ 32 → n < 2 ^ 32 →
    ∃ t w l, runCall (callChecksum id m n) s = .next (t, .answered w l)
      ∧ t.replies = s.replies ++ .reg w :: l.map HostReply.byte
      ∧ (id = [] ∨ m = 0 ∨ n = 0 ∨ 9 < n → statusErr w = 7 ∧ l = [])
      ∧ (id ≠ [] → 1 ≤ m → 1 ≤ n → n ≤ 9 →
          (∀ r, checksum 4294967295 id m n = .ok r → statusErr w = 0 ∧ l = r)
          ∧ ∀ e, checksum 4294967295 id m n = .error e → statusErr w = errNumber e ∧ l = []))
  ∧ (∀ (s : State) (d : List Byte), d.length ≤ 32 →
    ∃ t w l, runCall (callMapDigits d) s = .next (t, .answered w l)
      ∧ t.replies = s.replies ++ .reg w :: l.map HostReply.byte
      ∧ (∀ r, mapDigits d = .ok r → statusErr w = 0 ∧ l = r)
      ∧ ∀ e, mapDigits d = .error e → statusErr w = errNumber e ∧ l = [])
  ∧ ∀ (s : State) (tag : Word) (w h : Nat) (b : List Byte), b.length ≤ 32 → w < 2 ^ 32 → h < 2 ^ 32 →
    ∃ t u, runCall (callWriteRaster tag w h b) s = .next (t, .answered u []) ∧ t.replies = s.replies ++ [.reg u]
      ∧ (w = 0 ∨ h = 0 ∨ 32 < h * ((w + 7) / 8) → statusErr u = 7 ∧ t.emitted = s.emitted)
      ∧ (1 ≤ w → 1 ≤ h → h * ((w + 7) / 8) ≤ b.length →
          (s.nextResponse = .accepted → statusErr u = 0 ∧ t.emitted = s.emitted ++ [serialize w h b tag])
          ∧ (s.nextResponse = .openFailed → statusErr u = 4 ∧ t.emitted = s.emitted)
          ∧ (s.nextResponse = .initFailed → statusErr u = 5 ∧ t.emitted = s.emitted)
          ∧ (s.nextResponse = .rowFailed → statusErr u = 6 ∧ t.emitted = s.emitted))

/-- The end of R98: a string longer than `DCAP` and a buffer longer than `ROWCAP` cannot be loaded. That the call then issues nothing,
that a number of more than 32 bits cannot be loaded either, and that `ENCODE` with such a modulus stops before `WR MODULUS`, is the
model's choice (log 23); every other call gets an answer. -/
def Obligations.UnloadableArgumentsIssueNothing : Prop :=
  (∀ (s : State) (id : List Byte) (e : Nat),
    runCall (callValidate id e) s = .next (s, .notLoadable) ↔ 32 < id.length ∨ 2 ^ 32 ≤ e)
  ∧ (∀ (s : State) (id : List Byte) (m n : Nat),
    runCall (callChecksum id m n) s = .next (s, .notLoadable) ↔ 32 < id.length ∨ 2 ^ 32 ≤ m ∨ 2 ^ 32 ≤ n)
  ∧ (∀ (s : State) (d : List Byte), runCall (callMapDigits d) s = .next (s, .notLoadable) ↔ 32 < d.length)
  ∧ (∀ (s : State) (tag : Word) (w h : Nat) (b : List Byte),
    runCall (callWriteRaster tag w h b) s = .next (s, .notLoadable) ↔ 32 < b.length ∨ 2 ^ 32 ≤ w ∨ 2 ^ 32 ≤ h)
  ∧ ∀ (s : State) (id : List Byte) (m : Nat), id.length = 4 → (∀ c ∈ id, digitByte c) → 2 ^ 32 ≤ m →
    ∃ t, encodeId id m s = .next (t, .notLoadable) ∧ t.x .modulus = s.x .modulus ∧ sameSink s t

/-- R94: the tag of a four-character ID, and that distinct IDs have distinct tags. -/
def Obligations.TagsDetermineIds : Prop :=
  (∀ a b c d : Byte, idTag [a, b, c, d] = a.toNat * 2 ^ 24 + b.toNat * 2 ^ 16 + c.toNat * 2 ^ 8 + d.toNat)
  ∧ ∀ p q : List Byte, p.length = 4 → q.length = 4 → idTag p = idTag q → p = q

/-- R186 step 5: `ENCODE` of a candidate that is not four digit characters is rejected, and nothing reaches the sink. -/
def Obligations.EncodeRejectsMalformedIds : Prop :=
  ∀ (s : State) (id : List Byte) (m : Nat), (id.length ≠ 4 ∨ ∃ c ∈ id, ¬ digitByte c) →
    ∃ t, encodeId id m s = .next (t, .rejected) ∧ sameSink s t

/-- R188, with the spec's own inferences that nothing but the sink can fail (R187) and that equal rows mean equal IDs (end of
R188): `ENCODE` of four digit characters, with any modulus in `1 .. VMAX`: the row it leaves, and for an accepting
sink the record it emits; for the other responses the sink's error and no record. -/
def Obligations.EncodeReferenceArtifact : Prop :=
  ∀ (s : State) (d0 d1 d2 d3 : Byte) (m : Nat), 1 ≤ m → m ≤ 4294967295 →
    digitByte d0 → digitByte d1 → digitByte d2 → digitByte d3 →
    ∃ t res c0 c1, encodeId [d0, d1, d2, d3] m s = .next (t, res)
      ∧ checksum 4294967295 [d0, d1, d2, d3] m 2 = .ok [c0, c1]
      ∧ t.row 0 = 0x00 ∧ t.row 1 = s.grom (c0.toNat - 0x30) ∧ t.row 2 = s.grom (c1.toNat - 0x30)
      ∧ t.row 3 = s.grom (d0.toNat - 0x30) ∧ t.row 4 = s.grom (d1.toNat - 0x30) ∧ t.row 5 = s.grom (d2.toNat - 0x30)
      ∧ t.row 6 = s.grom (d3.toNat - 0x30) ∧ (∀ i < 32, 7 ≤ i → t.row i = 0x00)
      ∧ t.xNat .tag = d0.toNat * 2 ^ 24 + d1.toNat * 2 ^ 16 + d2.toNat * 2 ^ 8 + d3.toNat
      ∧ t.xNat .width = 256 ∧ t.xNat .height = 1
      ∧ (s.nextResponse = .accepted → res = .success ∧ ∃ r, isRecordOf t r ∧ t.emitted = s.emitted ++ [r])
      ∧ (s.nextResponse = .openFailed → res = .failed 4 ∧ t.emitted = s.emitted)
      ∧ (s.nextResponse = .initFailed → res = .failed 5 ∧ t.emitted = s.emitted)
      ∧ (s.nextResponse = .rowFailed → res = .failed 6 ∧ t.emitted = s.emitted)
      ∧ ∀ e0 e1 e2 e3 : Byte, digitByte e0 → digitByte e1 → digitByte e2 → digitByte e3 →
          t.row 3 = s.grom (e0.toNat - 0x30) → t.row 4 = s.grom (e1.toNat - 0x30) → t.row 5 = s.grom (e2.toNat - 0x30) →
          t.row 6 = s.grom (e3.toNat - 0x30) → [e0, e1, e2, e3] = [d0, d1, d2, d3]
end

