-- ==== Sys2Proof/Laws/Config.lean ====
section
/-! SUPPORT. The values of the parameters of rule R7 and of the buffer map of rule R55, for simp and omega. -/

namespace Sys2Proof

@[simp] theorem Config.idLen_eq : Config.idLen = 4 := rfl
@[simp] theorem Config.wRef_eq : Config.wRef = 256 := rfl
@[simp] theorem Config.hRef_eq : Config.hRef = 1 := rfl
@[simp] theorem Config.rowCap_eq : Config.rowCap = 32 := rfl
@[simp] theorem Config.glyphOffset_eq : Config.glyphOffset = 1 := rfl
@[simp] theorem Config.nGlyph_eq : Config.nGlyph = 6 := rfl
@[simp] theorem Config.outLenRef_eq : Config.outLenRef = 2 := rfl
@[simp] theorem Config.modRef_eq : Config.modRef = 97 := rfl
@[simp] theorem Config.nSeg_eq : Config.nSeg = 7 := rfl
@[simp] theorem Config.dCap_eq : Config.dCap = 32 := rfl
@[simp] theorem Config.pCap_eq : Config.pCap = 32 := rfl
@[simp] theorem Config.cCap_eq : Config.cCap = 9 := rfl
@[simp] theorem Config.vmax_eq : Config.vmax = 4294967295 := rfl
@[simp] theorem Buffer.dbuf_base : Buffer.dbuf.base = 0 := rfl
@[simp] theorem Buffer.dbuf_cap : Buffer.dbuf.cap = 32 := rfl
@[simp] theorem Buffer.pbuf_base : Buffer.pbuf.base = 32 := rfl
@[simp] theorem Buffer.pbuf_cap : Buffer.pbuf.cap = 32 := rfl
@[simp] theorem Buffer.row_base : Buffer.row.base = 64 := rfl
@[simp] theorem Buffer.row_cap : Buffer.row.cap = 32 := rfl
@[simp] theorem Buffer.cbuf_base : Buffer.cbuf.base = 96 := rfl
@[simp] theorem Buffer.cbuf_cap : Buffer.cbuf.cap = 9 := rfl
@[simp] theorem Buffer.grom_base : Buffer.grom.base = 112 := rfl
@[simp] theorem Buffer.grom_cap : Buffer.grom.cap = 10 := rfl

/-- The default `VMAX` meets the constraint of rule R7. -/
theorem Config.vmax_legal : Config.vmaxLegal Config.vmax := by decide

/-- The address of the last byte of every buffer lies inside the buffer space (R55). -/
theorem Buffer.base_add_cap_le (b : Buffer) : b.base + b.cap ≤ 0x7A := by cases b <;> decide

end Sys2Proof
end

