-- ==== Sys2Proof/Laws/State.lean ====
section
/-! SUPPORT. One lemma per field per update of State, true by rfl, so that no later proof unfolds a record update. -/

namespace Sys2Proof.Machine

/-! ## `setErr` -/

@[simp] theorem State.setErr_regs (s : State) (e : BitVec 4) : (s.setErr e).regs = s.regs := rfl
@[simp] theorem State.setErr_err (s : State) (e : BitVec 4) : (s.setErr e).err = e := rfl
@[simp] theorem State.setErr_v (s : State) (e : BitVec 4) : (s.setErr e).v = s.v := rfl
@[simp] theorem State.setErr_chanOpen (s : State) (e : BitVec 4) : (s.setErr e).chanOpen = s.chanOpen := rfl
@[simp] theorem State.setErr_mem (s : State) (e : BitVec 4) : (s.setErr e).mem = s.mem := rfl
@[simp] theorem State.setErr_sink (s : State) (e : BitVec 4) : (s.setErr e).sink = s.sink := rfl
@[simp] theorem State.setErr_emitted (s : State) (e : BitVec 4) : (s.setErr e).emitted = s.emitted := rfl
@[simp] theorem State.setErr_sinkPort (s : State) (e : BitVec 4) : (s.setErr e).sinkPort = s.sinkPort := rfl
@[simp] theorem State.setErr_inputs (s : State) (e : BitVec 4) : (s.setErr e).inputs = s.inputs := rfl
@[simp] theorem State.setErr_replies (s : State) (e : BitVec 4) : (s.setErr e).replies = s.replies := rfl
@[simp] theorem State.setErr_sinkAnswers (s : State) (e : BitVec 4) : (s.setErr e).sinkAnswers = s.sinkAnswers := rfl
@[simp] theorem State.setErr_draws (s : State) (e : BitVec 4) : (s.setErr e).draws = s.draws := rfl

/-! ## `setV` -/

@[simp] theorem State.setV_regs (s : State) (b : Bool) : (s.setV b).regs = s.regs := rfl
@[simp] theorem State.setV_err (s : State) (b : Bool) : (s.setV b).err = s.err := rfl
@[simp] theorem State.setV_v (s : State) (b : Bool) : (s.setV b).v = b := rfl
@[simp] theorem State.setV_chanOpen (s : State) (b : Bool) : (s.setV b).chanOpen = s.chanOpen := rfl
@[simp] theorem State.setV_mem (s : State) (b : Bool) : (s.setV b).mem = s.mem := rfl
@[simp] theorem State.setV_sink (s : State) (b : Bool) : (s.setV b).sink = s.sink := rfl
@[simp] theorem State.setV_emitted (s : State) (b : Bool) : (s.setV b).emitted = s.emitted := rfl
@[simp] theorem State.setV_sinkPort (s : State) (b : Bool) : (s.setV b).sinkPort = s.sinkPort := rfl
@[simp] theorem State.setV_inputs (s : State) (b : Bool) : (s.setV b).inputs = s.inputs := rfl
@[simp] theorem State.setV_replies (s : State) (b : Bool) : (s.setV b).replies = s.replies := rfl
@[simp] theorem State.setV_sinkAnswers (s : State) (b : Bool) : (s.setV b).sinkAnswers = s.sinkAnswers := rfl
@[simp] theorem State.setV_draws (s : State) (b : Bool) : (s.setV b).draws = s.draws := rfl

/-! ## `storeBytes` -/

@[simp] theorem State.storeBytes_regs (s : State) (a : Nat) (l : List Byte) : (s.storeBytes a l).regs = s.regs := rfl
@[simp] theorem State.storeBytes_err (s : State) (a : Nat) (l : List Byte) : (s.storeBytes a l).err = s.err := rfl
@[simp] theorem State.storeBytes_v (s : State) (a : Nat) (l : List Byte) : (s.storeBytes a l).v = s.v := rfl
@[simp] theorem State.storeBytes_chanOpen (s : State) (a : Nat) (l : List Byte) : (s.storeBytes a l).chanOpen = s.chanOpen := rfl
@[simp] theorem State.storeBytes_mem (s : State) (a : Nat) (l : List Byte) : (s.storeBytes a l).mem = Memory.writeFrom s.mem a l := rfl
@[simp] theorem State.storeBytes_sink (s : State) (a : Nat) (l : List Byte) : (s.storeBytes a l).sink = s.sink := rfl
@[simp] theorem State.storeBytes_emitted (s : State) (a : Nat) (l : List Byte) : (s.storeBytes a l).emitted = s.emitted := rfl
@[simp] theorem State.storeBytes_sinkPort (s : State) (a : Nat) (l : List Byte) : (s.storeBytes a l).sinkPort = s.sinkPort := rfl
@[simp] theorem State.storeBytes_inputs (s : State) (a : Nat) (l : List Byte) : (s.storeBytes a l).inputs = s.inputs := rfl
@[simp] theorem State.storeBytes_replies (s : State) (a : Nat) (l : List Byte) : (s.storeBytes a l).replies = s.replies := rfl
@[simp] theorem State.storeBytes_sinkAnswers (s : State) (a : Nat) (l : List Byte) : (s.storeBytes a l).sinkAnswers = s.sinkAnswers := rfl
@[simp] theorem State.storeBytes_draws (s : State) (a : Nat) (l : List Byte) : (s.storeBytes a l).draws = s.draws := rfl

/-! ## `setX` -/

@[simp] theorem State.setX_regs (s : State) (r : OpReg) (w : Word) : (s.setX r w).regs = s.regs.set r.number w := rfl
@[simp] theorem State.setX_err (s : State) (r : OpReg) (w : Word) : (s.setX r w).err = s.err := rfl
@[simp] theorem State.setX_v (s : State) (r : OpReg) (w : Word) : (s.setX r w).v = s.v := rfl
@[simp] theorem State.setX_chanOpen (s : State) (r : OpReg) (w : Word) : (s.setX r w).chanOpen = s.chanOpen := rfl
@[simp] theorem State.setX_mem (s : State) (r : OpReg) (w : Word) : (s.setX r w).mem = s.mem := rfl
@[simp] theorem State.setX_sink (s : State) (r : OpReg) (w : Word) : (s.setX r w).sink = s.sink := rfl
@[simp] theorem State.setX_emitted (s : State) (r : OpReg) (w : Word) : (s.setX r w).emitted = s.emitted := rfl
@[simp] theorem State.setX_sinkPort (s : State) (r : OpReg) (w : Word) : (s.setX r w).sinkPort = s.sinkPort := rfl
@[simp] theorem State.setX_inputs (s : State) (r : OpReg) (w : Word) : (s.setX r w).inputs = s.inputs := rfl
@[simp] theorem State.setX_replies (s : State) (r : OpReg) (w : Word) : (s.setX r w).replies = s.replies := rfl
@[simp] theorem State.setX_sinkAnswers (s : State) (r : OpReg) (w : Word) : (s.setX r w).sinkAnswers = s.sinkAnswers := rfl
@[simp] theorem State.setX_draws (s : State) (r : OpReg) (w : Word) : (s.setX r w).draws = s.draws := rfl

/-! ## `sinkPut` -/

@[simp] theorem State.sinkPut_regs (s : State) (t : Word) (e : SinkEntry) : (s.sinkPut t e).regs = s.regs := rfl
@[simp] theorem State.sinkPut_err (s : State) (t : Word) (e : SinkEntry) : (s.sinkPut t e).err = s.err := rfl
@[simp] theorem State.sinkPut_v (s : State) (t : Word) (e : SinkEntry) : (s.sinkPut t e).v = s.v := rfl
@[simp] theorem State.sinkPut_chanOpen (s : State) (t : Word) (e : SinkEntry) : (s.sinkPut t e).chanOpen = s.chanOpen := rfl
@[simp] theorem State.sinkPut_mem (s : State) (t : Word) (e : SinkEntry) : (s.sinkPut t e).mem = s.mem := rfl
@[simp] theorem State.sinkPut_sink (s : State) (t : Word) (e : SinkEntry) : (s.sinkPut t e).sink = SinkStore.put s.sink t.toNat e := rfl
@[simp] theorem State.sinkPut_emitted (s : State) (t : Word) (e : SinkEntry) : (s.sinkPut t e).emitted = s.emitted := rfl
@[simp] theorem State.sinkPut_sinkPort (s : State) (t : Word) (e : SinkEntry) : (s.sinkPut t e).sinkPort = s.sinkPort := rfl
@[simp] theorem State.sinkPut_inputs (s : State) (t : Word) (e : SinkEntry) : (s.sinkPut t e).inputs = s.inputs := rfl
@[simp] theorem State.sinkPut_replies (s : State) (t : Word) (e : SinkEntry) : (s.sinkPut t e).replies = s.replies := rfl
@[simp] theorem State.sinkPut_sinkAnswers (s : State) (t : Word) (e : SinkEntry) : (s.sinkPut t e).sinkAnswers = s.sinkAnswers := rfl
@[simp] theorem State.sinkPut_draws (s : State) (t : Word) (e : SinkEntry) : (s.sinkPut t e).draws = s.draws := rfl

/-! ## `portSend` -/

@[simp] theorem State.portSend_regs (s : State) (e : SinkEvent) : (s.portSend e).regs = s.regs := rfl
@[simp] theorem State.portSend_err (s : State) (e : SinkEvent) : (s.portSend e).err = s.err := rfl
@[simp] theorem State.portSend_v (s : State) (e : SinkEvent) : (s.portSend e).v = s.v := rfl
@[simp] theorem State.portSend_chanOpen (s : State) (e : SinkEvent) : (s.portSend e).chanOpen = s.chanOpen := rfl
@[simp] theorem State.portSend_mem (s : State) (e : SinkEvent) : (s.portSend e).mem = s.mem := rfl
@[simp] theorem State.portSend_sink (s : State) (e : SinkEvent) : (s.portSend e).sink = s.sink := rfl
@[simp] theorem State.portSend_emitted (s : State) (e : SinkEvent) : (s.portSend e).emitted = s.emitted := rfl
@[simp] theorem State.portSend_sinkPort (s : State) (e : SinkEvent) : (s.portSend e).sinkPort = s.sinkPort ++ [e] := rfl
@[simp] theorem State.portSend_inputs (s : State) (e : SinkEvent) : (s.portSend e).inputs = s.inputs := rfl
@[simp] theorem State.portSend_replies (s : State) (e : SinkEvent) : (s.portSend e).replies = s.replies := rfl
@[simp] theorem State.portSend_sinkAnswers (s : State) (e : SinkEvent) : (s.portSend e).sinkAnswers = s.sinkAnswers := rfl
@[simp] theorem State.portSend_draws (s : State) (e : SinkEvent) : (s.portSend e).draws = s.draws := rfl

/-! ## `addEmitted` -/

@[simp] theorem State.addEmitted_regs (s : State) (r : RasterRecord) : (s.addEmitted r).regs = s.regs := rfl
@[simp] theorem State.addEmitted_err (s : State) (r : RasterRecord) : (s.addEmitted r).err = s.err := rfl
@[simp] theorem State.addEmitted_v (s : State) (r : RasterRecord) : (s.addEmitted r).v = s.v := rfl
@[simp] theorem State.addEmitted_chanOpen (s : State) (r : RasterRecord) : (s.addEmitted r).chanOpen = s.chanOpen := rfl
@[simp] theorem State.addEmitted_mem (s : State) (r : RasterRecord) : (s.addEmitted r).mem = s.mem := rfl
@[simp] theorem State.addEmitted_sink (s : State) (r : RasterRecord) : (s.addEmitted r).sink = s.sink := rfl
@[simp] theorem State.addEmitted_emitted (s : State) (r : RasterRecord) : (s.addEmitted r).emitted = s.emitted ++ [r] := rfl
@[simp] theorem State.addEmitted_sinkPort (s : State) (r : RasterRecord) : (s.addEmitted r).sinkPort = s.sinkPort := rfl
@[simp] theorem State.addEmitted_inputs (s : State) (r : RasterRecord) : (s.addEmitted r).inputs = s.inputs := rfl
@[simp] theorem State.addEmitted_replies (s : State) (r : RasterRecord) : (s.addEmitted r).replies = s.replies := rfl
@[simp] theorem State.addEmitted_sinkAnswers (s : State) (r : RasterRecord) : (s.addEmitted r).sinkAnswers = s.sinkAnswers := rfl
@[simp] theorem State.addEmitted_draws (s : State) (r : RasterRecord) : (s.addEmitted r).draws = s.draws := rfl

/-! ## `openChannel` -/

@[simp] theorem State.openChannel_regs (s : State) : s.openChannel.regs = s.regs := rfl
@[simp] theorem State.openChannel_err (s : State) : s.openChannel.err = s.err := rfl
@[simp] theorem State.openChannel_v (s : State) : s.openChannel.v = s.v := rfl
@[simp] theorem State.openChannel_chanOpen (s : State) : s.openChannel.chanOpen = true := rfl
@[simp] theorem State.openChannel_mem (s : State) : s.openChannel.mem = s.mem := rfl
@[simp] theorem State.openChannel_sink (s : State) : s.openChannel.sink = s.sink := rfl
@[simp] theorem State.openChannel_emitted (s : State) : s.openChannel.emitted = s.emitted := rfl
@[simp] theorem State.openChannel_sinkPort (s : State) : s.openChannel.sinkPort = s.sinkPort := rfl
@[simp] theorem State.openChannel_inputs (s : State) : s.openChannel.inputs = s.inputs := rfl
@[simp] theorem State.openChannel_replies (s : State) : s.openChannel.replies = s.replies := rfl
@[simp] theorem State.openChannel_sinkAnswers (s : State) : s.openChannel.sinkAnswers = s.sinkAnswers := rfl
@[simp] theorem State.openChannel_draws (s : State) : s.openChannel.draws = s.draws := rfl

/-! ## `closeChannel` -/

@[simp] theorem State.closeChannel_regs (s : State) : s.closeChannel.regs = s.regs := rfl
@[simp] theorem State.closeChannel_err (s : State) : s.closeChannel.err = s.err := rfl
@[simp] theorem State.closeChannel_v (s : State) : s.closeChannel.v = s.v := rfl
@[simp] theorem State.closeChannel_chanOpen (s : State) : s.closeChannel.chanOpen = false := rfl
@[simp] theorem State.closeChannel_mem (s : State) : s.closeChannel.mem = s.mem := rfl
@[simp] theorem State.closeChannel_sink (s : State) : s.closeChannel.sink = s.sink := rfl
@[simp] theorem State.closeChannel_emitted (s : State) : s.closeChannel.emitted = s.emitted := rfl
@[simp] theorem State.closeChannel_sinkPort (s : State) : s.closeChannel.sinkPort = s.sinkPort := rfl
@[simp] theorem State.closeChannel_inputs (s : State) : s.closeChannel.inputs = s.inputs := rfl
@[simp] theorem State.closeChannel_replies (s : State) : s.closeChannel.replies = s.replies := rfl
@[simp] theorem State.closeChannel_sinkAnswers (s : State) : s.closeChannel.sinkAnswers = s.sinkAnswers := rfl
@[simp] theorem State.closeChannel_draws (s : State) : s.closeChannel.draws = s.draws := rfl

/-! ## `reply` -/

@[simp] theorem State.reply_regs (s : State) (r : HostReply) : (s.reply r).regs = s.regs := rfl
@[simp] theorem State.reply_err (s : State) (r : HostReply) : (s.reply r).err = s.err := rfl
@[simp] theorem State.reply_v (s : State) (r : HostReply) : (s.reply r).v = s.v := rfl
@[simp] theorem State.reply_chanOpen (s : State) (r : HostReply) : (s.reply r).chanOpen = s.chanOpen := rfl
@[simp] theorem State.reply_mem (s : State) (r : HostReply) : (s.reply r).mem = s.mem := rfl
@[simp] theorem State.reply_sink (s : State) (r : HostReply) : (s.reply r).sink = s.sink := rfl
@[simp] theorem State.reply_emitted (s : State) (r : HostReply) : (s.reply r).emitted = s.emitted := rfl
@[simp] theorem State.reply_sinkPort (s : State) (r : HostReply) : (s.reply r).sinkPort = s.sinkPort := rfl
@[simp] theorem State.reply_inputs (s : State) (r : HostReply) : (s.reply r).inputs = s.inputs := rfl
@[simp] theorem State.reply_replies (s : State) (r : HostReply) : (s.reply r).replies = s.replies ++ [r] := rfl
@[simp] theorem State.reply_sinkAnswers (s : State) (r : HostReply) : (s.reply r).sinkAnswers = s.sinkAnswers := rfl
@[simp] theorem State.reply_draws (s : State) (r : HostReply) : (s.reply r).draws = s.draws := rfl

/-! ## `setInputs` -/

@[simp] theorem State.setInputs_regs (s : State) (l : List Input) : (s.setInputs l).regs = s.regs := rfl
@[simp] theorem State.setInputs_err (s : State) (l : List Input) : (s.setInputs l).err = s.err := rfl
@[simp] theorem State.setInputs_v (s : State) (l : List Input) : (s.setInputs l).v = s.v := rfl
@[simp] theorem State.setInputs_chanOpen (s : State) (l : List Input) : (s.setInputs l).chanOpen = s.chanOpen := rfl
@[simp] theorem State.setInputs_mem (s : State) (l : List Input) : (s.setInputs l).mem = s.mem := rfl
@[simp] theorem State.setInputs_sink (s : State) (l : List Input) : (s.setInputs l).sink = s.sink := rfl
@[simp] theorem State.setInputs_emitted (s : State) (l : List Input) : (s.setInputs l).emitted = s.emitted := rfl
@[simp] theorem State.setInputs_sinkPort (s : State) (l : List Input) : (s.setInputs l).sinkPort = s.sinkPort := rfl
@[simp] theorem State.setInputs_inputs (s : State) (l : List Input) : (s.setInputs l).inputs = l := rfl
@[simp] theorem State.setInputs_replies (s : State) (l : List Input) : (s.setInputs l).replies = s.replies := rfl
@[simp] theorem State.setInputs_sinkAnswers (s : State) (l : List Input) : (s.setInputs l).sinkAnswers = s.sinkAnswers := rfl
@[simp] theorem State.setInputs_draws (s : State) (l : List Input) : (s.setInputs l).draws = s.draws := rfl

/-! ## `emit` and `drawResponse` -/

@[simp] theorem State.emit_regs (s : State) (r : RasterRecord) : (s.emit r).regs = s.regs := rfl
@[simp] theorem State.emit_err (s : State) (r : RasterRecord) : (s.emit r).err = s.err := rfl
@[simp] theorem State.emit_v (s : State) (r : RasterRecord) : (s.emit r).v = s.v := rfl
@[simp] theorem State.emit_chanOpen (s : State) (r : RasterRecord) : (s.emit r).chanOpen = s.chanOpen := rfl
@[simp] theorem State.emit_mem (s : State) (r : RasterRecord) : (s.emit r).mem = s.mem := rfl
@[simp] theorem State.emit_sink (s : State) (r : RasterRecord) : (s.emit r).sink = SinkStore.put s.sink r.tag.toNat (.record r) := rfl
@[simp] theorem State.emit_emitted (s : State) (r : RasterRecord) : (s.emit r).emitted = s.emitted ++ [r] := rfl
@[simp] theorem State.emit_sinkPort (s : State) (r : RasterRecord) : (s.emit r).sinkPort = s.sinkPort := rfl
@[simp] theorem State.emit_inputs (s : State) (r : RasterRecord) : (s.emit r).inputs = s.inputs := rfl
@[simp] theorem State.emit_replies (s : State) (r : RasterRecord) : (s.emit r).replies = s.replies := rfl
@[simp] theorem State.emit_sinkAnswers (s : State) (r : RasterRecord) : (s.emit r).sinkAnswers = s.sinkAnswers := rfl
@[simp] theorem State.emit_draws (s : State) (r : RasterRecord) : (s.emit r).draws = s.draws := rfl
@[simp] theorem State.drawResponse_regs (s : State) : s.drawResponse.regs = s.regs := rfl
@[simp] theorem State.drawResponse_err (s : State) : s.drawResponse.err = s.err := rfl
@[simp] theorem State.drawResponse_v (s : State) : s.drawResponse.v = s.v := rfl
@[simp] theorem State.drawResponse_chanOpen (s : State) : s.drawResponse.chanOpen = s.chanOpen := rfl
@[simp] theorem State.drawResponse_mem (s : State) : s.drawResponse.mem = s.mem := rfl
@[simp] theorem State.drawResponse_sink (s : State) : s.drawResponse.sink = s.sink := rfl
@[simp] theorem State.drawResponse_emitted (s : State) : s.drawResponse.emitted = s.emitted := rfl
@[simp] theorem State.drawResponse_sinkPort (s : State) : s.drawResponse.sinkPort = s.sinkPort := rfl
@[simp] theorem State.drawResponse_inputs (s : State) : s.drawResponse.inputs = s.inputs := rfl
@[simp] theorem State.drawResponse_replies (s : State) : s.drawResponse.replies = s.replies := rfl
@[simp] theorem State.drawResponse_sinkAnswers (s : State) : s.drawResponse.sinkAnswers = s.sinkAnswers.tail := rfl
@[simp] theorem State.drawResponse_draws (s : State) : s.drawResponse.draws = s.draws + 1 := rfl

/-! ## Two updates of one field -/

@[simp] theorem State.setInputs_setInputs (s : State) (l k : List Input) : (s.setInputs l).setInputs k = s.setInputs k := rfl
@[simp] theorem State.setInputs_self (s : State) : s.setInputs s.inputs = s := rfl
@[simp] theorem State.setErr_setErr (s : State) (e f : BitVec 4) : (s.setErr e).setErr f = s.setErr f := rfl

/-! ## The register file -/

theorem OpReg.number_injective {a b : OpReg} (h : a.number = b.number) : a = b := by
  cases a <;> cases b <;> first | rfl | exact absurd h (by decide)

/-- What reads see depends on the register file only. -/
theorem State.x_of_regs {s t : State} (h : t.regs = s.regs) (r : OpReg) : t.x r = s.x r := by simp [State.x, h]

@[simp] theorem State.x_setX_same (s : State) (r : OpReg) (w : Word) : (s.setX r w).x r = w := by
  simp [State.x, State.setX]

theorem State.x_setX_ne (s : State) {r q : OpReg} (w : Word) (h : q ≠ r) : (s.setX r w).x q = s.x q := by
  have hn : r.number.val ≠ q.number.val := fun e => h (OpReg.number_injective (Fin.ext e)).symm
  simp [State.x, State.setX, Vector.getElem_set_ne, hn]

/-- Reading any register after a write of one: the one written, or as before. -/
theorem State.x_setX (s : State) (r q : OpReg) (w : Word) : (s.setX r w).x q = if q = r then w else s.x q := by
  by_cases h : q = r
  · subst h; simp
  · simp [h, State.x_setX_ne]

@[simp] theorem State.x_setErr (s : State) (e : BitVec 4) (q : OpReg) : (s.setErr e).x q = s.x q := rfl
@[simp] theorem State.x_setV (s : State) (b : Bool) (q : OpReg) : (s.setV b).x q = s.x q := rfl
@[simp] theorem State.x_storeBytes (s : State) (a : Nat) (l : List Byte) (q : OpReg) : (s.storeBytes a l).x q = s.x q := rfl
@[simp] theorem State.x_sinkPut (s : State) (t : Word) (e : SinkEntry) (q : OpReg) : (s.sinkPut t e).x q = s.x q := rfl
@[simp] theorem State.x_portSend (s : State) (e : SinkEvent) (q : OpReg) : (s.portSend e).x q = s.x q := rfl
@[simp] theorem State.x_addEmitted (s : State) (k : RasterRecord) (q : OpReg) : (s.addEmitted k).x q = s.x q := rfl
@[simp] theorem State.x_openChannel (s : State) (q : OpReg) : s.openChannel.x q = s.x q := rfl
@[simp] theorem State.x_closeChannel (s : State) (q : OpReg) : s.closeChannel.x q = s.x q := rfl
@[simp] theorem State.x_reply (s : State) (k : HostReply) (q : OpReg) : (s.reply k).x q = s.x q := rfl
@[simp] theorem State.x_setInputs (s : State) (l : List Input) (q : OpReg) : (s.setInputs l).x q = s.x q := rfl
@[simp] theorem State.x_emit (s : State) (k : RasterRecord) (q : OpReg) : (s.emit k).x q = s.x q := rfl
@[simp] theorem State.x_drawResponse (s : State) (q : OpReg) : s.drawResponse.x q = s.x q := rfl

/-! ## Reading a byte -/

@[simp] theorem State.readByte_setErr (s : State) (e : BitVec 4) (i : Nat) : (s.setErr e).readByte i = s.readByte i := rfl
@[simp] theorem State.readByte_setV (s : State) (b : Bool) (i : Nat) : (s.setV b).readByte i = s.readByte i := rfl
@[simp] theorem State.readByte_setX (s : State) (r : OpReg) (w : Word) (i : Nat) : (s.setX r w).readByte i = s.readByte i := rfl
@[simp] theorem State.readByte_sinkPut (s : State) (t : Word) (e : SinkEntry) (i : Nat) : (s.sinkPut t e).readByte i = s.readByte i := rfl
@[simp] theorem State.readByte_portSend (s : State) (e : SinkEvent) (i : Nat) : (s.portSend e).readByte i = s.readByte i := rfl
@[simp] theorem State.readByte_addEmitted (s : State) (r : RasterRecord) (i : Nat) : (s.addEmitted r).readByte i = s.readByte i := rfl
@[simp] theorem State.readByte_openChannel (s : State) (i : Nat) : s.openChannel.readByte i = s.readByte i := rfl
@[simp] theorem State.readByte_closeChannel (s : State) (i : Nat) : s.closeChannel.readByte i = s.readByte i := rfl
@[simp] theorem State.readByte_reply (s : State) (r : HostReply) (i : Nat) : (s.reply r).readByte i = s.readByte i := rfl
@[simp] theorem State.readByte_setInputs (s : State) (l : List Input) (i : Nat) : (s.setInputs l).readByte i = s.readByte i := rfl
@[simp] theorem State.readByte_emit (s : State) (r : RasterRecord) (i : Nat) : (s.emit r).readByte i = s.readByte i := rfl
@[simp] theorem State.readByte_drawResponse (s : State) (i : Nat) : s.drawResponse.readByte i = s.readByte i := rfl

end Sys2Proof.Machine
end

