-- ==== Sys2Proof/Laws/Memory.lean ====
section
/-! SUPPORT. The laws of the two stores: reading after writing, and that every write keeps the canonical form. -/

namespace Sys2Proof.Machine

/-! ## One byte -/

theorem Memory.lookup_erase_ne (m : Memory) {a c : Nat} (h : c ≠ a) : Memory.lookup (Memory.erase m a) c = Memory.lookup m c := by
  induction m with
  | nil => rfl
  | cons d m ih =>
    by_cases hd : d.1 = a
    · simpa [Memory.erase, Memory.lookup, hd, Ne.symm h] using ih
    · by_cases hc : d.1 = c <;> simp_all [Memory.erase, Memory.lookup]

theorem Memory.lookup_erase_same (m : Memory) (a : Nat) : Memory.lookup (Memory.erase m a) a = Memory.unlisted a := by
  induction m with
  | nil => rfl
  | cons d m ih => by_cases hd : d.1 = a <;> simp_all [Memory.erase, Memory.lookup]

theorem Memory.lookup_place (m : Memory) (a : Nat) (b : Byte) (c : Nat) (h : ∀ d ∈ m, d.1 ≠ a) :
    Memory.lookup (Memory.place m a b) c = if c = a then b else Memory.lookup m c := by
  induction m with
  | nil => simp [Memory.place, Memory.lookup, eq_comm]
  | cons d m ih =>
    have hd : d.1 ≠ a := h d (by simp)
    have ih' := ih (fun e he => h e (by simp [he]))
    by_cases hlt : a < d.1
    · simp [Memory.place, Memory.lookup, hlt, eq_comm]
    · by_cases hc : d.1 = c
      · subst hc; simp [Memory.place, Memory.lookup, hlt, hd]
      · simp [Memory.place, Memory.lookup, hlt, hc, ih']

theorem Memory.erase_keys (m : Memory) (a : Nat) : ∀ d ∈ Memory.erase m a, d.1 ≠ a := by
  intro d hd
  simpa using (List.mem_filter.mp hd).2

/-- Reading after a write of one byte. -/
theorem Memory.read_write (m : Memory) (a : Nat) (b : Byte) (c : Nat) :
    Memory.read (Memory.write m a b) c = if c = a ∧ storedAt a then b else Memory.read m c := by
  by_cases hs : storedAt a
  · by_cases hc : c = a
    · subst hc
      by_cases hb : b = Memory.unlisted c
      · simp [Memory.read, Memory.write, hs, hb, Memory.lookup_erase_same]
      · simp [Memory.read, Memory.write, hs, hb, Memory.lookup_place _ _ _ _ (Memory.erase_keys m c)]
    · by_cases hb : b = Memory.unlisted a
      · simp [Memory.read, Memory.write, hs, hb, hc, Memory.lookup_erase_ne]
      · simp [Memory.read, Memory.write, hs, hb, hc, Memory.lookup_place _ _ _ _ (Memory.erase_keys m a),
          Memory.lookup_erase_ne]
  · simp [Memory.write, hs]

/-- Reading after a write of bytes: the byte written there, or as before. -/
theorem Memory.read_writeFrom (m : Memory) (a : Nat) (l : List Byte) (c : Nat) :
    Memory.read (Memory.writeFrom m a l) c =
      if a ≤ c ∧ c < a + l.length ∧ storedAt c then l.getD (c - a) 0x00 else Memory.read m c := by
  induction l generalizing m a with
  | nil => simp [Memory.writeFrom]; omega
  | cons b l ih =>
    rw [Memory.writeFrom, ih, Memory.read_write]
    by_cases hca : c = a
    · subst hca
      by_cases hs : storedAt c <;> simp [hs]
    · by_cases hs : storedAt c
      · by_cases hin : a + 1 ≤ c ∧ c < a + 1 + l.length
        · have h2 : a ≤ c ∧ c < a + (l.length + 1) := by omega
          have h3 : c - a = (c - (a + 1)) + 1 := by omega
          simp [hs, hin, h2, h3]
        · have h2 : ¬ (a ≤ c ∧ c < a + (l.length + 1)) := by omega
          simp [hs, hca]
          simp at hin h2
          rw [if_neg (by omega), if_neg (by omega)]
      · simp [hs, hca]

/-- `GROM` and every other address that nothing can change reads as its constant in every memory (R34). -/
theorem Memory.read_constant (m : Memory) {a : Nat} (h : storedAt a = false) : Memory.read m a = Memory.unlisted a := by
  simp [Memory.read, h]

/-! ## The canonical form -/

theorem Memory.wf_cons {c : Host.Cell} {m : Memory} : Memory.wf (c :: m) = true ↔
    storedAt c.1 = true ∧ c.2 ≠ Memory.unlisted c.1 ∧ (∀ d ∈ m, c.1 < d.1) ∧ Memory.wf m = true := by
  simp [Memory.wf, and_assoc]

theorem Memory.wf_erase {m : Memory} (h : Memory.wf m = true) (a : Nat) : Memory.wf (Memory.erase m a) = true := by
  induction m with
  | nil => rfl
  | cons c m ih =>
    obtain ⟨h1, h2, h3, h4⟩ := Memory.wf_cons.mp h
    by_cases hc : c.1 = a
    · simpa [Memory.erase, hc] using ih h4
    · have : Memory.erase (c :: m) a = c :: Memory.erase m a := by simp [Memory.erase, hc]
      rw [this]
      exact Memory.wf_cons.mpr ⟨h1, h2, fun d hd => h3 d (List.mem_filter.mp hd).1, ih h4⟩

theorem Memory.mem_place {m : Memory} {a : Nat} {b : Byte} {d : Host.Cell} (h : d ∈ Memory.place m a b) : d = (a, b) ∨ d ∈ m := by
  induction m with
  | nil => simpa [Memory.place] using h
  | cons c m ih =>
    by_cases hlt : a < c.1
    · simpa [Memory.place, hlt] using h
    · simp [Memory.place, hlt] at h
      rcases h with h | h
      · simp [h]
      · rcases ih h with h | h <;> simp [h]

theorem Memory.wf_place {m : Memory} (h : Memory.wf m = true) {a : Nat} {b : Byte} (hs : storedAt a = true)
    (hb : b ≠ Memory.unlisted a) (hk : ∀ d ∈ m, d.1 ≠ a) : Memory.wf (Memory.place m a b) = true := by
  induction m with
  | nil => simp [Memory.place, Memory.wf, hs, hb]
  | cons c m ih =>
    obtain ⟨h1, h2, h3, h4⟩ := Memory.wf_cons.mp h
    by_cases hlt : a < c.1
    · simp only [Memory.place, hlt, if_true]
      refine Memory.wf_cons.mpr ⟨hs, hb, ?_, h⟩
      intro d hd
      rcases List.mem_cons.mp hd with e | hd
      · exact e ▸ hlt
      · exact Nat.lt_trans hlt (h3 d hd)
    · simp only [Memory.place, hlt, if_false]
      refine Memory.wf_cons.mpr ⟨h1, h2, ?_, ih h4 (fun d hd => hk d (by simp [hd]))⟩
      intro d hd
      have hca : c.1 ≠ a := hk c (by simp)
      rcases Memory.mem_place hd with e | hd
      · subst e; show c.1 < a; omega
      · exact h3 d hd

/-- A write keeps the canonical form. -/
theorem Memory.wf_write {m : Memory} (h : Memory.wf m = true) (a : Nat) (b : Byte) : Memory.wf (Memory.write m a b) = true := by
  by_cases hs : storedAt a
  · by_cases hb : b = Memory.unlisted a
    · simpa [Memory.write, hs, hb] using Memory.wf_erase h a
    · simpa [Memory.write, hs, hb] using Memory.wf_place (Memory.wf_erase h a) hs hb (Memory.erase_keys m a)
  · simpa [Memory.write, hs] using h

/-- A write of bytes keeps the canonical form. -/
theorem Memory.wf_writeFrom {m : Memory} (h : Memory.wf m = true) (a : Nat) (l : List Byte) :
    Memory.wf (Memory.writeFrom m a l) = true := by
  induction l generalizing m a with
  | nil => exact h
  | cons b l ih => exact ih (Memory.wf_write h a b) (a + 1)

/-! ## The sink's store -/

theorem SinkStore.erase_keys (k : SinkStore) (t : Nat) : ∀ d ∈ SinkStore.erase k t, d.1 ≠ t := by
  intro d hd
  simpa using (List.mem_filter.mp hd).2

theorem SinkStore.get_erase_ne (k : SinkStore) {t u : Nat} (h : u ≠ t) : SinkStore.get (SinkStore.erase k t) u = SinkStore.get k u := by
  induction k with
  | nil => rfl
  | cons d k ih =>
    by_cases hd : d.1 = t
    · simpa [SinkStore.erase, SinkStore.get, hd, Ne.symm h] using ih
    · by_cases hu : d.1 = u <;> simp_all [SinkStore.erase, SinkStore.get]

theorem SinkStore.get_place (k : SinkStore) (t : Nat) (e : SinkEntry) (u : Nat) (h : ∀ d ∈ k, d.1 ≠ t) :
    SinkStore.get (SinkStore.place k t e) u = if u = t then some e else SinkStore.get k u := by
  induction k with
  | nil => simp [SinkStore.place, SinkStore.get, eq_comm]
  | cons d k ih =>
    have hd : d.1 ≠ t := h d (by simp)
    have ih' := ih (fun x hx => h x (by simp [hx]))
    by_cases hlt : t < d.1
    · simp [SinkStore.place, SinkStore.get, hlt, eq_comm]
    · by_cases hc : d.1 = u
      · subst hc; simp [SinkStore.place, SinkStore.get, hlt, hd]
      · simp [SinkStore.place, SinkStore.get, hlt, hc, ih']

/-- Looking a tag up after one entry was replaced (R37, R172). -/
theorem SinkStore.get_put (k : SinkStore) (t : Nat) (e : SinkEntry) (u : Nat) :
    SinkStore.get (SinkStore.put k t e) u = if u = t then some e else SinkStore.get k u := by
  rw [SinkStore.put, SinkStore.get_place _ _ _ _ (SinkStore.erase_keys k t)]
  by_cases h : u = t
  · simp [h]
  · simp [h, SinkStore.get_erase_ne k h]

theorem SinkStore.wf_cons {c : Nat × SinkEntry} {k : SinkStore} : SinkStore.wf (c :: k) = true ↔
    c.1 < 2 ^ 32 ∧ (∀ d ∈ k, c.1 < d.1) ∧ SinkStore.wf k = true := by
  simp [SinkStore.wf, and_assoc]

theorem SinkStore.wf_erase {k : SinkStore} (h : SinkStore.wf k = true) (t : Nat) : SinkStore.wf (SinkStore.erase k t) = true := by
  induction k with
  | nil => rfl
  | cons c k ih =>
    obtain ⟨h1, h2, h3⟩ := SinkStore.wf_cons.mp h
    by_cases hc : c.1 = t
    · simpa [SinkStore.erase, hc] using ih h3
    · have : SinkStore.erase (c :: k) t = c :: SinkStore.erase k t := by simp [SinkStore.erase, hc]
      rw [this]
      exact SinkStore.wf_cons.mpr ⟨h1, fun d hd => h2 d (List.mem_filter.mp hd).1, ih h3⟩

theorem SinkStore.mem_place {k : SinkStore} {t : Nat} {e : SinkEntry} {d : Nat × SinkEntry} (h : d ∈ SinkStore.place k t e) :
    d = (t, e) ∨ d ∈ k := by
  induction k with
  | nil => simpa [SinkStore.place] using h
  | cons c k ih =>
    by_cases hlt : t < c.1
    · simpa [SinkStore.place, hlt] using h
    · simp [SinkStore.place, hlt] at h
      rcases h with h | h
      · simp [h]
      · rcases ih h with h | h <;> simp [h]

theorem SinkStore.wf_place {k : SinkStore} (h : SinkStore.wf k = true) {t : Nat} (ht : t < 2 ^ 32) (e : SinkEntry)
    (hk : ∀ d ∈ k, d.1 ≠ t) : SinkStore.wf (SinkStore.place k t e) = true := by
  induction k with
  | nil => simpa [SinkStore.place, SinkStore.wf] using ht
  | cons c k ih =>
    obtain ⟨h1, h2, h3⟩ := SinkStore.wf_cons.mp h
    by_cases hlt : t < c.1
    · simp only [SinkStore.place, hlt, if_true]
      refine SinkStore.wf_cons.mpr ⟨ht, ?_, h⟩
      intro d hd
      rcases List.mem_cons.mp hd with e | hd
      · exact e ▸ hlt
      · exact Nat.lt_trans hlt (h2 d hd)
    · simp only [SinkStore.place, hlt, if_false]
      refine SinkStore.wf_cons.mpr ⟨h1, ?_, ih h3 (fun d hd => hk d (by simp [hd]))⟩
      intro d hd
      have hct : c.1 ≠ t := hk c (by simp)
      rcases SinkStore.mem_place hd with e | hd
      · subst e; show c.1 < t; omega
      · exact h2 d hd

/-- Replacing the entry of a 32-bit tag keeps the canonical form. -/
theorem SinkStore.wf_put {k : SinkStore} (h : SinkStore.wf k = true) (t : Word) (e : SinkEntry) :
    SinkStore.wf (SinkStore.put k t.toNat e) = true :=
  SinkStore.wf_place (SinkStore.wf_erase h t.toNat) t.isLt e (SinkStore.erase_keys k t.toNat)

end Sys2Proof.Machine
end

