-- ==== Sys2Proof/Laws/Ops.lean ====
section
/-! SUPPORT. One lemma per shared operation: digits and text, buffers, the glyph table, the status word, failure, one step. -/

namespace Sys2Proof.Machine

/-! ## Digit characters -/

theorem isDigit_iff (c : Byte) : isDigit c = true ↔ 0x30 ≤ c.toNat ∧ c.toNat ≤ 0x39 := by simp [isDigit]

theorem digit_lt {c : Byte} (h : isDigit c = true) : digit c < 10 := by
  rw [isDigit_iff] at h; unfold digit; omega

theorem chr_toNat {d : Nat} (h : d < 10) : (chr d).toNat = 0x30 + d := by
  simp [chr, BitVec.toNat_ofNat]; omega

@[simp] theorem digit_chr {d : Nat} (h : d < 10) : digit (chr d) = d := by simp [digit, chr_toNat h]

theorem isDigit_chr {d : Nat} (h : d < 10) : isDigit (chr d) = true := by
  rw [isDigit_iff, chr_toNat h]; omega

theorem chr_digit {c : Byte} (h : isDigit c = true) : chr (digit c) = c := by
  apply BitVec.eq_of_toNat_eq
  rw [chr_toNat (digit_lt h)]
  rw [isDigit_iff] at h; unfold digit; omega

/-! ## Decimal text -/

@[simp] theorem decText_length (n c : Nat) : (decText n c).length = n := by simp [decText]

theorem decText_getD (n c j : Nat) (h : j < n) : (decText n c).getD j 0x00 = chr (c / 10 ^ (n - 1 - j) % 10) := by
  simp [decText, h]

theorem decText_isDigit (n c : Nat) : ∀ b ∈ decText n c, isDigit b = true := by
  intro b hb
  simp only [decText, List.mem_map] at hb
  obtain ⟨j, -, rfl⟩ := hb
  exact isDigit_chr (Nat.mod_lt _ (by decide))

theorem num_append (a b : List Byte) : num (a ++ b) = num a * 10 ^ b.length + num b := by
  induction a with
  | nil => simp [num]
  | cons c a ih => simp [num, ih, pow_add]; ring

/-! ## Strings and buffers -/

@[simp] theorem State.bytes_length (s : State) (b : Buffer) (n : Nat) : (s.bytes b n).length = n := by simp [State.bytes]

theorem State.bytes_getD (s : State) (b : Buffer) (n i : Nat) (h : i < n) : (s.bytes b n).getD i 0x00 = s.readByte (b.base + i) := by
  simp [State.bytes, h]

theorem State.bytes_all (s : State) (b : Buffer) (n : Nat) (p : Byte → Bool) :
    (s.bytes b n).all p = true ↔ ∀ i < n, p (s.readByte (b.base + i)) = true := by
  simp [State.bytes]

theorem State.digitString_length (s : State) : s.digitString.length = s.xNat .dlen := by simp [State.digitString]

/-- The digit test over the string operand. -/
theorem State.digitString_all (s : State) :
    s.digitString.all isDigit = true ↔ ∀ i < s.xNat .dlen, isDigit (s.dbuf i) = true := by
  rw [State.digitString, State.bytes_all]; rfl

/-- Bytes read are those of the state's memory: two states that agree on the bytes agree on the sequence. -/
theorem State.bytes_congr {s t : State} {b : Buffer} {n : Nat} (h : ∀ i < n, t.readByte (b.base + i) = s.readByte (b.base + i)) :
    t.bytes b n = s.bytes b n := by
  simp only [State.bytes]
  exact List.map_congr_left (fun i hi => h i (List.mem_range.mp hi))

/-- Reading a byte after bytes were stored (R55, R66). -/
theorem State.readByte_storeBytes (s : State) (a : Nat) (l : List Byte) (c : Nat) :
    (s.storeBytes a l).readByte c = if a ≤ c ∧ c < a + l.length ∧ storedAt c then l.getD (c - a) 0x00 else s.readByte c :=
  Memory.read_writeFrom s.mem a l c

/-- A store into addresses that all hold bytes, read by index: the bytes stored, and everything else as before. -/
theorem State.readByte_storeBytes_in (s : State) {a : Nat} {l : List Byte} (h : a + l.length ≤ 0x69) (c : Nat) :
    (s.storeBytes a l).readByte c = if a ≤ c ∧ c < a + l.length then l.getD (c - a) 0x00 else s.readByte c := by
  rw [State.readByte_storeBytes]
  by_cases hc : a ≤ c ∧ c < a + l.length
  · have : storedAt c = true := by simp [storedAt]; omega
    simp [hc, this]
  · rw [if_neg hc, if_neg (fun x => hc ⟨x.1, x.2.1⟩)]

theorem State.wf_storeBytes {s : State} (h : Memory.wf s.mem = true) (a : Nat) (l : List Byte) :
    Memory.wf (s.storeBytes a l).mem = true := Memory.wf_writeFrom h a l

/-! ## The glyph table -/

theorem State.readByte_grom (s : State) {d : Nat} (h : d < 10) : s.readByte (0x70 + d) = glyph d := by
  have h1 : storedAt (0x70 + d) = false := by simp [storedAt]; omega
  rw [State.readByte, Memory.read_constant _ h1, Memory.unlisted, if_pos (by omega)]
  congr 1; omega

theorem State.grom_eq (s : State) {d : Nat} (h : d < 10) : s.grom d = glyph d := s.readByte_grom h

/-! ## The status word -/

theorem State.statusWord_toNat (s : State) :
    s.statusWord.toNat = s.err.toNat + 2 ^ 4 * s.v.toNat + 2 ^ 5 * s.chanOpen.toNat := by
  have h1 := s.err.isLt
  have h2 := Bool.toNat_lt s.v
  have h3 := Bool.toNat_lt s.chanOpen
  rw [State.statusWord, BitVec.toNat_ofNat, Nat.mod_eq_of_lt]
  omega

theorem State.statusWord_err (s : State) : statusErr s.statusWord = s.err := by
  apply BitVec.eq_of_toNat_eq
  have h1 := s.err.isLt
  rw [statusErr, BitVec.extractLsb'_toNat, State.statusWord_toNat]
  simp
  omega

theorem State.statusWord_v (s : State) : statusV s.statusWord = s.v := by
  have h1 := s.err.isLt
  rw [statusV, BitVec.getLsbD, State.statusWord_toNat, Nat.testBit_eq_decide_div_mod_eq]
  cases s.v <;> simp <;> omega

theorem State.statusWord_open (s : State) : statusOpen s.statusWord = s.chanOpen := by
  have h1 := s.err.isLt
  rw [statusOpen, BitVec.getLsbD, State.statusWord_toNat, Nat.testBit_eq_decide_div_mod_eq]
  cases s.v <;> cases s.chanOpen <;> simp <;> omega

theorem State.statusWord_reserved (s : State) : s.statusWord.extractLsb' 6 26 = 0 := by
  apply BitVec.eq_of_toNat_eq
  have h1 := s.err.isLt
  have h2 := Bool.toNat_lt s.v
  have h3 := Bool.toNat_lt s.chanOpen
  rw [BitVec.extractLsb'_toNat, State.statusWord_toNat, Nat.shiftRight_eq_div_pow]
  rw [Nat.div_eq_of_lt (by omega)]
  rfl

/-! ## Success and failure -/

/-- Everything `raiseError` can do (R196). -/
theorem raiseError_eq (i : Option Instr) (e : ErrCode) (s : State) :
    raiseError i e s = .next ((failureWrites i s).setErr (errNumber e)) := rfl

theorem succeed_eq (s : State) : succeed s = .next (s.setErr 0) := rfl

theorem errNumber_pos (e : ErrCode) : errNumber e ≠ 0 := by cases e <;> decide

theorem errNumber_le (e : ErrCode) : (errNumber e).toNat ≤ 8 := by cases e <;> decide

/-- A run of `0x00` reads `0x00` wherever it is looked at. -/
theorem getD_zeros (n i : Nat) : (List.replicate n (0x00 : Byte)).getD i 0x00 = 0x00 := by
  rw [List.getD_eq_getElem?_getD, List.getElem?_replicate]
  split <;> rfl

/-- The bytes after the failure writes of `CSUM`. -/
theorem readByte_failureWrites_csum (s : State) (c : Nat) :
    (failureWrites (some .csum) s).readByte c = if 0x60 ≤ c ∧ c < 0x69 then 0x00 else s.readByte c := by
  have := s.readByte_storeBytes_in (a := 0x60) (l := List.replicate 9 0x00) (by simp) c
  simp only [List.length_replicate] at this
  by_cases h : 0x60 ≤ c ∧ c < 0x60 + 9
  · simp only [failureWrites, Buffer.base, Config.cCap_eq, State.readByte_setX, this, if_pos h]
    exact getD_zeros 9 _
  · simp only [failureWrites, Buffer.base, Config.cCap_eq, State.readByte_setX, this, if_neg h]

/-- The bytes after the failure writes of `MAP`. -/
theorem readByte_failureWrites_map (s : State) (c : Nat) :
    (failureWrites (some .map) s).readByte c = if 0x20 ≤ c ∧ c < 0x40 then 0x00 else s.readByte c := by
  have := s.readByte_storeBytes_in (a := 0x20) (l := List.replicate 32 0x00) (by simp) c
  simp only [List.length_replicate] at this
  by_cases h : 0x20 ≤ c ∧ c < 0x20 + 32
  · simp only [failureWrites, Buffer.base, Config.pCap_eq, State.readByte_setX, this, if_pos h]
    exact getD_zeros 32 _
  · simp only [failureWrites, Buffer.base, Config.pCap_eq, State.readByte_setX, this, if_neg h]

/-! ## One step -/

/-- With nothing waiting, a step changes nothing (log 2). -/
theorem step_idle {s : State} (h : s.inputs = []) : step s = .next s := by simp [step, h]

/-- A step takes the next input. -/
theorem step_input {s : State} {i : Input} {rest : List Input} (h : s.inputs = i :: rest) :
    step s = takeInput i (s.setInputs rest) := by simp [step, h]

/-- A step on a `CMD` write is the command write (R25). -/
theorem step_command {s : State} {w : Word} {rest : List Input} (h : s.inputs = .txn (.wr 15 w) :: rest) :
    step s = commandWrite w (s.setInputs rest) := by
  rw [step_input h]; rfl

theorem commandWrite_ok {w : Word} {i : Instr} (h : decode w = .ok i) (s : State) : commandWrite w s = exec i s := by
  simp [commandWrite, h]

theorem commandWrite_illegal {w : Word} {e : DecodeReject} (h : decode w = .error e) (s : State) :
    commandWrite w s = .next (s.setErr 8) := by
  simp [commandWrite, h, raiseError, failureWrites, errNumber]

end Sys2Proof.Machine
end

