-- ==== Sys2Proof/Laws/Meanings.lean ====
section
/-! SUPPORT. One lemma per case of each meaning, with the numbers of the rules written out, and the inversion lemma `exec_cases`. -/

namespace Sys2Proof.Machine

/-! ## `VALID` -/

theorem execValid_param {s : State} (h : 32 < s.xNat .dlen) : execValid s = .next (s.setErr 7) := by
  unfold execValid; exact if_pos h

theorem execValid_ok {s : State} (h : s.xNat .dlen ≤ 32) :
    execValid s = .next ((s.setV (validateId s.digitString (s.xNat .explen))).setErr 0) := by
  unfold execValid; exact if_neg (Nat.not_lt.mpr h)

/-! ## `CSUM` -/

/-- A failing `CSUM` (R196). -/
def csumFailure (e : ErrCode) (s : State) : State := (failureWrites (some .csum) s).setErr (errNumber e)

theorem csumWith_param {vmax : Nat} {s : State} (h : s.xNat .dlen = 0 ∨ 32 < s.xNat .dlen ∨ s.xNat .modulus = 0
    ∨ vmax < s.xNat .modulus ∨ s.xNat .outlen = 0 ∨ 9 < s.xNat .outlen) :
    csumWith vmax s = .next (csumFailure .paramError s) := by
  unfold csumWith; exact if_pos h

/-- Past the register range tests, `CSUM` is what `checksum` answers. -/
theorem csumWith_inRange {vmax : Nat} {s : State} (h : ¬ (s.xNat .dlen = 0 ∨ 32 < s.xNat .dlen ∨ s.xNat .modulus = 0
    ∨ vmax < s.xNat .modulus ∨ s.xNat .outlen = 0 ∨ 9 < s.xNat .outlen)) :
    csumWith vmax s = match checksum vmax s.digitString (s.xNat .modulus) (s.xNat .outlen) with
      | .error e => .next (csumFailure e s)
      | .ok r => .next (((s.storeBytes 0x60 (r ++ List.replicate (9 - s.xNat .outlen) 0x00)).setX .clen (s.x .outlen)).setErr 0) := by
  unfold csumWith; exact if_neg h

theorem checksum_invalid {vmax m n : Nat} {s : List Byte} (h : ¬ s.all isDigit = true) :
    checksum vmax s m n = .error .invalidInput := by
  unfold checksum; exact if_neg h

theorem checksum_overflow {vmax m n : Nat} {s : List Byte} (h : s.all isDigit = true) (hv : vmax < reversedValue s) :
    checksum vmax s m n = .error .numericOverflow := by
  unfold checksum; rw [if_pos h, if_pos hv]

theorem checksum_ok {vmax m n : Nat} {s : List Byte} (h : s.all isDigit = true) (hv : reversedValue s ≤ vmax) :
    checksum vmax s m n = .ok (decText n (reversedValue s % m % 10 ^ n)) := by
  unfold checksum; rw [if_pos h, if_neg (Nat.not_lt.mpr hv)]

/-- What `checksum` answers has exactly `n` characters, all digits (R117). -/
theorem checksum_text {vmax m n : Nat} {s r : List Byte} (h : checksum vmax s m n = .ok r) :
    r.length = n ∧ ∀ b ∈ r, isDigit b = true := by
  by_cases h1 : s.all isDigit = true
  · by_cases h2 : vmax < reversedValue s
    · rw [checksum_overflow h1 h2] at h; cases h
    · rw [checksum_ok h1 (Nat.not_lt.mp h2)] at h
      cases h
      exact ⟨decText_length _ _, decText_isDigit _ _⟩
  · rw [checksum_invalid h1] at h; cases h

/-! ## `CAT` -/

theorem execCat_param {s : State} (h : s.xNat .clen = 0 ∨ 32 < s.xNat .dlen ∨ 32 < s.xNat .clen + s.xNat .dlen) :
    execCat s = .next (s.setErr 7) := by
  unfold execCat; exact if_pos h

theorem execCat_ok {s : State} (h : ¬ (s.xNat .clen = 0 ∨ 32 < s.xNat .dlen ∨ 32 < s.xNat .clen + s.xNat .dlen)) :
    execCat s = .next (((s.storeBytes 0x00 (s.bytes .cbuf (s.xNat .clen) ++ s.digitString)).setX .dlen
      (BitVec.ofNat 32 (s.xNat .clen + s.xNat .dlen))).setErr 0) := by
  unfold execCat; exact if_neg h

/-! ## `MAP` -/

/-- A failing `MAP` (R196). -/
def mapFailure (e : ErrCode) (s : State) : State := (failureWrites (some .map) s).setErr (errNumber e)

theorem execMap_param {s : State} (h : 32 < s.xNat .dlen) : execMap s = .next (mapFailure .paramError s) := by
  unfold execMap; exact if_pos h

theorem execMap_inRange {s : State} (h : s.xNat .dlen ≤ 32) :
    execMap s = match mapDigits s.digitString with
      | .error e => .next (mapFailure e s)
      | .ok r => .next (((s.storeBytes 0x20 (r ++ List.replicate (32 - s.xNat .dlen) 0x00)).setX .plen (s.x .dlen)).setErr 0) := by
  unfold execMap; exact if_neg (Nat.not_lt.mpr h)

theorem mapDigits_ok {s : List Byte} (h : s.all isDigit = true) : mapDigits s = .ok (s.map (fun c => glyph (digit c))) := by
  unfold mapDigits; exact if_pos h

theorem mapDigits_error {s : List Byte} (h : ¬ s.all isDigit = true) : mapDigits s = .error .unmappableCharacter := by
  unfold mapDigits; exact if_neg h

/-! ## `CLRROW` and `PLACE` -/

theorem execClrrow_eq (s : State) : execClrrow s = .next ((s.storeBytes 0x40 (List.replicate 32 0x00)).setErr 0) := by
  simp only [execClrrow, Buffer.row_base, Config.rowCap_eq]; exact succeed_eq _

theorem execPlace_param {s : State} (h : s.xNat .plen = 0 ∨ 32 < s.xNat .offset + s.xNat .plen) :
    execPlace s = .next (s.setErr 7) := by
  unfold execPlace; exact if_pos h

theorem execPlace_ok {s : State} (h : ¬ (s.xNat .plen = 0 ∨ 32 < s.xNat .offset + s.xNat .plen)) :
    execPlace s = .next ((s.storeBytes (0x40 + s.xNat .offset) (s.bytes .pbuf (s.xNat .plen))).setErr 0) := by
  unfold execPlace; exact if_neg h

/-! ## `WRITE` -/

/-- The record a `WRITE` in `s` hands to the sink (R165, R169). -/
def recordOf (s : State) : RasterRecord :=
  serialize (s.xNat .width) (s.xNat .height) (s.bytes .row (imageBytes (s.xNat .width) (s.xNat .height))) (s.x .tag)

theorem execWrite_param {s : State} (h : s.xNat .width = 0 ∨ s.xNat .height = 0
    ∨ 32 < s.xNat .height * ((s.xNat .width + 7) / 8)) : execWrite s = .next (s.setErr 7) := by
  unfold execWrite
  by_cases h1 : s.xNat .width = 0 ∨ s.xNat .height = 0
  · exact if_pos h1
  · rw [if_neg h1]; exact if_pos (by tauto)

/-- Past the register range tests, `WRITE` is what the sink answers. -/
theorem execWrite_asks {s : State} (h : ¬ (s.xNat .width = 0 ∨ s.xNat .height = 0
    ∨ 32 < s.xNat .height * ((s.xNat .width + 7) / 8))) :
    execWrite s = sinkOutcome s.nextResponse (recordOf s) s.drawResponse := by
  unfold execWrite
  rw [if_neg (by tauto)]; exact if_neg (by tauto)

/-- The row bytes of the record, read by index. -/
theorem recordOf_row (s : State) {k j : Nat} (hk : k < s.xNat .height) (hj : j < (s.xNat .width + 7) / 8) :
    ∃ row, (recordOf s).rows[k]? = some row ∧ row.length = (s.xNat .width + 7) / 8
      ∧ row[j]? = some (invert (s.row (k * ((s.xNat .width + 7) / 8) + j))) := by
  have h1 : k * ((s.xNat .width + 7) / 8) + j < s.xNat .height * ((s.xNat .width + 7) / 8) := by
    have : (k + 1) * ((s.xNat .width + 7) / 8) ≤ s.xNat .height * ((s.xNat .width + 7) / 8) := Nat.mul_le_mul_right _ hk
    have : (k + 1) * ((s.xNat .width + 7) / 8) = k * ((s.xNat .width + 7) / 8) + (s.xNat .width + 7) / 8 := by ring
    omega
  refine ⟨_, by simp [recordOf, serialize, hk]; rfl, by simp [rowStride], ?_⟩
  simp [rowStride, hj, State.bytes, imageBytes, h1, State.row]

/-- The complement of a byte is 255 minus it (R9, R166). -/
theorem invert_eq (b : Byte) : invert b = 255 - b := by
  apply BitVec.eq_of_toNat_eq
  have := b.isLt
  rw [invert, BitVec.toNat_sub, BitVec.toNat_not]
  simp; omega

/-- The sink's entries after one is replaced. -/
theorem State.sinkAt_sinkPut (s : State) (t u : Word) (e : SinkEntry) :
    (s.sinkPut t e).sinkAt u = if u = t then some e else s.sinkAt u := by
  simp [State.sinkAt, SinkStore.get_put, BitVec.toNat_inj]

/-- Everything the sink's response can lead to (R168, R169, R171, R172), as one of four next states. -/
theorem sinkOutcome_eq (resp : SinkResponse) (r : RasterRecord) (s : State) : sinkOutcome resp r s = .next
    (match resp with
    | .accepted => { s with
        sinkPort := s.sinkPort ++ [.openRequest r.tag] ++ [.header r.header] ++ [.rows r.rows] ++ [.close], chanOpen := false,
        sink := SinkStore.put s.sink r.tag.toNat (.record r), emitted := s.emitted ++ [r], err := 0 }
    | .openFailed => { s with sinkPort := s.sinkPort ++ [.openRequest r.tag], err := 4 }
    | .initFailed => { s with
        sinkPort := s.sinkPort ++ [.openRequest r.tag] ++ [.header r.header] ++ [.close], chanOpen := false,
        sink := SinkStore.put s.sink r.tag.toNat .unspecified, err := 5 }
    | .rowFailed => { s with
        sinkPort := s.sinkPort ++ [.openRequest r.tag] ++ [.header r.header] ++ [.rowsRefused] ++ [.close], chanOpen := false,
        sink := SinkStore.put s.sink r.tag.toNat .unspecified, err := 6 }) := by
  cases resp <;>
    simp only [sinkOutcome, raiseError, succeed, failureWrites, errNumber, errSuccess, State.setErr, State.portSend,
      State.openChannel, State.closeChannel, State.sinkPut, State.emit, State.addEmitted]

/-! ## Every command answers a next state, or says why not -/

/-- The error part of `checksum` is one of its two names (R112). -/
theorem checksum_error {vmax m n : Nat} {s : List Byte} {e : ErrCode} (h : checksum vmax s m n = .error e) :
    (e = .invalidInput ∧ ¬ s.all isDigit = true) ∨ (e = .numericOverflow ∧ s.all isDigit = true ∧ vmax < reversedValue s) := by
  by_cases h1 : s.all isDigit = true
  · by_cases h2 : vmax < reversedValue s
    · rw [checksum_overflow h1 h2] at h; cases h; exact .inr ⟨rfl, h1, h2⟩
    · rw [checksum_ok h1 (Nat.not_lt.mp h2)] at h; cases h
  · rw [checksum_invalid h1] at h; cases h; exact .inl ⟨rfl, h1⟩

/-- Everything a command can do: `CommandStep i s t` says by which of its cases `i` takes `s` to `t`. -/
inductive CommandStep : Instr → State → State → Prop where
  | validParam (s) (h : 32 < s.xNat .dlen) : CommandStep .valid s (s.setErr 7)
  | validOk (s) (h : s.xNat .dlen ≤ 32) :
      CommandStep .valid s ((s.setV (validateId s.digitString (s.xNat .explen))).setErr 0)
  | csumFails (s e) (h : e = .paramError ∨ e = .invalidInput ∨ e = .numericOverflow) : CommandStep .csum s (csumFailure e s)
  | csumOk (s r) (h1 : 1 ≤ s.xNat .outlen) (h9 : s.xNat .outlen ≤ 9) (hr : r.length = s.xNat .outlen)
      (hd : ∀ b ∈ r, isDigit b = true) :
      CommandStep .csum s
        (((s.storeBytes 0x60 (r ++ List.replicate (9 - s.xNat .outlen) 0x00)).setX .clen (s.x .outlen)).setErr 0)
  | catParam (s) : CommandStep .cat s (s.setErr 7)
  | catOk (s) (h : s.xNat .clen + s.xNat .dlen ≤ 32) :
      CommandStep .cat s (((s.storeBytes 0x00 (s.bytes .cbuf (s.xNat .clen) ++ s.digitString)).setX .dlen
        (BitVec.ofNat 32 (s.xNat .clen + s.xNat .dlen))).setErr 0)
  | mapFails (s e) (h : e = .paramError ∨ e = .unmappableCharacter) : CommandStep .map s (mapFailure e s)
  | mapOk (s) (h : s.xNat .dlen ≤ 32) (hd : s.digitString.all isDigit = true) :
      CommandStep .map s (((s.storeBytes 0x20 (s.digitString.map (fun c => glyph (digit c))
        ++ List.replicate (32 - s.xNat .dlen) 0x00)).setX .plen (s.x .dlen)).setErr 0)
  | clrrow (s) : CommandStep .clrrow s ((s.storeBytes 0x40 (List.replicate 32 0x00)).setErr 0)
  | placeParam (s) : CommandStep .place s (s.setErr 7)
  | placeOk (s) (h : s.xNat .offset + s.xNat .plen ≤ 32) :
      CommandStep .place s ((s.storeBytes (0x40 + s.xNat .offset) (s.bytes .pbuf (s.xNat .plen))).setErr 0)
  | writeParam (s) : CommandStep .write s (s.setErr 7)
  | writeAsks (s t) (h : sinkOutcome s.nextResponse (recordOf s) s.drawResponse = .next t) : CommandStep .write s t

/-- A command that answers a next state does so by one of the cases of `CommandStep`. -/
theorem exec_cases {i : Instr} {s t : State} (h : exec i s = .next t) : CommandStep i s t := by
  cases i with
  | valid =>
    rw [show exec .valid s = execValid s from rfl] at h
    by_cases hp : 32 < s.xNat .dlen
    · rw [execValid_param hp] at h; cases h; exact .validParam s hp
    · rw [execValid_ok (Nat.not_lt.mp hp)] at h; cases h; exact .validOk s (Nat.not_lt.mp hp)
  | csum =>
    rw [show exec .csum s = csumWith Config.vmax s from rfl] at h
    by_cases hp : s.xNat .dlen = 0 ∨ 32 < s.xNat .dlen ∨ s.xNat .modulus = 0 ∨ Config.vmax < s.xNat .modulus
        ∨ s.xNat .outlen = 0 ∨ 9 < s.xNat .outlen
    · rw [csumWith_param hp] at h; cases h; exact .csumFails s _ (by simp)
    · rw [csumWith_inRange hp] at h
      split at h
      · rename_i e he
        cases h
        exact .csumFails s e (by rcases checksum_error he with x | x <;> simp [x.1])
      · rename_i r hr
        cases h
        have := checksum_text hr
        simp only [not_or] at hp
        exact .csumOk s r (by omega) (by omega) this.1 this.2
  | cat =>
    rw [show exec .cat s = execCat s from rfl] at h
    by_cases hp : s.xNat .clen = 0 ∨ 32 < s.xNat .dlen ∨ 32 < s.xNat .clen + s.xNat .dlen
    · rw [execCat_param hp] at h; cases h; exact .catParam s
    · rw [execCat_ok hp] at h; cases h
      exact .catOk s (by omega)
  | map =>
    rw [show exec .map s = execMap s from rfl] at h
    by_cases hp : 32 < s.xNat .dlen
    · rw [execMap_param hp] at h; cases h; exact .mapFails s _ (by simp)
    · rw [execMap_inRange (Nat.not_lt.mp hp)] at h
      by_cases hd : s.digitString.all isDigit = true
      · rw [mapDigits_ok hd] at h; cases h; exact .mapOk s (Nat.not_lt.mp hp) hd
      · rw [mapDigits_error hd] at h; cases h; exact .mapFails s _ (by simp)
  | clrrow =>
    rw [show exec .clrrow s = execClrrow s from rfl, execClrrow_eq] at h; cases h; exact .clrrow s
  | place =>
    rw [show exec .place s = execPlace s from rfl] at h
    by_cases hp : s.xNat .plen = 0 ∨ 32 < s.xNat .offset + s.xNat .plen
    · rw [execPlace_param hp] at h; cases h; exact .placeParam s
    · rw [execPlace_ok hp] at h; cases h; exact .placeOk s (by omega)
  | write =>
    rw [show exec .write s = execWrite s from rfl] at h
    by_cases hp : s.xNat .width = 0 ∨ s.xNat .height = 0 ∨ 32 < s.xNat .height * ((s.xNat .width + 7) / 8)
    · rw [execWrite_param hp] at h; cases h; exact .writeParam s
    · rw [execWrite_asks hp] at h; exact .writeAsks s t h

end Sys2Proof.Machine
end

