-- ==== Sys2Proof/Laws/PerInstr.lean ====
section
/-! SUPPORT. What holds of every command as syntax, command by command (R80, R81). -/

namespace Sys2Proof.Laws.EncodingFields

/-- The fields of a command's word: `ZERO` is 0, `OP` is the command's operation code, one of `0x01 .. 0x07`, and there is
nothing else in the word for well-formedness to check (R80, R81). -/
def Statement (i : Instr) : Prop :=
  i.wf = true ∧ zeroField (encode i) = 0 ∧ opField (encode i) = opcode i ∧ 1 ≤ (opcode i).toNat ∧ (opcode i).toNat ≤ 7

theorem valid : Statement .valid := by unfold Statement; decide

theorem csum : Statement .csum := by unfold Statement; decide

theorem cat : Statement .cat := by unfold Statement; decide

theorem map : Statement .map := by unfold Statement; decide

theorem clrrow : Statement .clrrow := by unfold Statement; decide

theorem place : Statement .place := by unfold Statement; decide

theorem write : Statement .write := by unfold Statement; decide

end Sys2Proof.Laws.EncodingFields
end

