-- ==== Sys2Proof/Laws/Pipeline.lean ====
section
/-! SUPPORT. What the host's operations can do: one lemma per transaction it issues, per list of them, and per action of its sequences. -/

namespace Sys2Proof.Machine

/-! ## Single transactions -/

/-- An issued transaction is that transaction, taken at once; the inputs that wait stay. -/
theorem issue_eq (t : HostTxn) (s : State) : issue t s = transact t s := rfl

/-- `WR` of a number to a register the host may write. -/
theorem issue_writeReg {r : OpReg} (h : hostWritesReg r = true) (n : Nat) (s : State) :
    issue (writeReg r n) s = .next (s.setX r (BitVec.ofNat 32 n)) := by
  cases r <;> first | rfl | cases h

/-- `RD STATUS` (R76). -/
theorem issue_readStatus (s : State) : issue readStatus s = .next (s.reply (.reg s.statusWord)) := rfl

/-- `CMD <mnemonic>` is that command (R25, R76). -/
theorem issue_command (i : Instr) (s : State) : issue (commandTxn i) s = exec i s := by cases i <;> rfl

/-- `WB` to a byte the host may write. -/
theorem issue_writeByte {a : Fin 256} (h : a.val < 0x20 ∨ (0x40 ≤ a.val ∧ a.val < 0x60)) (b : Byte) (s : State) :
    issue (.wb a b) s = .next (s.storeBytes a.val [b]) := by
  simp only [issue_eq, transact, hostWriteByte, bufferAt]
  rcases h with h | ⟨h1, h2⟩
  · simp only [if_pos h]; rfl
  · rw [if_neg (by omega), if_neg (by omega), if_pos h2]; rfl

/-- `RB` of a byte below the reserved addresses. -/
theorem issue_readByte {a : Fin 256} (h : a.val < 0x69) (s : State) :
    issue (.rb a) s = .next (s.reply (.byte (s.readByte a.val))) := by
  have : ∃ u, bufferAt a.val = some u := by
    unfold bufferAt
    repeat' split
    all_goals exact ⟨_, rfl⟩
  obtain ⟨u, hu⟩ := this
  simp only [issue_eq, transact, hostReadByte, hu]

/-! ## Lists of transactions -/

theorem issueAll_append {a b : List HostTxn} {s t : State} (h : issueAll a s = .next t) : issueAll (a ++ b) s = issueAll b t := by
  induction a generalizing s with
  | nil => cases h; rfl
  | cons x l ih =>
    simp only [issueAll] at h
    simp only [List.cons_append, issueAll]
    split at h
    · exact ih h
    · cases h
    · cases h

/-- `WS` into `DBUF` or `ROW`: the bytes stand there. -/
theorem issueAll_stringTxns (l : List Byte) (a : Nat) (s : State) (h : a + l.length ≤ 0x20 ∨ (0x40 ≤ a ∧ a + l.length ≤ 0x60)) :
    issueAll (stringTxns a l) s = .next (s.storeBytes a l) := by
  induction l generalizing a s with
  | nil => rfl
  | cons c l ih =>
    simp only [List.length_cons] at h
    simp only [stringTxns, dif_pos (show a < 256 by omega), issueAll]
    rw [issue_writeByte (by simp only; omega)]
    exact ih (a + 1) _ (by omega)

@[simp] theorem State.bytes_reply (s : State) (r : HostReply) (b : Buffer) (n : Nat) : (s.reply r).bytes b n = s.bytes b n := rfl

/-- What a list of reads returns joins the replies, and nothing else changes. -/
theorem issueAll_reads (l : List Nat) (s : State) (h : ∀ a ∈ l, a < 0x69) :
    issueAll (l.filterMap (fun a => if h : a < 256 then some (.rb ⟨a, h⟩) else none)) s
      = .next { s with replies := s.replies ++ l.map (fun a => .byte (s.readByte a)) } := by
  induction l generalizing s with
  | nil => simp [issueAll]
  | cons a l ih =>
    have ha : a < 0x69 := h a (by simp)
    rw [List.filterMap_cons_some (dif_pos (show a < 256 by omega))]
    simp only [issueAll]
    rw [issue_readByte ha]
    simp only [ih _ (fun b hb => h b (List.mem_cons_of_mem a hb))]
    simp only [State.reply, List.append_assoc, List.map_cons, List.singleton_append]
    rfl

/-- The reading of a result inside its buffer: the bytes of the buffer, in order (R98). -/
theorem issueAll_readBuffer {b : Buffer} {n : Nat} (s : State) (h : b.base + n ≤ 0x69) :
    issueAll (readBuffer b n) s = .next { s with replies := s.replies ++ (s.bytes b n).map HostReply.byte } := by
  have e : readBuffer b n
      = ((List.range n).map (b.base + ·)).filterMap (fun a => if h : a < 256 then some (.rb ⟨a, h⟩) else none) := by
    rw [List.filterMap_map]; rfl
  rw [e, issueAll_reads _ _ (by simp; omega)]
  simp [State.bytes, Function.comp_def]

/-! ## Source calls -/

theorem stringFits_iff (b : Buffer) (s : List Byte) : stringFits b s = true ↔ s.length ≤ b.cap := decide_eq_true_iff

theorem valueInRange_iff (v : Nat) : valueInRange v = true ↔ v < 2 ^ 32 := decide_eq_true_iff

theorem callValidate_loadable (id : List Byte) (e : Nat) :
    (callValidate id e).loadable = true ↔ id.length ≤ 32 ∧ e < 2 ^ 32 := by
  simp only [callValidate, Bool.and_eq_true, stringFits_iff, valueInRange_iff, Buffer.dbuf_cap]

theorem callChecksum_loadable (id : List Byte) (m n : Nat) :
    (callChecksum id m n).loadable = true ↔ id.length ≤ 32 ∧ m < 2 ^ 32 ∧ n < 2 ^ 32 := by
  simp only [callChecksum, Bool.and_eq_true, stringFits_iff, valueInRange_iff, Buffer.dbuf_cap, and_assoc]

theorem callMapDigits_loadable (d : List Byte) : (callMapDigits d).loadable = true ↔ d.length ≤ 32 := by
  simp only [callMapDigits, stringFits_iff, Buffer.dbuf_cap]

theorem callWriteRaster_loadable (tag : Word) (w h : Nat) (b : List Byte) :
    (callWriteRaster tag w h b).loadable = true ↔ b.length ≤ 32 ∧ w < 2 ^ 32 ∧ h < 2 ^ 32 := by
  simp only [callWriteRaster, Bool.and_eq_true, stringFits_iff, valueInRange_iff, Buffer.row_cap, and_assoc]

@[simp] theorem bytesOf_bytes (l : List Byte) : bytesOf (l.map HostReply.byte) = l := by
  induction l with
  | nil => rfl
  | cons b l ih => simp [bytesOf, ih]

/-- `RD STATUS`, and the host goes on with the word it returned. -/
theorem withStatus_eq {α : Type} (s : State) (k : Word → State → Host.Outcome α Fault Refusal) :
    withStatus s k = k s.statusWord (s.reply (.reg s.statusWord)) := by
  simp [withStatus, issue_readStatus, statusRead, State.reply]

theorem runCall_notLoadable {c : SourceCall} (h : c.loadable = false) (s : State) : runCall c s = .next (s, .notLoadable) := by
  simp [runCall, h]

/-- A call whose command failed: the status is all the host gets. -/
theorem runCall_error {c : SourceCall} {s t : State} (h : c.loadable = true) (hl : issueAll c.load s = .next t) (he : t.err ≠ 0) :
    runCall c s = .next (t.reply (.reg t.statusWord), .answered t.statusWord []) := by
  simp only [runCall, h, if_true, hl, withStatus_eq, State.statusWord_err, if_neg (show ¬ t.err = errSuccess from he)]

/-- A call whose result is the status alone. -/
theorem runCall_status {c : SourceCall} {s t : State} (h : c.loadable = true) (hl : issueAll c.load s = .next t)
    (hr : c.readBack = []) : runCall c s = .next (t.reply (.reg t.statusWord), .answered t.statusWord []) := by
  simp only [runCall, h, if_true, hl, withStatus_eq, readResult, hr, issueAll, List.drop_length, bytesOf, ite_self]

/-- A call whose command succeeded: the status, then the result's bytes. -/
theorem runCall_bytes {c : SourceCall} {s t : State} {b : Buffer} {n : Nat} (h : c.loadable = true)
    (hl : issueAll c.load s = .next t) (he : t.err = 0) (hr : c.readBack = readBuffer b n) (hb : b.base + n ≤ 0x69) :
    runCall c s = .next ({ t with replies := t.replies ++ .reg t.statusWord :: (t.bytes b n).map HostReply.byte },
      .answered t.statusWord (t.bytes b n)) := by
  simp only [runCall, h, if_true, hl, withStatus_eq, State.statusWord_err, if_pos (show t.err = errSuccess from he), readResult, hr,
    issueAll_readBuffer _ hb, List.drop_left, bytesOf_bytes, State.bytes_reply]
  simp [State.reply]

/-! ## `ENCODE` -/

/-- A host sequence that begins with `WS` into `DBUF`. -/
theorem runHost_string (l : List Byte) (a : Nat) (s : State) (rest : List HostAct) (h : a + l.length ≤ 0x20) :
    runHost ((stringTxns a l).map HostAct.io ++ rest) s = runHost rest (s.storeBytes a l) := by
  induction l generalizing a s with
  | nil => rfl
  | cons c l ih =>
    simp only [List.length_cons] at h
    simp only [stringTxns, dif_pos (show a < 256 by omega), List.map_cons, List.cons_append, runHost]
    rw [issue_writeByte (by simp only; omega)]
    exact ih (a + 1) _ (by omega)

theorem runHost_writeReg {r : OpReg} (h : hostWritesReg r = true) (n : Nat) (l : List HostAct) (s : State) :
    runHost (.io (writeReg r n) :: l) s = runHost l (s.setX r (BitVec.ofNat 32 n)) := by
  simp only [runHost, issue_writeReg h]

theorem runHost_command {i : Instr} {s t : State} (h : exec i s = .next t) (l : List HostAct) :
    runHost (.io (commandTxn i) :: l) s = runHost l t := by
  simp only [runHost, issue_command, h]

/-- Step 5 of rule R186. -/
theorem runHost_stopUnlessValid (l : List HostAct) (s : State) : runHost (.stopUnlessValid :: l) s
    = if s.err ≠ 0 ∨ s.v = false then .next (s.reply (.reg s.statusWord), .rejected)
      else runHost l (s.reply (.reg s.statusWord)) := by
  simp only [runHost, withStatus_eq, State.statusWord_err, State.statusWord_v]; rfl

/-- Steps 9 and 12 of rule R186. -/
theorem runHost_stopOnError (l : List HostAct) (s : State) : runHost (.stopOnError :: l) s
    = if s.err ≠ 0 then .next (s.reply (.reg s.statusWord), .failed s.err) else runHost l (s.reply (.reg s.statusWord)) := by
  simp only [runHost, withStatus_eq, State.statusWord_err]; rfl

/-- Step 20 of rule R186. -/
theorem runHost_end (s : State) :
    runHost [] s = .next (s.reply (.reg s.statusWord), if s.err = 0 then .success else .failed s.err) := by
  simp only [runHost, withStatus_eq, finalResult, State.statusWord_err]; rfl

/-- The model's test of the modulus before step 6 (log 23). -/
theorem runHost_stopUnlessFits {n : Nat} (l : List HostAct) (s : State) :
    runHost (.stopUnlessFits n :: l) s = if n < 2 ^ 32 then runHost l s else .next (s, .notLoadable) := by
  simp [runHost, valueInRange]

end Sys2Proof.Machine
end

