-- ==== Sys2Proof/Tests/Slice0.lean ====
section
/-! SUPPORT. Tests: well-formedness, decoding of words written out from rule R81, one-step tests with the results of
95_test_vectors.md (the vector's id stands in each comment), and for every statement with hypotheses a state and operands that meet
them. -/

namespace Sys2Proof.Tests

open Sys2Proof.Machine Sys2Proof.Spec

/-! ## Well-formedness: each check refuses an ill-formed term -/

theorem test_wf_register_number : AsmLine.wf (.wr 16 0) = false ∧ AsmLine.wf (.rd 16) = false ∧ AsmLine.wf (.rd 15) = true := by
  decide

theorem test_wf_register_value : AsmLine.wf (.wr 0 4294967296) = false ∧ AsmLine.wf (.wr 0 4294967295) = true := by decide

theorem test_wf_address : AsmLine.wf (.wb 256 0) = false ∧ AsmLine.wf (.rb 256) = false ∧ AsmLine.wf (.rb 255) = true := by decide

theorem test_wf_byte : AsmLine.wf (.wb 0 256) = false ∧ AsmLine.wf (.wbAt .dbuf 0 256) = false ∧ AsmLine.wf (.wb 0 255) = true := by
  decide

theorem test_wf_index : AsmLine.wf (.wbAt .cbuf 9 0) = false ∧ AsmLine.wf (.rbAt .grom 10) = false ∧ AsmLine.wf (.rbAt .grom 9) = true := by
  decide

theorem test_wf_string : AsmLine.wf (.ws .dbuf (List.replicate 33 0x30)) = false
    ∧ AsmLine.wf (.ws .dbuf (List.replicate 32 0x30)) = true := by decide

theorem test_wf_triple : Triple.wf ⟨.wr, 0, none⟩ = false ∧ Triple.wf ⟨.rd, 0, some 0⟩ = false ∧ Triple.wf ⟨.wb, 0, none⟩ = false
    ∧ Triple.wf ⟨.rb, 0, some 0⟩ = false ∧ Triple.wf ⟨.wr, 16, some 0⟩ = false ∧ Triple.wf ⟨.wb, 0, some 256⟩ = false
    ∧ Triple.wf ⟨.wr, 15, some 7⟩ = true := by decide

/-! ## Decoding: each command's word, bit 31 first, as rule R81 writes it -/

theorem test_decode_valid : decode 0b00000000000000000000000000000001#32 = .ok .valid := by decide

theorem test_decode_csum : decode 0b00000000000000000000000000000010#32 = .ok .csum := by decide

theorem test_decode_cat : decode 0b00000000000000000000000000000011#32 = .ok .cat := by decide

theorem test_decode_map : decode 0b00000000000000000000000000000100#32 = .ok .map := by decide

theorem test_decode_clrrow : decode 0b00000000000000000000000000000101#32 = .ok .clrrow := by decide

theorem test_decode_place : decode 0b00000000000000000000000000000110#32 = .ok .place := by decide

theorem test_decode_write : decode 0b00000000000000000000000000000111#32 = .ok .write := by decide

/-- X1 to X6: no command. -/
theorem test_decode_illegal : decode 0x00000000 = .error (.reservedOp 0x00) ∧ decode 0x00000008 = .error (.reservedOp 0x08)
    ∧ decode 0x000000FF = .error (.reservedOp 0xFF) ∧ decode 0x00000101 = .error (.zeroFieldSet 0x000001)
    ∧ decode 0x80000007 = .error (.zeroFieldSet 0x800000) ∧ decode 0xFFFFFFFF = .error (.zeroFieldSet 0xFFFFFF) := by decide

theorem test_decodeTableWord : decodeTableWord 32 7 = some .write ∧ decodeTableWord 32 0 = none ∧ decodeTableWord 32 0x107 = none := by
  decide

/-- The first bytes of Program 1 as triples (R97). -/
theorem test_triples : HostTxn.triple (.wb 1 0x33) = ⟨.wb, 0x01, some 0x33⟩ ∧ HostTxn.triple (.rd 14) = ⟨.rd, 14, none⟩
    ∧ (commandTxn .csum).triple = ⟨.wr, 15, some 2⟩
    ∧ AsmLine.triples (.ws .dbuf [0x35, 0x39]) = [⟨.wb, 0x00, some 0x35⟩, ⟨.wb, 0x01, some 0x39⟩] := by decide

/-! ## One step each -/

/-- Reset, then a string in `DBUF` with its length in `DLEN`. -/
def withString (l : List Byte) : State := (State.reset.storeBytes 0x00 l).setX .dlen (BitVec.ofNat 32 l.length)

/-- `"1337"` -/
def id1337 : List Byte := [0x31, 0x33, 0x33, 0x37]

/-- `withString` with the operands of `CSUM`. -/
def withModulus (l : List Byte) (m n : Word) : State := ((withString l).setX .modulus m).setX .outlen n

/-- A check code in `CBUF` with its length, as `CSUM` leaves one, beside a string. -/
def withCode (c l : List Byte) : State := ((withString l).storeBytes 0x60 c).setX .clen (BitVec.ofNat 32 c.length)

/-- The glyphs of `"561337"` in `PBUF` (M1), with an offset. -/
def withGlyphs (offset : Word) : State :=
  ((State.reset.storeBytes 0x20 [0xD5, 0xF5, 0x42, 0xD6, 0xD6, 0x46]).setX .plen 6).setX .offset offset

/-- Six bytes in `ROW` and an image of 12 by 3 pixels (W4), with the sink's next response. -/
def withImage (a : SinkResponse) : State :=
  { (((State.reset.storeBytes 0x40 [0xF7, 0xD0, 0x42, 0x00, 0xB6, 0xF0]).setX .width 12).setX .height 3).setX .tag 0xC0FFEE01 with
    sinkAnswers := [a] }

/-- A state with one transaction waiting. -/
def asked (t : HostTxn) (s : State) : State := s.setInputs [.txn t]

/-- A field of the state after a command. -/
def after {α : Type} (i : Instr) (s : State) (f : State → α) : Option α := (nextOf (exec i s)).map f

/-- V1 -/
theorem test_valid_accepts : after .valid ((withString id1337).setX .explen 4) State.statusWord = some 0x00000010 := by decide

/-- V3 `"a001"` -/
theorem test_valid_letter : after .valid ((withString [0x61, 0x30, 0x30, 0x31]).setX .explen 4) State.statusWord = some 0x00000000 := by
  decide

/-- S2 -/
theorem test_csum_1337 : after .csum (withModulus id1337 97 2) (fun t => (t.bytes .cbuf 9, t.x .clen, t.err))
    = some ([0x35, 0x36, 0, 0, 0, 0, 0, 0, 0], 2, 0) := by decide

/-- K17 `"6927694924"`: one above `VMAX` -/
theorem test_csum_overflow : after .csum (withModulus [0x36, 0x39, 0x32, 0x37, 0x36, 0x39, 0x34, 0x39, 0x32, 0x34] 97 2)
    (fun t => (t.err, t.x .clen)) = some (2, 0) := by decide

/-- T1 -/
theorem test_cat_prepends : after .cat (withCode [0x35, 0x36] id1337) (fun t => (t.bytes .dbuf 7, t.x .dlen))
    = some ([0x35, 0x36, 0x31, 0x33, 0x33, 0x37, 0x00], 6) := by decide

/-- T8: no wrap-around -/
theorem test_cat_no_wrap : after .cat ((withCode [0x35, 0x36] id1337).setX .dlen 0xFFFFFFFF) (fun t => (t.err, t.dbuf 0)) = some (7, 0x31) := by
  decide

/-- M1, first four glyphs -/
theorem test_map_1337 : after .map (withString id1337) (fun t => (t.bytes .pbuf 5, t.x .plen))
    = some ([0x42, 0xD6, 0xD6, 0x46, 0x00], 4) := by decide

/-- M14 `"133:"` -/
theorem test_map_unmappable : after .map (withString [0x31, 0x33, 0x33, 0x3A]) (fun t => (t.err, t.x .plen, t.pbuf 0)) = some (3, 0, 0x00) := by
  decide

/-- C1, on two bytes -/
theorem test_clrrow : after .clrrow (State.reset.storeBytes 0x40 [0xFF, 0xFF]) (fun t => (t.row 0, t.row 1, t.err)) = some (0x00, 0x00, 0) := by
  decide

/-- P3: exactly fits -/
theorem test_place_last : after .place (withGlyphs 26) (fun t => (t.row 25, t.row 26, t.row 31, t.err)) = some (0x00, 0xD5, 0x46, 0) := by
  decide

/-- P4: one too far, and no partial placement -/
theorem test_place_too_far : after .place (withGlyphs 27) (fun t => (t.row 27, t.err)) = some (0x00, 7) := by decide

/-- W4 -/
theorem test_write_rows : after .write (withImage .accepted) (fun t => (t.err, t.chanOpen, t.emitted.map RasterRecord.rows))
    = some (0, false, [[[0x08, 0x2F], [0xBD, 0xFF], [0x49, 0x0F]]]) := by decide

/-- W8: a product that wrapped at 32 bits would be accepted -/
theorem test_write_no_wrap : after .write (((withImage .accepted).setX .width 0xFFFFFFF9).setX .height 8) (fun t => (t.err, t.emitted, t.draws))
    = some (7, [], 0) := by decide

/-- X4: the low byte of `VALID`, and `VALID` does not run. -/
theorem test_illegal_word : (nextOf (step (asked (.wr 15 0x00000101) State.reset))).map State.statusWord = some 0x00000008 := by decide

/-- H4: `GROM` cannot be written. -/
theorem test_grom_constant : (nextOf (step (asked (.wb 0x70 0x00) State.reset))).map (fun t => t.readByte 0x70) = some 0x77 := by decide

/-- H1: `CLEN` cannot be written. -/
theorem test_clen_read_only : (nextOf (step (asked (.wr 8 5) State.reset))).map (fun t => t.x .clen) = some 0 := by decide

/-- H9 -/
theorem test_refused_reads : refusalOf (step (asked (.rd 15) State.reset)) = some .readCommandRegister
    ∧ refusalOf (step (asked (.rd 10) State.reset)) = some (.readReservedRegister 10)
    ∧ refusalOf (step (asked (.rb 0x80) State.reset)) = some (.readReservedAddress 0x80) := by decide

/-- The word the host places is the very next command (Z1). -/
theorem test_withFetchWord : (nextOf (step (State.reset.withFetchWord 32 1))).map State.statusWord = some 0x00000010 := by decide

/-! ## Witnesses: states and operands that meet the hypotheses of the statements -/

/-- A container: width and height in unary. -/
def unaryContainer : Container where
  frame r := List.replicate r.header.width 0x01 ++ 0x00 :: List.replicate r.header.height 0x01
  read l := some ⟨(l.takeWhile (· == 0x01)).length, (l.dropWhile (· == 0x01)).length - 1, .one, .gray⟩
  recovers r := by
    obtain ⟨_, ⟨w, h, d, c, _, _, _⟩, _⟩ := r
    cases d; cases c
    simp

theorem witness_IllegalWordOnlySetsErr :
    (asked (.wr 15 0x00000000) State.reset).inputs = [.txn (.wr 15 0x00000000)] ∧ (0x00000000 : Word).toNat = 0
    ∧ (asked (.wr 15 0x00000008) State.reset).inputs = [.txn (.wr 15 0x00000008)] ∧ 7 < (0x00000008 : Word).toNat := by decide

theorem witness_StepRunsDecodedCommand : decode 0x00000007 = .ok .write
    ∧ (asked (.wr 15 0x00000007) (withImage .accepted)).inputs = [.txn (.wr 15 0x00000007)] := by decide

theorem witness_TransactionTriplesRoundTrip : Triple.wf ⟨.wr, 15, some 4294967295⟩ = true ∧ Triple.wf ⟨.rb, 255, none⟩ = true
    ∧ AsmLine.wf (.wbAt .row 31 255) = true ∧ AsmLine.wf (.cmd .map) = true := by decide

/-- 32 and 33 characters; the digits hold and do not hold. -/
theorem witness_ValidCommand : (withString (List.replicate 32 0x39)).xNat .dlen ≤ 32 ∧ 32 < (State.reset.setX .dlen 33).xNat .dlen := by
  decide

/-- K1; K29, K27 (both ends of a range); K23; K17. -/
theorem witness_CsumCommand :
    (¬ csumRangeFails 4294967295 (withModulus id1337 97 2) ∧ allDigits (withModulus id1337 97 2)
      ∧ stringValue (withModulus id1337 97 2) ≤ 4294967295)
    ∧ (¬ csumRangeFails 4294967295 (withModulus id1337 4294967295 9) ∧ csumRangeFails 4294967295 (withModulus id1337 97 10)
      ∧ csumRangeFails 4294967295 (withModulus id1337 0 2) ∧ csumRangeFails 4294967295 ((withModulus id1337 97 2).setX .dlen 33))
    ∧ (¬ csumRangeFails 4294967295 (withModulus [0x31, 0x32, 0x20] 97 2) ∧ ¬ allDigits (withModulus [0x31, 0x32, 0x20] 97 2)) := by
  decide

/-- K17 -/
theorem witness_CsumCommand_overflow :
    let s := withModulus [0x36, 0x39, 0x32, 0x37, 0x36, 0x39, 0x34, 0x39, 0x32, 0x34] 97 2
    ¬ csumRangeFails 4294967295 s ∧ allDigits s ∧ 4294967295 < stringValue s := by decide

/-- T6 (exactly full) and T7 (one too many) -/
theorem witness_CatCommand :
    (¬ catRangeFails (withCode [0x35, 0x36] (List.replicate 30 0x31)) ∧ (withCode [0x35, 0x36] (List.replicate 30 0x31)).xNat .clen ≤ 9)
    ∧ catRangeFails ((withCode [0x35, 0x36] id1337).setX .dlen 31) ∧ catRangeFails State.reset := by decide

theorem witness_MapCommand :
    ((withString (List.replicate 32 0x38)).xNat .dlen ≤ 32 ∧ allDigits (withString (List.replicate 32 0x38)))
    ∧ 32 < (State.reset.setX .dlen 33).xNat .dlen
    ∧ (withString [0x31, 0x33, 0x33, 0x3A]).xNat .dlen ≤ 32 ∧ ¬ allDigits (withString [0x31, 0x33, 0x33, 0x3A]) := by decide

theorem witness_PlaceCommand : ¬ placeRangeFails (withGlyphs 26) ∧ placeRangeFails (withGlyphs 27) ∧ placeRangeFails State.reset := by
  decide

theorem witness_WriteCommand :
    ¬ writeRangeFails (withImage .accepted) ∧ (withImage .accepted).nextResponse = .accepted
    ∧ (withImage .openFailed).nextResponse = .openFailed ∧ (withImage .initFailed).nextResponse = .initFailed
    ∧ (withImage .rowFailed).nextResponse = .rowFailed
    ∧ writeRangeFails ((withImage .accepted).setX .width 257) ∧ writeRangeFails State.reset
    ∧ ¬ writeRangeFails (((withImage .accepted).setX .width 256).setX .height 1)
    ∧ (0 : Word) ≠ (withImage .accepted).x .tag := by decide

theorem witness_EveryCommandWriteCompletes : (asked (.wr 15 0xFFFFFFFF) State.reset).inputs = [.txn (.wr 15 0xFFFFFFFF)] := by decide

/-- The error of one run of each kind: 0 to 7, the codes of the seven commands. -/
theorem witness_ErrorCausesAndPriority :
    after .valid (State.reset.setX .dlen 33) State.err = some 7 ∧ after .csum (withModulus [0x78] 97 2) State.err = some 1
    ∧ after .cat State.reset State.err = some 7 ∧ after .map (withString [0x3A]) State.err = some 3
    ∧ after .clrrow State.reset State.err = some 0 ∧ after .place State.reset State.err = some 7
    ∧ after .write (withImage .openFailed) State.err = some 4 ∧ after .write (withImage .rowFailed) State.err = some 6 := by decide

theorem witness_FailingCommandWrites : after .csum State.reset (fun t => decide (t.err ≠ 0)) = some true
    ∧ after .map (withString [0x3A]) (fun t => decide (t.err ≠ 0)) = some true
    ∧ after .place State.reset (fun t => decide (t.err ≠ 0)) = some true
    ∧ after .write (withImage .initFailed) State.err = some 5 ∧ after .write (withImage .openFailed) State.err = some 4 := by decide

/-- Every difference that the statement excepts does occur. -/
theorem witness_CommandWriteSets : after .csum (withModulus id1337 97 2) (fun t => (t.x .clen, t.cbuf 0)) = some (2, 0x35)
    ∧ after .cat (withCode [0x35] id1337) (fun t => (t.x .dlen, t.dbuf 0)) = some (5, 0x35)
    ∧ after .map (withString [0x37]) (fun t => (t.x .plen, t.pbuf 0)) = some (1, 0x46)
    ∧ after .place (withGlyphs 0) (fun t => t.row 0) = some 0xD5 ∧ after .valid State.reset State.v = some true
    ∧ after .write { withImage .accepted with chanOpen := true } State.chanOpen = some false
    ∧ after .write (withImage .accepted) (fun t => t.emitted.length) = some 1 := by decide

/-- Two different states that agree on what `CSUM` reads; likewise `WRITE`, whose image is the first six bytes of `ROW`. -/
theorem witness_CommandReadSets :
    readsAgree .csum (withModulus id1337 97 2) { (withModulus id1337 97 2).setX .plen 5 with err := 3, v := true }
    ∧ readsAgree .write (withImage .rowFailed) (((withImage .rowFailed).storeBytes 0x00 [0x41]).storeBytes 0x46 [0xAA])
    ∧ (nextOf (exec .csum (withModulus id1337 97 2))).isSome = true ∧ (nextOf (exec .write (withImage .rowFailed))).isSome = true := by
  simp only [readsAgree]; decide

theorem witness_FlagsNotReadByCommands :
    (nextOf (step (asked (.wr 15 0x00000001) State.reset))).map State.err = some 0
    ∧ (nextOf (step (asked (.wr 15 0x00000001) (State.reset.setX .dlen 33)))).map State.err = some 7
    ∧ (nextOf (step (asked (.wr 15 0x00000005) State.reset))).map State.err = some 0 := by decide

theorem witness_ReversedValueWeights : id1337 ≠ [] ∧ (∀ c ∈ id1337, digitByte c) ∧ reversedValue id1337 = 7331 := by decide

/-- Both sides of the integer range: `"1337"`, and K17, one above it. -/
theorem witness_DigitSerialFormAgrees : reversedValue id1337 ≤ 4294967295
    ∧ 4294967295 < reversedValue [0x36, 0x39, 0x32, 0x37, 0x36, 0x39, 0x34, 0x39, 0x32, 0x34]
    ∧ accumulate 4294967295 0 id1337.reverse = some 7331
    ∧ accumulate 4294967295 0 [0x34, 0x32, 0x39, 0x34, 0x39, 0x36, 0x37, 0x32, 0x39, 0x36] = none := by decide

theorem witness_DecimalText : (1 ≤ 2 ∧ 8 < 10 ^ 2 ∧ decText 2 8 = [0x30, 0x38]) ∧ (1 ≤ 1 ∧ 0 < 10 ^ 1 ∧ decText 1 0 = [0x30])
    ∧ (1 ≤ 9 ∧ 999999999 < 10 ^ 9 ∧ num (decText 9 999999999) = 999999999) := by decide

theorem witness_OverflowDecidedByValue : 10 ^ 9 ≤ 1000000000 ∧ ¬ csumRangeFails 1000000000 (withModulus id1337 97 2)
    ∧ allDigits (withModulus id1337 97 2) ∧ (withModulus id1337 97 2).xNat .dlen ≤ 9 := by decide

theorem witness_ChecksumHasOutlenDigits : after .csum (withModulus id1337 97 9) (fun t => (t.err, t.cbuf 8)) = some (0, 0x36) := by
  decide

theorem witness_MappingIsLaneByLane : mapDigits [0x31] = .ok [0x42] ∧ mapDigits [0x38, 0x30] = .ok [0xF7, 0x77]
    ∧ ∃ c ∈ [0x31, 0x41#8], ¬ digitByte c := by decide

/-- Accepted for serialization and not. -/
theorem witness_WritePreconditions : after .write (withImage .rowFailed) (fun t => decide (t.err ≠ 7)) = some true
    ∧ after .write ((withImage .accepted).setX .width 129) (fun t => decide (t.err = 7)) = some true := by decide

/-- Also of ChannelClosedOnEveryPath. -/
theorem witness_EmittedPixelsInverted : after .write (withImage .accepted) (fun t => (t.err, t.chanOpen)) = some (0, false)
    ∧ (withImage .accepted).chanOpen = false ∧ after .clrrow (withImage .accepted) State.chanOpen = some false := by decide

/-- Two different states with equal inputs of `WRITE`. -/
theorem witness_EqualWritesEmitEqualRecords : after .write (withImage .accepted) State.err = some 0
    ∧ after .write ((withImage .accepted).storeBytes 0x46 [0xAA]) State.err = some 0
    ∧ ∀ k < (withImage .accepted).xNat .height * (((withImage .accepted).xNat .width + 7) / 8),
        ((withImage .accepted).storeBytes 0x46 [0xAA]).row k = (withImage .accepted).row k := by decide

theorem witness_ReaderRecoversHeader :
    after .write (((withImage .accepted).setX .width 256).setX .height 1) State.err = some 0
    ∧ (((withImage .accepted).setX .width 256).setX .height 1).xNat .width = 256
    ∧ (((withImage .accepted).setX .width 256).setX .height 1).xNat .height = 1
    ∧ (unaryContainer.read (fileOf unaryContainer (serialize 3 1 [0xD5] 0))).map ReaderReport.width = some 3 := by decide

/-- W15 then W1, the second response laid down as accepted; likewise after the other two failures. -/
theorem witness_RetrySerializesSameRecord :
    after .write { withImage .rowFailed with sinkAnswers := [.rowFailed, .accepted] } (fun t => (t.err, t.nextResponse)) = some (6, .accepted)
    ∧ after .write { withImage .rowFailed with sinkAnswers := [.initFailed, .accepted] } (fun t => (t.err, t.nextResponse))
      = some (5, .accepted)
    ∧ after .write { withImage .rowFailed with sinkAnswers := [.openFailed, .accepted] } (fun t => (t.err, t.nextResponse))
      = some (4, .accepted) := by decide

theorem witness_SinkPortTraffic : after .write (withImage .openFailed) (fun t => t.sinkPort.length) = some 1
    ∧ after .write (withImage .initFailed) (fun t => (t.err, t.sinkPort.length)) = some (5, 3)
    ∧ after .write (withImage .rowFailed) (fun t => (t.err, t.sinkPort.length)) = some (6, 4)
    ∧ after .write (withImage .accepted) (fun t => (t.err, t.sinkPort.length)) = some (0, 4)
    ∧ after .write State.reset (fun t => (t.err, t.sinkPort.length)) = some (7, 0)
    ∧ after .clrrow State.reset (fun t => t.sinkPort.length) = some 0 := by decide

/-- A number that stores, one that does not, the last before `CMD`. -/
theorem witness_HostRegisterWrite : (asked (.wr 7 0xFFFFFFFF) State.reset).inputs = [.txn (.wr 7 0xFFFFFFFF)] ∧ (7 : Fin 16).val < 15
    ∧ (asked (.wr 8 5) State.reset).inputs = [.txn (.wr 8 5)] ∧ (14 : Fin 16).val < 15 := by decide

theorem witness_HostRegisterRead : (asked (.rd 9) State.reset).inputs = [.txn (.rd 9)] ∧ OpReg.plen.number.val = (9 : Fin 16).val
    ∧ (14 : Fin 16).val = 14 ∧ 10 ≤ (10 : Fin 16).val ∧ (13 : Fin 16).val ≤ 13 ∧ (15 : Fin 16).val = 15 := by decide

/-- Both edges of the two writable regions. -/
theorem witness_HostByteWrite : (asked (.wb 0x1F 0x41) State.reset).inputs = [.txn (.wb 0x1F 0x41)] ∧ (0x1F : Fin 256).val < 0x20
    ∧ 0x40 ≤ (0x40 : Fin 256).val ∧ (0x5F : Fin 256).val < 0x60 := by decide

/-- Each region at its first and its last address, and both reserved ranges. -/
theorem witness_HostByteRead : (asked (.rb 0x79) State.reset).inputs = [.txn (.rb 0x79)] ∧ (0x1F : Fin 256).val < 0x20
    ∧ 0x20 ≤ (0x20 : Fin 256).val ∧ (0x3F : Fin 256).val < 0x40 ∧ 0x40 ≤ (0x40 : Fin 256).val ∧ (0x5F : Fin 256).val < 0x60
    ∧ 0x60 ≤ (0x60 : Fin 256).val ∧ (0x68 : Fin 256).val < 0x69 ∧ 0x70 ≤ (0x70 : Fin 256).val ∧ (0x79 : Fin 256).val < 0x7A
    ∧ 0x69 ≤ (0x69 : Fin 256).val ∧ (0x6F : Fin 256).val < 0x70 ∧ 0x7A ≤ (0x7A : Fin 256).val := by decide

/-- Also of RepeatedWriteEqualsOne. -/
theorem witness_ReadReturnsLatestWrite : (0x1F : Fin 256).val < 0x20 ∧ 0x40 ≤ (0x40 : Fin 256).val ∧ (0x5F : Fin 256).val < 0x60
    ∧ (7 : Fin 16).val < 8 ∧ (14 : Fin 16).val < 15 := by decide

theorem witness_ResetEvent : (State.reset.setInputs [.reset]).inputs = [.reset] := by decide

/-- Also of StorageStaysCanonical and OutputStreamGrowsByAcceptedWrites: a step that emits, from a state with the invariants. -/
theorem witness_InvariantKeptByEveryStep : Inv (asked (.wr 15 0x00000007) (withImage .accepted))
    ∧ Canonical (asked (.wr 15 0x00000007) (withImage .accepted))
    ∧ (nextOf (step (asked (.wr 15 0x00000007) (withImage .accepted)))).map (fun t => t.emitted.length) = some 1 := by decide

theorem witness_CanonicalMemoriesAreEqual : Memory.wf (withString id1337).mem = true
    ∧ Memory.wf (Memory.writeFrom [] 0x00 [0x31, 0x33, 0x33, 0x37, 0x00]) = true
    ∧ (withString id1337).mem = Memory.writeFrom [] 0x00 [0x31, 0x33, 0x33, 0x37, 0x00] := by decide

/-- What the host of a source call is left with. -/
def resultOf (c : SourceCall) (s : State) : Option CallResult :=
  match runCall c s with
  | .next (_, r) => some r
  | .fault _ => none
  | .refused _ => none

/-- S2, M1 (first glyph) and V3 as source calls. -/
theorem test_sourceCalls : resultOf (callChecksum id1337 97 2) State.reset = some (.answered 0 [0x35, 0x36])
    ∧ resultOf (callMapDigits [0x35]) State.reset = some (.answered 0 [0xD5])
    ∧ resultOf (callValidate [0x61, 0x30, 0x30, 0x31] 4) State.reset = some (.answered 0 []) := by decide

/-- Each clause, at the ends of its ranges: 32 characters, the largest 32-bit numbers, 9 characters out, an image that fills its buffer
exactly. -/
theorem witness_SourceCallsComputeTheirFunctions : (List.replicate 32 0x39#8).length ≤ 32 ∧ 4294967295 < 2 ^ 32
    ∧ id1337 ≠ [] ∧ 1 ≤ 97 ∧ 1 ≤ 9 ∧ 9 ≤ 9 ∧ 9 < 10 ∧ checksum 4294967295 id1337 97 2 = .ok [0x35, 0x36]
    ∧ mapDigits [0x37] = .ok [0x46]
    ∧ (List.replicate 6 0xFF#8).length ≤ 32 ∧ 3 * ((12 + 7) / 8) ≤ (List.replicate 6 0xFF#8).length
    ∧ 1 * ((256 + 7) / 8) ≤ (List.replicate 32 0xFF#8).length ∧ 32 < 1 * ((257 + 7) / 8) := by
  decide

/-- The failing clauses of the same statement. -/
theorem witness_SourceCalls_failures : checksum 4294967295 [0x61] 97 2 = .error .invalidInput
    ∧ mapDigits [0x41] = .error .unmappableCharacter ∧ (withImage .initFailed).nextResponse = .initFailed
    ∧ resultOf (callChecksum [] 97 2) State.reset = some (.answered 7 []) := by
  decide

/-- 32 and 33 characters; a number that has 32 bits and one that has not. -/
theorem witness_UnloadableArgumentsIssueNothing :
    resultOf (callMapDigits (List.replicate 33 0x30)) State.reset = some .notLoadable
    ∧ resultOf (callValidate [] 4294967296) State.reset = some .notLoadable
    ∧ resultOf (callValidate [] 4294967295) State.reset = some (.answered 0 [])
    ∧ id1337.length = 4 ∧ (∀ c ∈ id1337, digitByte c) ∧ 2 ^ 32 ≤ 4294967296 := by decide

/-- R94's two examples: `"1337"` and `"0001"`. -/
theorem witness_TagsDetermineIds : idTag id1337 = 0x31333337 ∧ idTag [0x30, 0x30, 0x30, 0x31] = 0x30303031 ∧ id1337.length = 4 := by
  decide

theorem witness_EncodeRejectsMalformedIds : [0x31, 0x33, 0x33#8].length ≠ 4 ∧ ∃ c ∈ [0x61, 0x30, 0x30, 0x31#8], ¬ digitByte c := by
  decide

theorem witness_EncodeReferenceArtifact : 1 ≤ 97 ∧ 97 ≤ 4294967295 ∧ digitByte 0x31 ∧ digitByte 0x30 ∧ digitByte 0x39
    ∧ (withImage .accepted).nextResponse = .accepted ∧ (withImage .openFailed).nextResponse = .openFailed
    ∧ (withImage .initFailed).nextResponse = .initFailed ∧ (withImage .rowFailed).nextResponse = .rowFailed := by decide

end Sys2Proof.Tests
end

section
/-! PROOFS. A host byte write: what a step on `WB` does inside and outside the two buffers the host may write (R55 to R57). -/

namespace Sys2Proof.Machine

/-- A host transaction that waits is issued by the next step (R65, R70). -/
theorem step_txn {s : State} {t : HostTxn} {rest : List Input} (h : s.inputs = .txn t :: rest) :
    step s = issue t (s.setInputs rest) := by
  rw [step_input h, takeInput, issue_eq]

/-- The addresses of the buffers the host may write are those of `DBUF` and of `ROW` (R55). -/
theorem hostWritesBuffer_bufferAt {a : Nat} {u : Buffer} (h : bufferAt a = some u) :
    hostWritesBuffer u = true ↔ a < 0x20 ∨ (0x40 ≤ a ∧ a < 0x60) := by
  unfold bufferAt at h
  split_ifs at h <;> cases h
  all_goals
    simp only [hostWritesBuffer, true_iff, reduceCtorEq, false_iff]
    omega

/-- `WB` to any other address: the write completes and changes nothing (R56, R57). -/
theorem issue_writeByte_ignored {a : Fin 256} (h : ¬ (a.val < 0x20 ∨ (0x40 ≤ a.val ∧ a.val < 0x60))) (b : Byte) (s : State) :
    issue (.wb a b) s = .next s := by
  rw [issue_eq, transact, hostWriteByte]
  cases hu : bufferAt a.val with
  | none => rfl
  | some u => exact congrArg Host.Outcome.next (if_neg (mt (hostWritesBuffer_bufferAt hu).mp h))

/-- Reading a byte after one byte was stored at an address that holds one (R66). -/
theorem State.readByte_storeBytes_singleton (s : State) {a : Nat} (h : a < 0x69) (b : Byte) (c : Nat) :
    (s.storeBytes a [b]).readByte c = if c = a then b else s.readByte c := by
  rw [s.readByte_storeBytes_in (l := [b]) (by simpa using h)]
  by_cases hc : c = a
  · simp [hc]
  · rw [if_neg hc, if_neg (by simp only [List.length_singleton]; omega)]

end Sys2Proof.Machine

namespace Sys2Proof.Proofs

open Sys2Proof.Machine

/-- Settles O36: at a writable address the step is a store of one byte, at any other it only takes the transaction. -/
theorem hostByteWrite : Obligations.HostByteWrite := by
  intro s a b rest hin
  rw [step_txn hin]
  by_cases hw : a.val < 0x20 ∨ (0x40 ≤ a.val ∧ a.val < 0x60)
  · refine ⟨_, issue_writeByte hw b _, rfl, fun c => ?_, fun _ _ => rfl, rfl, rfl, rfl, ⟨rfl, rfl, rfl, rfl, rfl⟩, rfl⟩
    simp only [State.readByte_storeBytes_singleton _ (show a.val < 0x69 by omega), State.readByte_setInputs, hw, and_true]
  · refine ⟨_, issue_writeByte_ignored hw b _, rfl, fun c => ?_, fun _ _ => rfl, rfl, rfl, rfl, ⟨rfl, rfl, rfl, rfl, rfl⟩, rfl⟩
    simp only [State.readByte_setInputs, hw, and_false, if_false]

end Sys2Proof.Proofs
end

section
/-! PROOFS. The command encoding: a word is the command whose encoding it equals, and no other (R80 to R82). -/

namespace Sys2Proof

/-- The fields of every command's word (R80, R81). -/
theorem encodingFields : ∀ i : Instr, Laws.EncodingFields.Statement i
  | .valid => Laws.EncodingFields.valid
  | .csum => Laws.EncodingFields.csum
  | .cat => Laws.EncodingFields.cat
  | .map => Laws.EncodingFields.map
  | .clrrow => Laws.EncodingFields.clrrow
  | .place => Laws.EncodingFields.place
  | .write => Laws.EncodingFields.write

/-- `ZERO` and `OP` are all of a command word (R80). -/
theorem word_eq_of_fields_eq {w u : Word} (hz : zeroField w = zeroField u) (ho : opField w = opField u) : w = u := by
  have hz := congrArg BitVec.toNat hz
  have ho := congrArg BitVec.toNat ho
  simp only [zeroField, opField, BitVec.extractLsb'_toNat, Nat.shiftRight_eq_div_pow] at hz ho
  apply BitVec.eq_of_toNat_eq
  omega

/-- An operation code stands for one command, the one it is the code of (R81). -/
theorem decodeOp_eq_some_iff {op : Byte} {i : Instr} : decodeOp op = some i ↔ op = opcode i := by
  constructor
  · intro h
    unfold decodeOp at h
    split at h <;> cases h
    all_goals exact BitVec.eq_of_toNat_eq ‹_›
  · rintro rfl
    cases i <;> rfl

/-- What the decoder accepts: `ZERO` clear and the command's code in `OP` (R81, R82). -/
theorem decode_eq_ok_iff_fields {w : Word} {i : Instr} : decode w = .ok i ↔ zeroField w = 0 ∧ opField w = opcode i := by
  rw [← decodeOp_eq_some_iff, decode]
  by_cases hz : zeroField w = 0
  · rw [if_pos hz]
    cases decodeOp (opField w) <;> simp [hz]
  · rw [if_neg hz]
    exact iff_of_false nofun fun h => hz h.1

/-- The decoder tests the whole word (R81). -/
theorem decode_eq_ok_iff {w : Word} {i : Instr} : decode w = .ok i ↔ w = encode i := by
  obtain ⟨-, hz, ho, -⟩ := encodingFields i
  rw [decode_eq_ok_iff_fields]
  constructor
  · rintro ⟨hwz, hwo⟩
    exact word_eq_of_fields_eq (hwz.trans hz.symm) (hwo.trans ho.symm)
  · rintro rfl
    exact ⟨hz, ho⟩

/-- The decoder reads back every encoded command (R81). -/
@[simp] theorem decode_encode (i : Instr) : decode (encode i) = .ok i := decode_eq_ok_iff.mpr rfl

/-- A command's word, as a number, is its operation code (R80, R81). -/
theorem encode_toNat (i : Instr) : (encode i).toNat = (opcode i).toNat :=
  (BitVec.toNat_append 0#24 (opcode i)).trans (by simp)

/-- The command words are among 1 to 7 (R81). -/
theorem encode_toNat_bounds (i : Instr) : 1 ≤ (encode i).toNat ∧ (encode i).toNat ≤ 7 := by
  obtain ⟨-, -, -, hlo, hhi⟩ := encodingFields i
  rw [encode_toNat]
  exact ⟨hlo, hhi⟩

/-- Each row of the command table has the full mask and its command's word (R81). -/
theorem commandTable_row {row : CommandRow} (h : row ∈ commandTable) : row = ⟨BitVec.allOnes 32, encode row.instr, row.instr⟩ := by
  revert row; decide

/-- Each command has a row in the command table (R81). -/
theorem mem_commandTable (i : Instr) : ⟨BitVec.allOnes 32, encode i, i⟩ ∈ commandTable := by cases i <;> decide

/-- A word matches a row of a command exactly when it is the command's word (R81). -/
theorem exists_commandTable_match_iff {w : Word} {i : Instr} :
    (∃ row ∈ commandTable, row.instr = i ∧ w &&& row.mask = row.pattern) ↔ w = encode i := by
  constructor
  · rintro ⟨row, hrow, rfl, hw⟩
    rwa [commandTable_row hrow, BitVec.and_allOnes] at hw
  · rintro rfl
    exact ⟨_, mem_commandTable i, rfl, BitVec.and_allOnes⟩

/-- A word that is 0 or above 7 is no command (R82). -/
theorem decode_illegal {w : Word} (h : w.toNat = 0 ∨ 7 < w.toNat) : ∃ e, decode w = .error e := by
  cases hd : decode w with
  | error e => exact ⟨e, rfl⟩
  | ok i =>
    have hi := encode_toNat_bounds i
    rw [← decode_eq_ok_iff.mp hd] at hi
    omega

end Sys2Proof

namespace Sys2Proof.Proofs

open Sys2Proof.Machine

/-- Settles O2: the decoder and the table both accept exactly the encoding of the command. -/
theorem decoderMatchesCommandTable : Obligations.DecoderMatchesCommandTable := by
  intro w i
  obtain ⟨hwf, -⟩ := encodingFields i
  exact ⟨decode_eq_ok_iff.trans exists_commandTable_match_iff.symm, decode_encode i, hwf⟩

/-- Settles O4: no command's word is 0 or above 7, so the write of `CMD` takes the illegal-word branch. -/
theorem illegalWordOnlySetsErr : Obligations.IllegalWordOnlySetsErr := by
  intro s w rest hin hw
  obtain ⟨e, he⟩ := decode_illegal hw
  rw [step_command hin, commandWrite_illegal he]
  rfl

end Sys2Proof.Proofs
end

section
/-! PROOFS. Fixed-width decimal text: its recursion on the width, and its relation to the digits of the number (R86). -/

namespace Sys2Proof.Machine

/-- The character `decText` has at each place (R86). -/
theorem decText_getElem? {n j : Nat} (c : Nat) (h : j < n) : (decText n c)[j]? = some (chr (c / 10 ^ (n - 1 - j) % 10)) := by
  simp [decText, h]

/-- One more character of width is the last digit, behind the text of the rest of the number. -/
theorem decText_succ (n c : Nat) : decText (n + 1) c = decText n (c / 10) ++ [chr (c % 10)] := by
  have hpow : ∀ j < n, c / 10 ^ (n - j) = c / 10 / 10 ^ (n - 1 - j) := fun j hj => by
    rw [Nat.div_div_eq_div_mul, ← Nat.pow_succ', show (n - 1 - j).succ = n - j by omega]
  simp only [decText, List.range_succ, List.map_append, List.map_cons, List.map_nil, Nat.add_sub_cancel, Nat.sub_self,
    Nat.pow_zero, Nat.div_one]
  congr 1
  exact List.map_congr_left fun j hj => by rw [hpow j (List.mem_range.mp hj)]

/-- The text of a number that fits is its digits, most significant first, behind zeros that fill the width. The number 0 has no
digits here. -/
theorem decText_eq_zeros_append_digits {n c : Nat} (h : c < 10 ^ n) :
    decText n c = List.replicate (n - (Nat.digits 10 c).length) 0x30 ++ (Nat.digits 10 c).reverse.map chr := by
  induction n generalizing c with
  | zero =>
    obtain rfl : c = 0 := by simpa using h
    rfl
  | succ n ih =>
    rw [decText_succ, ih (by rw [Nat.pow_succ] at h; omega)]
    by_cases hc : c = 0
    · subst hc
      simp [List.replicate_succ', chr]
    · rw [Nat.digits_eq_cons_digits_div (by decide) hc]
      simp

end Sys2Proof.Machine

namespace Sys2Proof.Proofs

open Sys2Proof.Machine

/-- Settles O20: the zeros in front of the digits are the padding, except that the text of 0 keeps one of them as its own. -/
theorem decimalTextIsPaddedText : Obligations.DecimalTextIsPaddedText := by
  intro n c hn hc
  refine ⟨decText_length n c, fun j hj => decText_getElem? c hj, ?_⟩
  rw [decText_eq_zeros_append_digits hc]
  by_cases h0 : c = 0
  · obtain ⟨m, rfl⟩ := Nat.exists_eq_add_of_le' hn
    simp [h0, List.replicate_succ']
  · have hpos : 1 ≤ (Nat.digits 10 c).length := List.length_pos_iff.mpr (Nat.digits_ne_nil_iff_ne_zero.mpr h0)
    rw [if_neg h0, max_eq_right hpos]

end Sys2Proof.Proofs
end

section
/-! PROOFS. The reversed value: its recursion on the string, its weights and its bound (R111). -/

namespace Sys2Proof.Machine

/-- A character in front has weight 1 and moves every other character one place up (R111). -/
theorem reversedValue_cons (c : Byte) (s : List Byte) : reversedValue (c :: s) = digit c + 10 * reversedValue s := by
  simp only [reversedValue, List.reverse_cons, num_append, num, List.length_singleton, List.length_nil]
  omega

/-- Character `i` has weight `10^i` (R111). -/
theorem reversedValue_eq_sum (s : List Byte) : reversedValue s = ∑ i ∈ Finset.range s.length, digit (s.getD i 0x00) * 10 ^ i := by
  induction s with
  | nil => rfl
  | cons c s ih =>
    rw [reversedValue_cons, ih, List.length_cons, Finset.sum_range_succ', Finset.mul_sum, Nat.add_comm]
    congr 1
    · exact Finset.sum_congr rfl fun i _ => by rw [List.getD_cons_succ, Nat.pow_succ]; ring
    · simp

/-- A zero at the end becomes a leading zero of the number that is read (R111). -/
theorem reversedValue_append_zero (s : List Byte) : reversedValue (s ++ [0x30]) = reversedValue s := by
  simp [reversedValue, num, digit]

/-- A digit string of `L` characters is worth less than `10^L` (R111). -/
theorem reversedValue_lt {s : List Byte} (h : s.all isDigit = true) : reversedValue s < 10 ^ s.length := by
  induction s with
  | nil => decide
  | cons c s ih =>
    obtain ⟨hc, hs⟩ := (Bool.and_eq_true _ _).mp h
    have hd := digit_lt hc
    have hv := ih hs
    rw [reversedValue_cons, List.length_cons, Nat.pow_succ]
    omega

end Sys2Proof.Machine

namespace Sys2Proof.Proofs

open Sys2Proof.Machine

/-- Settles O19: the weights by induction on the string, the zeros from what one character more does to the value. -/
theorem reversedValueWeights : Obligations.ReversedValueWeights := by
  intro s _ _
  exact ⟨reversedValue_eq_sum s, reversedValue_append_zero s, (reversedValue_cons 0x30 s).trans (Nat.zero_add _)⟩

end Sys2Proof.Proofs
end

section
/-! PROOFS. The command `CSUM`: its operand in the words of the rules, what each of its two ends leaves, and its four outcomes
(R113, R114, R117, R196). -/

namespace Sys2Proof.Machine

open Sys2Proof.Spec

/-! ## The string operand -/

/-- The rules' digit test is the digit test over the string operand (R84). -/
theorem digitString_all_iff_allDigits (s : State) : s.digitString.all isDigit = true ↔ allDigits s := by
  simp only [State.digitString_all, isDigit_iff]

/-- The value of the string operand, read off `DBUF` (R111). -/
theorem reversedValue_digitString (s : State) : reversedValue s.digitString = stringValue s := by
  rw [reversedValue_eq_sum, State.digitString_length]
  refine Finset.sum_congr rfl fun i hi => ?_
  rw [State.digitString, State.bytes_getD _ _ _ _ (Finset.mem_range.mp hi)]
  rfl

/-- A string operand of `L` digits is worth less than `10^L` (R111). -/
theorem stringValue_lt {s : State} (h : allDigits s) : stringValue s < 10 ^ s.xNat .dlen := by
  have hv := reversedValue_lt ((digitString_all_iff_allDigits s).mpr h)
  rwa [reversedValue_digitString, State.digitString_length] at hv

/-! ## What `CSUM` leaves -/

/-- A `CSUM` that succeeds with the text `r` (R113). -/
def csumSuccess (r : List Byte) (s : State) : State :=
  ((s.storeBytes 0x60 (r ++ List.replicate (9 - s.xNat .outlen) 0x00)).setX .clen (s.x .outlen)).setErr 0

/-- Zeros behind a text do not show where a place without a character reads `0x00` anyway. -/
theorem getD_append_zeros (r : List Byte) (k i : Nat) : (r ++ List.replicate k 0x00).getD i 0x00 = r.getD i 0x00 := by
  by_cases hi : i < r.length
  · exact List.getD_append _ _ _ _ hi
  · rw [List.getD_append_right _ _ _ _ (Nat.not_lt.mp hi), getD_zeros, List.getD_eq_default _ _ (Nat.not_lt.mp hi)]

/-- The bytes after a successful `CSUM`: the text in `CBUF` with zeros behind it, every other byte as before (R113). -/
theorem readByte_csumSuccess {s : State} {r : List Byte} (hr : r.length = s.xNat .outlen) (h9 : s.xNat .outlen ≤ 9) (c : Nat) :
    (csumSuccess r s).readByte c = if 0x60 ≤ c ∧ c < 0x69 then r.getD (c - 0x60) 0x00 else s.readByte c := by
  have hlen : (r ++ List.replicate (9 - s.xNat .outlen) 0x00).length = 9 := by simp; omega
  rw [csumSuccess, State.readByte_setErr, State.readByte_setX, State.readByte_storeBytes_in _ (by rw [hlen]), hlen, getD_append_zeros]

/-- `CBUF` after a successful `CSUM` (R113). -/
theorem cbuf_csumSuccess {s : State} {r : List Byte} (hr : r.length = s.xNat .outlen) (h9 : s.xNat .outlen ≤ 9) {j : Nat}
    (hj : j < 9) : (csumSuccess r s).cbuf j = r.getD j 0x00 := by
  rw [State.cbuf, readByte_csumSuccess hr h9, Buffer.cbuf_base, if_pos (by omega), Nat.add_sub_cancel_left]

/-- A failing `CSUM` does what the failure rule says (R196). -/
theorem csumFailed_csumFailure (e : ErrCode) (s : State) : csumFailed (errNumber e) s (csumFailure e s) := by
  have hmem : ∀ a, (csumFailure e s).readByte a = if 0x60 ≤ a ∧ a < 0x69 then 0x00 else s.readByte a :=
    readByte_failureWrites_csum s
  refine ⟨rfl, State.x_setX_same _ _ _, fun j hj => ?_, fun q hq => ?_, fun a ha => ?_, rfl, rfl, ⟨rfl, rfl, rfl, rfl, rfl⟩, rfl, rfl⟩
  · rw [State.cbuf, hmem, Buffer.cbuf_base, if_pos (by omega)]
  · exact State.x_setX_ne _ _ (List.ne_of_not_mem_cons hq)
  · rw [hmem, if_neg ha]

/-! ## The outcomes past the range tests -/

section
variable {vmax : Nat} {s : State}

/-- A non-digit stops `CSUM` (R113). -/
theorem csumWith_invalid (hp : ¬ csumRangeFails vmax s) (hd : ¬ allDigits s) :
    csumWith vmax s = .next (csumFailure .invalidInput s) := by
  rw [csumWith_inRange hp, checksum_invalid (mt (digitString_all_iff_allDigits s).mp hd)]

/-- A value above `VMAX` stops `CSUM` (R113, R114). -/
theorem csumWith_overflow (hp : ¬ csumRangeFails vmax s) (hd : allDigits s) (hv : vmax < stringValue s) :
    csumWith vmax s = .next (csumFailure .numericOverflow s) := by
  rw [csumWith_inRange hp, checksum_overflow ((digitString_all_iff_allDigits s).mpr hd) (by rwa [reversedValue_digitString])]

/-- In every other case `CSUM` leaves the text of the twice reduced value (R112, R113). -/
theorem csumWith_ok (hp : ¬ csumRangeFails vmax s) (hd : allDigits s) (hv : stringValue s ≤ vmax) :
    csumWith vmax s = .next (csumSuccess
      (decText (s.xNat .outlen) (stringValue s % s.xNat .modulus % 10 ^ s.xNat .outlen)) s) := by
  rw [csumWith_inRange hp, checksum_ok ((digitString_all_iff_allDigits s).mpr hd) (by rwa [reversedValue_digitString]),
    reversedValue_digitString]
  rfl

end

/-- The machine's `CSUM` is the one at the default `VMAX` (D8). -/
theorem exec_csum (s : State) : exec .csum s = csumWith 4294967295 s := rfl

end Sys2Proof.Machine

namespace Sys2Proof.Proofs

open Sys2Proof.Machine Sys2Proof.Spec

/-- Settles O7: the four outcomes of `CSUM`, read through what its two ends leave. -/
theorem csumCommand : Obligations.CsumCommand := by
  refine ⟨rfl, fun s => ⟨fun hp hd hv => ?_, fun hp => ?_, fun hp hd => ?_, fun hp hd hv => ?_⟩⟩ <;> rw [exec_csum]
  · have h9 : s.xNat .outlen ≤ 9 := by simp only [not_or] at hp; omega
    have hr := decText_length (s.xNat .outlen) (stringValue s % s.xNat .modulus % 10 ^ s.xNat .outlen)
    refine ⟨_, csumWith_ok hp hd hv, rfl, State.x_setX_same _ _ _, fun j hj => ?_, fun j hj hle => ?_, fun q hq => ?_, fun a ha => ?_,
      rfl, rfl, ⟨rfl, rfl, rfl, rfl, rfl⟩, rfl, rfl⟩
    · rw [cbuf_csumSuccess hr h9 (by omega), decText_getD _ _ _ hj, chr_toNat (Nat.mod_lt _ (by decide))]
    · rw [cbuf_csumSuccess hr h9 hj, List.getD_eq_default _ _ (hr.trans_le hle)]
    · exact State.x_setX_ne _ _ (List.ne_of_not_mem_cons hq)
    · rw [readByte_csumSuccess hr h9, if_neg ha]
  · exact ⟨_, csumWith_param hp, csumFailed_csumFailure .paramError s⟩
  · exact ⟨_, csumWith_invalid hp hd, csumFailed_csumFailure .invalidInput s⟩
  · exact ⟨_, csumWith_overflow hp hd hv, csumFailed_csumFailure .numericOverflow s⟩

/-- Settles O23: the value decides between the two outcomes left, and nine digits stay below any legal `VMAX`. -/
theorem overflowDecidedByValue : Obligations.OverflowDecidedByValue := by
  intro vmax s hlegal hp hd
  rcases Nat.lt_or_ge vmax (stringValue s) with hv | hv
  · have hlong : ¬ s.xNat .dlen ≤ 9 := fun h9 => by
      have hlt := stringValue_lt hd
      have hpow : 10 ^ s.xNat .dlen ≤ 10 ^ 9 := Nat.pow_le_pow_right (by decide) h9
      omega
    exact ⟨_, csumWith_overflow hp hd hv, iff_of_true rfl hv,
      iff_of_false (errNumber_pos .numericOverflow) (Nat.not_le.mpr hv), fun h9 => absurd h9 hlong⟩
  · exact ⟨_, csumWith_ok hp hd hv, iff_of_false (show (0 : BitVec 4) ≠ 2 by decide) (Nat.not_lt.mpr hv), iff_of_true rfl hv,
      fun _ => rfl⟩

/-- Settles O24: of the two ends of `CSUM` only success leaves `ERR = 0`, with a text of `OUTLEN` digits. -/
theorem checksumHasOutlenDigits : Obligations.ChecksumHasOutlenDigits := by
  intro s t h herr
  cases exec_cases h with
  | csumFails _ e _ => exact absurd herr (errNumber_pos e)
  | csumOk _ r h1 h9 hr hd =>
    have hclen : (csumSuccess r s).x .clen = s.x .outlen := State.x_setX_same _ _ _
    have hlen : (csumSuccess r s).xNat .clen = s.xNat .outlen := congrArg BitVec.toNat hclen
    refine ⟨hclen, hlen ▸ h1, hlen ▸ h9, fun j hj => ?_⟩
    have hj : j < r.length := hr ▸ hlen ▸ hj
    have hbyte : (csumSuccess r s).cbuf j = r[j] := by
      rw [cbuf_csumSuccess hr h9 (by omega), List.getD_eq_getElem _ _ hj]
    exact (isDigit_iff _).mp (hbyte ▸ hd _ (List.getElem_mem hj))

end Sys2Proof.Proofs
end

section
/-! PROOFS. The command `MAP`: the patterns it stores, what each of its two ends leaves, and its three outcomes (R133, R196). -/

namespace Sys2Proof.Machine

open Sys2Proof.Spec

/-! ## The patterns -/

/-- The glyph patterns of the string operand, first character first (R132). -/
def State.glyphPatterns (s : State) : List Byte := s.digitString.map (fun c => glyph (digit c))

/-- There is one pattern for each character (R132). -/
@[simp] theorem State.glyphPatterns_length (s : State) : s.glyphPatterns.length = s.xNat .dlen := by
  rw [State.glyphPatterns, List.length_map, State.digitString_length]

/-- The pattern of a digit character is the `GROM` entry of its digit (R87, R133). -/
theorem State.glyphPatterns_getD {s : State} {k : Nat} (hk : k < s.xNat .dlen) (hd : digitByte (s.dbuf k)) :
    s.glyphPatterns.getD k 0x00 = s.grom ((s.dbuf k).toNat - 0x30) := by
  have hglyph : s.glyphPatterns.getD k 0x00 = glyph (digit (s.dbuf k)) := by
    simp [State.glyphPatterns, State.digitString, State.bytes, State.dbuf, hk]
  rw [hglyph]
  exact (s.grom_eq (digit_lt ((isDigit_iff _).mpr hd))).symm

/-! ## What `MAP` leaves -/

/-- How `MAP` ends on either side: all 32 bytes of `PBUF` rewritten with `l`, then `PLEN` and `ERR` (R133, R196). -/
def mapEnd (l : List Byte) (plen : Word) (err : BitVec 4) (s : State) : State :=
  ((s.storeBytes 0x20 l).setX .plen plen).setErr err

/-- The bytes after `MAP`: those stored in `PBUF`, every other as before (R133). -/
theorem readByte_mapEnd {l : List Byte} (hl : l.length = 32) (w : Word) (e : BitVec 4) (s : State) (a : Nat) :
    (mapEnd l w e s).readByte a = if 0x20 ≤ a ∧ a < 0x20 + 32 then l.getD (a - 0x20) 0x00 else s.readByte a := by
  rw [mapEnd, State.readByte_setErr, State.readByte_setX, State.readByte_storeBytes_in _ (by omega), hl]

/-- `PBUF` after `MAP` (R133). -/
theorem pbuf_mapEnd {l : List Byte} (hl : l.length = 32) (w : Word) (e : BitVec 4) (s : State) {k : Nat} (hk : k < 32) :
    (mapEnd l w e s).pbuf k = l.getD k 0x00 := by
  rw [State.pbuf, readByte_mapEnd hl, Buffer.pbuf_base, if_pos (by omega), Nat.add_sub_cancel_left]

/-- `MAP` writes `PLEN` and no other operand register, `PBUF` and no other byte, and nothing of the rest of the state (R133). -/
theorem mapEnd_frame {l : List Byte} (hl : l.length = 32) (w : Word) (e : BitVec 4) (s : State) :
    sameRegsBut [.plen] s (mapEnd l w e s) ∧ sameBytesOutside 0x20 32 s (mapEnd l w e s) ∧ sameRest s (mapEnd l w e s) := by
  refine ⟨fun q hq => ?_, fun a ha => ?_, rfl, rfl, ⟨rfl, rfl, rfl, rfl, rfl⟩, rfl, rfl⟩
  · exact State.x_setX_ne _ _ (List.ne_of_not_mem_cons hq)
  · rw [readByte_mapEnd hl, if_neg ha]

/-- `PLEN` after `MAP` (R133). -/
@[simp] theorem x_plen_mapEnd (l : List Byte) (w : Word) (e : BitVec 4) (s : State) : (mapEnd l w e s).x .plen = w :=
  State.x_setX_same _ _ _

/-- A failing `MAP` clears `PBUF` and `PLEN` (R196). -/
theorem mapFailure_eq (e : ErrCode) (s : State) : mapFailure e s = mapEnd (List.replicate 32 0x00) 0 (errNumber e) s := by
  rw [mapFailure, failureWrites, Buffer.pbuf_base, Config.pCap_eq, mapEnd]

/-- A failing `MAP` does what the failure rule says (R196). -/
theorem mapFailed_mapFailure (e : ErrCode) (s : State) : mapFailed (errNumber e) s (mapFailure e s) := by
  have hl : (List.replicate 32 (0x00 : Byte)).length = 32 := List.length_replicate
  rw [mapFailure_eq]
  exact ⟨rfl, x_plen_mapEnd .., fun k hk => (pbuf_mapEnd hl _ _ s hk).trans (getD_zeros 32 k), mapEnd_frame hl _ _ s⟩

/-! ## The outcomes -/

section
variable {s : State}

/-- A string operand that is too long stops `MAP` (R133). -/
theorem exec_map_param (h : 32 < s.xNat .dlen) : exec .map s = .next (mapFailure .paramError s) := execMap_param h

/-- A non-digit stops `MAP` (R133). -/
theorem exec_map_unmappable (h : s.xNat .dlen ≤ 32) (hd : ¬ allDigits s) :
    exec .map s = .next (mapFailure .unmappableCharacter s) := by
  rw [exec, execMap_inRange h, mapDigits_error (mt (digitString_all_iff_allDigits s).mp hd)]

/-- In every other case `MAP` leaves the patterns, with zeros behind them (R133). -/
theorem exec_map_ok (h : s.xNat .dlen ≤ 32) (hd : allDigits s) :
    exec .map s = .next (mapEnd (s.glyphPatterns ++ List.replicate (32 - s.xNat .dlen) 0x00) (s.x .dlen) 0 s) := by
  rw [exec, execMap_inRange h, mapDigits_ok ((digitString_all_iff_allDigits s).mpr hd)]
  rfl

end

end Sys2Proof.Machine

namespace Sys2Proof.Proofs

open Sys2Proof.Machine Sys2Proof.Spec

/-- Settles O9: the three outcomes of `MAP`, each of which ends by rewriting all of `PBUF`. -/
theorem mapCommand : Obligations.MapCommand := by
  refine ⟨rfl, fun s => ⟨fun h hd => ?_, fun h => ?_, fun h hd => ?_⟩⟩
  · have hl : (s.glyphPatterns ++ List.replicate (32 - s.xNat .dlen) 0x00).length = 32 := by simp; omega
    refine ⟨_, exec_map_ok h hd, rfl, x_plen_mapEnd .., fun k hk => ?_, fun k hk hle => ?_, mapEnd_frame hl _ _ s⟩
    · rw [pbuf_mapEnd hl _ _ _ (by omega), getD_append_zeros, State.glyphPatterns_getD hk (hd k hk)]
    · rw [pbuf_mapEnd hl _ _ _ hk, getD_append_zeros, List.getD_eq_default _ _ (s.glyphPatterns_length.trans_le hle)]
  · exact ⟨_, exec_map_param h, mapFailed_mapFailure .paramError s⟩
  · exact ⟨_, exec_map_unmappable h hd, mapFailed_mapFailure .unmappableCharacter s⟩

end Sys2Proof.Proofs
end

section
/-! PROOFS. The commands `CLRROW` and `PLACE`: a store of bytes, what it leaves in `ROW` and what it leaves alone (R146, R147). -/

namespace Sys2Proof.Machine

/-- A command that stores bytes and reports its error changes no register, no byte elsewhere and nothing of the rest of the
state. -/
theorem storeBytes_setErr_frame (s : State) (a : Nat) (l : List Byte) (e : BitVec 4) :
    sameRegsBut [] s ((s.storeBytes a l).setErr e) ∧ sameBytesOutside a l.length s ((s.storeBytes a l).setErr e)
      ∧ sameRest s ((s.storeBytes a l).setErr e) := by
  refine ⟨fun _ _ => rfl, fun c hc => ?_, rfl, rfl, ⟨rfl, rfl, rfl, rfl, rfl⟩, rfl, rfl⟩
  rw [State.readByte_setErr, State.readByte_storeBytes, if_neg fun h => hc ⟨h.1, h.2.1⟩]

/-- `ROW` after a command that stores bytes inside it: index `o + k` holds byte `k` of those stored from index `o` up (R33, R55). -/
theorem row_storeBytes_setErr (s : State) {o k : Nat} {l : List Byte} (h : o + l.length ≤ 32) (hk : k < l.length) (e : BitVec 4) :
    ((s.storeBytes (0x40 + o) l).setErr e).row (o + k) = l.getD k 0x00 := by
  rw [State.row, State.readByte_setErr, State.readByte_storeBytes_in _ (by omega), Buffer.row_base, if_pos (by omega),
    show 0x40 + (o + k) - (0x40 + o) = k by omega]

end Sys2Proof.Machine

namespace Sys2Proof.Proofs

open Sys2Proof.Machine Sys2Proof.Spec

/-- Settles O10: `CLRROW` stores 32 zeros from the start of `ROW`, with no condition on the state. -/
theorem clrrowCommand : Obligations.ClrrowCommand := by
  refine ⟨rfl, fun s => ⟨_, execClrrow_eq s, rfl, fun i hi => ?_, ?_⟩⟩
  · have hrow := row_storeBytes_setErr s (o := 0) (l := List.replicate 32 0x00) (k := i) (by simp) (by simpa using hi) 0
    rwa [Nat.add_zero, Nat.zero_add, getD_zeros] at hrow
  · simpa only [List.length_replicate] using storeBytes_setErr_frame s 0x40 (List.replicate 32 0x00) 0

/-- Settles O11: in range `PLACE` stores the first `PLEN` bytes of `PBUF` from `ROW[OFFSET]` up, else it only reports. -/
theorem placeCommand : Obligations.PlaceCommand := by
  refine ⟨rfl, fun s => ⟨fun h => ⟨_, execPlace_ok h, rfl, fun k hk => ?_, ?_⟩, fun h => execPlace_param h⟩⟩
  · have hfit : s.xNat .offset + (s.bytes .pbuf (s.xNat .plen)).length ≤ 32 := by
      rw [State.bytes_length]
      omega
    exact (row_storeBytes_setErr s hfit (by rwa [State.bytes_length]) 0).trans (s.bytes_getD .pbuf _ k hk)
  · simpa only [State.bytes_length] using
      storeBytes_setErr_frame s (0x40 + s.xNat .offset) (s.bytes .pbuf (s.xNat .plen)) 0

end Sys2Proof.Proofs
end

section
/-! PROOFS. The raster record of a `WRITE`: its rows, byte by byte and pixel by pixel, and what it depends on (R162, R165 to R167). -/

namespace Sys2Proof.Machine

open Sys2Proof.Spec

/-- Width and height come from their registers, the other header fields are constants (R162). -/
theorem recordOf_header (s : State) : (recordOf s).header = headerOf (s.xNat .width) (s.xNat .height) := rfl

/-- A record has `HEIGHT` rows (R165). -/
theorem recordOf_rows_length (s : State) : (recordOf s).rows.length = s.xNat .height := by
  simp [recordOf, serialize]

/-- Every row of a record has `ceil(WIDTH/8)` bytes (R165). -/
theorem length_of_mem_recordOf_rows {s : State} : ∀ row ∈ (recordOf s).rows, row.length = (s.xNat .width + 7) / 8 := by
  simp [recordOf, serialize, rowStride]

/-- Row `k` of a record, whole: byte `j` is the inverted byte `k * ceil(WIDTH/8) + j` of `ROW` (R165). -/
theorem recordOf_rows_getElem? {s : State} {k : Nat} (hk : k < s.xNat .height) :
    ∃ row, (recordOf s).rows[k]? = some row ∧ row.length = (s.xNat .width + 7) / 8
      ∧ ∀ j < (s.xNat .width + 7) / 8, row[j]? = some (invert (s.row (k * ((s.xNat .width + 7) / 8) + j))) := by
  have hrow := List.getElem?_eq_getElem ((recordOf_rows_length s).symm ▸ hk)
  refine ⟨_, hrow, length_of_mem_recordOf_rows _ (List.mem_of_getElem? hrow), fun j hj => ?_⟩
  obtain ⟨row, hget, -, hbyte⟩ := recordOf_row s hk hj
  obtain rfl := Option.some.inj (hget.symm.trans hrow)
  exact hbyte

/-- The record `WRITE` serializes is the one the rules describe (R165). -/
theorem isRecordOf_recordOf (s : State) : isRecordOf s (recordOf s) := by
  refine ⟨rfl, rfl, rfl, rfl, rfl, rfl, rfl, rfl, recordOf_rows_length s, fun k hk => ?_⟩
  simpa only [invert_eq] using recordOf_rows_getElem? hk

/-- A pixel that lies in an inverted byte is the opposite of the bit of that byte (R60, R166). -/
theorem pixel_of_getElem?_eq_invert {row : List Byte} {p : Nat} {b : Byte} (h : row[p / 8]? = some (invert b)) :
    pixel row p = !b.getLsbD (7 - p % 8) := by
  have hbit : 7 - p % 8 < 8 := by omega
  simp [pixel, h, invert, hbit]

/-- The record depends on `WIDTH`, `HEIGHT`, `TAG` and the bytes of the image only (R165, R173). -/
theorem recordOf_congr {s t : State} (hw : t.x .width = s.x .width) (hh : t.x .height = s.x .height)
    (ht : t.x .tag = s.x .tag) (hrow : ∀ k < s.xNat .height * ((s.xNat .width + 7) / 8), t.row k = s.row k) :
    recordOf t = recordOf s := by
  have hbytes : t.bytes .row (imageBytes (s.xNat .width) (s.xNat .height))
      = s.bytes .row (imageBytes (s.xNat .width) (s.xNat .height)) := State.bytes_congr hrow
  have hwn : t.xNat .width = s.xNat .width := congrArg BitVec.toNat hw
  have hhn : t.xNat .height = s.xNat .height := congrArg BitVec.toNat hh
  rw [recordOf, hwn, hhn, ht, hbytes, recordOf]

end Sys2Proof.Machine
end

section
/-! PROOFS. The command `WRITE`: what each response of the sink leads to, what no response changes, and the statements that follow
for the emitted record and for the channel (R168, R169, R171 to R174). -/

namespace Sys2Proof.Machine

open Sys2Proof.Spec

/-! ## What each response leads to -/

/-- The entry of a tag that was replaced is the new one (R37). -/
theorem State.sinkAt_sinkPut_same (s : State) (t : Word) (e : SinkEntry) : (s.sinkPut t e).sinkAt t = some e := by
  rw [State.sinkAt_sinkPut, if_pos rfl]

section
variable {resp : SinkResponse} {r : RasterRecord} {s t : State}

/-- Whatever the sink answers, no register, no byte, not `V` and nothing of the host's side changes, and no further response is
drawn (R169). -/
theorem sinkOutcome_frame (h : sinkOutcome resp r s = .next t) :
    t.regs = s.regs ∧ t.mem = s.mem ∧ t.v = s.v ∧ sameHost s t ∧ t.draws = s.draws ∧ t.sinkAnswers = s.sinkAnswers := by
  rw [sinkOutcome_eq] at h
  cases h
  cases resp <;> exact ⟨rfl, rfl, rfl, ⟨rfl, rfl⟩, rfl, rfl⟩

/-- Whatever the sink answers, its entries for other tags stay (R169, R172). -/
theorem sinkOutcome_sinkAt_ne (h : sinkOutcome resp r s = .next t) {u : Word} (hu : u ≠ r.tag) : t.sinkAt u = s.sinkAt u := by
  have hput : ∀ e, (s.sinkPut r.tag e).sinkAt u = s.sinkAt u := fun e => by rw [State.sinkAt_sinkPut, if_neg hu]
  rw [sinkOutcome_eq] at h
  cases h
  cases resp with
  | accepted => exact hput _
  | openFailed => rfl
  | initFailed => exact hput _
  | rowFailed => exact hput _

/-- An accepted record is stored and joins the history, and the channel is closed (R168, R169). -/
theorem sinkOutcome_accepted (h : sinkOutcome .accepted r s = .next t) :
    t.err = 0 ∧ t.chanOpen = false ∧ t.sinkAt r.tag = some (.record r) ∧ t.emitted = s.emitted ++ [r] := by
  rw [sinkOutcome_eq] at h
  cases h
  exact ⟨rfl, rfl, s.sinkAt_sinkPut_same _ _, rfl⟩

/-- A refused open leaves the channel and the sink alone (R168, R171). -/
theorem sinkOutcome_openFailed (h : sinkOutcome .openFailed r s = .next t) :
    t.err = 4 ∧ t.chanOpen = s.chanOpen ∧ t.sink = s.sink ∧ t.emitted = s.emitted := by
  rw [sinkOutcome_eq] at h
  cases h
  exact ⟨rfl, rfl, rfl, rfl⟩

/-- A refused header closes the channel and leaves the entry unspecified (R168, R171, R172). -/
theorem sinkOutcome_initFailed (h : sinkOutcome .initFailed r s = .next t) :
    t.err = 5 ∧ t.chanOpen = false ∧ t.sinkAt r.tag = some .unspecified ∧ t.emitted = s.emitted := by
  rw [sinkOutcome_eq] at h
  cases h
  exact ⟨rfl, rfl, s.sinkAt_sinkPut_same _ _, rfl⟩

/-- A refused row closes the channel and leaves the entry unspecified (R168, R171, R172). -/
theorem sinkOutcome_rowFailed (h : sinkOutcome .rowFailed r s = .next t) :
    t.err = 6 ∧ t.chanOpen = false ∧ t.sinkAt r.tag = some .unspecified ∧ t.emitted = s.emitted := by
  rw [sinkOutcome_eq] at h
  cases h
  exact ⟨rfl, rfl, s.sinkAt_sinkPut_same _ _, rfl⟩

/-- Only an accepted record ends without an error (R168). -/
theorem sinkOutcome_err_eq_zero_iff (h : sinkOutcome resp r s = .next t) : t.err = 0 ↔ resp = .accepted := by
  rw [sinkOutcome_eq] at h
  cases h
  cases resp <;> simp

/-- The sink leaves the channel closed, or refused to open it (R171). -/
theorem sinkOutcome_chanOpen (h : sinkOutcome resp r s = .next t) :
    t.chanOpen = false ∨ t.chanOpen = s.chanOpen ∧ t.err = 4 := by
  rw [sinkOutcome_eq] at h
  cases h
  cases resp with
  | openFailed => exact .inr ⟨rfl, rfl⟩
  | accepted | initFailed | rowFailed => exact .inl rfl

end

/-! ## What a `WRITE` leaves -/

section
variable {s t : State}

/-- A `WRITE` that ends without an error appends the record of its state to the history (R53, R169). -/
theorem emitted_of_exec_write (h : exec .write s = .next t) (herr : t.err = 0) : t.emitted = s.emitted ++ [recordOf s] := by
  cases exec_cases h with
  | writeParam => exact absurd herr (show (7 : BitVec 4) ≠ 0 by decide)
  | writeAsks _ _ hsink =>
    rw [(sinkOutcome_err_eq_zero_iff hsink).mp herr] at hsink
    obtain ⟨-, -, -, hemitted⟩ := sinkOutcome_accepted hsink
    exact hemitted

/-- No `WRITE` changes the stored bytes (R170). -/
theorem mem_of_exec_write (h : exec .write s = .next t) : t.mem = s.mem := by
  cases exec_cases h with
  | writeParam => rfl
  | writeAsks _ _ hsink =>
    obtain ⟨-, hmem, -⟩ := sinkOutcome_frame hsink
    exact hmem

/-- A `WRITE` leaves the channel closed, or never touched it (R171). -/
theorem chanOpen_of_exec_write (h : exec .write s = .next t) :
    t.chanOpen = false ∨ t.chanOpen = s.chanOpen ∧ (t.err = 7 ∨ t.err = 4) := by
  cases exec_cases h with
  | writeParam => exact .inr ⟨rfl, .inl rfl⟩
  | writeAsks _ _ hsink => exact (sinkOutcome_chanOpen hsink).imp_right fun ⟨hopen, herr⟩ => ⟨hopen, .inr herr⟩

/-- The failure writes leave the channel alone (R196). -/
@[simp] theorem failureWrites_chanOpen (i : Option Instr) (s : State) : (failureWrites i s).chanOpen = s.chanOpen := by
  unfold failureWrites
  split <;> simp

/-- No command but `WRITE` touches the channel (R35, R171). -/
theorem chanOpen_of_exec_ne_write {i : Instr} (h : exec i s = .next t) (hi : i ≠ .write) : t.chanOpen = s.chanOpen := by
  cases exec_cases h with
  | writeParam | writeAsks => exact absurd rfl hi
  | csumFails | mapFails => simp [csumFailure, mapFailure]
  | validParam | validOk | csumOk | catParam | catOk | mapOk | clrrow | placeParam | placeOk => simp

/-- Equal stored bytes read alike. -/
theorem sameBytes_of_mem_eq (h : t.mem = s.mem) : sameBytes s t := fun a => congrArg (Memory.read · a) h

end

end Sys2Proof.Machine

namespace Sys2Proof.Proofs

open Sys2Proof.Machine Sys2Proof.Spec

/-- Settles O12: past the range tests `WRITE` is the sink's answer to the record of the state. -/
theorem writeCommand : Obligations.WriteCommand := by
  refine ⟨rfl, fun s => ⟨fun h => execWrite_param h, fun h => ?_⟩⟩
  obtain ⟨t, ht⟩ : ∃ t, sinkOutcome s.nextResponse (recordOf s) s.drawResponse = .next t := ⟨_, sinkOutcome_eq ..⟩
  obtain ⟨hregs, hmem, hv, hhost, hdraws, hanswers⟩ := sinkOutcome_frame ht
  have hanswer : ∀ {q}, s.nextResponse = q → sinkOutcome q (recordOf s) s.drawResponse = .next t := fun hq => hq ▸ ht
  exact ⟨t, recordOf s, (execWrite_asks h).trans ht, isRecordOf_recordOf s, fun q _ => State.x_of_regs hregs q,
    sameBytes_of_mem_eq hmem, hv, hhost, hdraws, hanswers, fun _ hu => sinkOutcome_sinkAt_ne ht hu,
    fun hr => sinkOutcome_accepted (hanswer hr), fun hr => sinkOutcome_openFailed (s := s.drawResponse) (hanswer hr),
    fun hr => sinkOutcome_initFailed (hanswer hr), fun hr => sinkOutcome_rowFailed (hanswer hr)⟩

/-- Settles O28: pixel `p` lies in byte `p / 8` of its row, which is an inverted byte of `ROW`. -/
theorem emittedPixelsInverted : Obligations.EmittedPixelsInverted := by
  intro s t h herr
  refine ⟨recordOf s, emitted_of_exec_write h herr, recordOf_rows_length s, fun k hk => ?_⟩
  obtain ⟨row, hrow, -, hbytes⟩ := recordOf_rows_getElem? hk
  exact ⟨row, hrow, fun p hp => pixel_of_getElem?_eq_invert (hbytes _ (Nat.div_lt_of_lt_mul hp))⟩

/-- Settles O29: where `WRITE` does not close the channel it never touched it, and then `ERR` is 7 or 4. -/
theorem channelClosedOnEveryPath : Obligations.ChannelClosedOnEveryPath := by
  intro i s t h
  refine ⟨?_, chanOpen_of_exec_ne_write h⟩
  rintro rfl
  refine ⟨fun hs => ?_, fun herr => ?_, sameBytes_of_mem_eq (mem_of_exec_write h)⟩
  · exact (chanOpen_of_exec_write h).elim id fun ⟨hopen, _⟩ => hopen.trans hs
  · refine (chanOpen_of_exec_write h).resolve_right fun ⟨_, huntouched⟩ => ?_
    have hdistinct : ∀ e : BitVec 4, e = 0 ∨ e = 5 ∨ e = 6 → ¬ (e = 7 ∨ e = 4) := by decide
    exact hdistinct _ herr huntouched

/-- Settles O30: each appends the record of its state, and the two states have one record. -/
theorem equalWritesEmitEqualRecords : Obligations.EqualWritesEmitEqualRecords := by
  intro s s' t t' c h herr h' herr' hw hh ht hrow
  have hrec := recordOf_congr hw hh ht hrow
  exact ⟨recordOf s, recordOf s', emitted_of_exec_write h herr, emitted_of_exec_write h' herr', hrec, congrArg (fileOf c) hrec⟩

/-- Settles O31: the reader recovers the header of the record, whose width and height are those of the registers. -/
theorem readerRecoversHeader : Obligations.ReaderRecoversHeader := by
  intro s t c h herr hw hh
  refine ⟨recordOf s, emitted_of_exec_write h herr, (c.recovers (recordOf s)).trans ?_⟩
  rw [recordOf_header, hw, hh]
  rfl

end Sys2Proof.Proofs
end

section
/-! PROOFS. The commands `VALID` and `CAT`: the format test in the words of the rules, and what a `CAT` that succeeds leaves (R176 to
R178). -/

namespace Sys2Proof.Machine

open Sys2Proof.Spec

/-! ## `VALID` -/

/-- The format test of the string operand, read off `DLEN` and `DBUF` (R176). -/
theorem validateId_digitString (s : State) (e : Nat) :
    validateId s.digitString e = true ↔ s.xNat .dlen = e ∧ allDigits s := by
  rw [validateId, Bool.and_eq_true, decide_eq_true_iff, State.digitString_length, digitString_all_iff_allDigits]

/-! ## What `CAT` leaves -/

/-- The check code with the string operand behind it (R178). -/
def State.codeThenString (s : State) : List Byte := s.bytes .cbuf (s.xNat .clen) ++ s.digitString

/-- Its characters are those of the check code and those of the string (R178). -/
@[simp] theorem State.codeThenString_length (s : State) : s.codeThenString.length = s.xNat .clen + s.xNat .dlen := by
  rw [State.codeThenString, List.length_append, State.bytes_length, State.digitString_length]

/-- The check code stands in front (R178). -/
theorem State.codeThenString_getD_code {s : State} {j : Nat} (hj : j < s.xNat .clen) :
    s.codeThenString.getD j 0x00 = s.cbuf j := by
  rw [State.codeThenString, List.getD_append _ _ _ _ (by rwa [State.bytes_length]), State.bytes_getD _ _ _ _ hj, State.cbuf]

/-- The string stands behind the check code (R178). -/
theorem State.codeThenString_getD_string {s : State} {i : Nat} (hi : i < s.xNat .dlen) :
    s.codeThenString.getD (s.xNat .clen + i) 0x00 = s.dbuf i := by
  rw [State.codeThenString, List.getD_append_right _ _ _ _ (by rw [State.bytes_length]; omega), State.bytes_length,
    Nat.add_sub_cancel_left, State.digitString, State.bytes_getD _ _ _ _ hi, State.dbuf]

/-- A `CAT` that succeeds (R178). -/
def catSuccess (s : State) : State :=
  ((s.storeBytes 0x00 s.codeThenString).setX .dlen (BitVec.ofNat 32 (s.xNat .clen + s.xNat .dlen))).setErr 0

section
variable {s : State}

/-- `DLEN` after `CAT`: the sum fits the register, so nothing wraps (R8, R178). -/
theorem xNat_dlen_catSuccess (h : s.xNat .clen + s.xNat .dlen ≤ 32) :
    (catSuccess s).xNat .dlen = s.xNat .clen + s.xNat .dlen := by
  rw [State.xNat, catSuccess, State.x_setErr, State.x_setX_same, BitVec.toNat_ofNat, Nat.mod_eq_of_lt (by omega)]

/-- The bytes after `CAT`: code and string from the start of `DBUF`, every other byte as before (R178). -/
theorem readByte_catSuccess (h : s.xNat .clen + s.xNat .dlen ≤ 32) (a : Nat) :
    (catSuccess s).readByte a = if a < s.xNat .clen + s.xNat .dlen then s.codeThenString.getD a 0x00 else s.readByte a := by
  rw [catSuccess, State.readByte_setErr, State.readByte_setX,
    State.readByte_storeBytes_in _ (by rw [State.codeThenString_length]; omega), State.codeThenString_length]
  simp only [Nat.zero_le, true_and, Nat.zero_add, Nat.sub_zero]

/-- `DBUF` after `CAT`, up to the new length (R178). -/
theorem dbuf_catSuccess (h : s.xNat .clen + s.xNat .dlen ≤ 32) {k : Nat} (hk : k < s.xNat .clen + s.xNat .dlen) :
    (catSuccess s).dbuf k = s.codeThenString.getD k 0x00 := by
  rw [State.dbuf, Buffer.dbuf_base, Nat.zero_add, readByte_catSuccess h, if_pos hk]

/-- `CAT` writes `DLEN` and no other operand register, `DBUF` up to the new length and no other byte, and nothing of the rest of the
state (R178). -/
theorem catSuccess_frame (h : s.xNat .clen + s.xNat .dlen ≤ 32) :
    sameRegsBut [.dlen] s (catSuccess s) ∧ sameBytesOutside 0x00 (s.xNat .clen + s.xNat .dlen) s (catSuccess s)
      ∧ sameRest s (catSuccess s) := by
  refine ⟨fun q hq => ?_, fun a ha => ?_, rfl, rfl, ⟨rfl, rfl, rfl, rfl, rfl⟩, rfl, rfl⟩
  · exact State.x_setX_ne _ _ (List.ne_of_not_mem_cons hq)
  · rw [readByte_catSuccess h, if_neg (by omega)]

/-- Past the range test `CAT` succeeds (R178). -/
theorem exec_cat_ok (h : ¬ catRangeFails s) : exec .cat s = .next (catSuccess s) := execCat_ok h

end

end Sys2Proof.Machine

namespace Sys2Proof.Proofs

open Sys2Proof.Machine Sys2Proof.Spec

/-- Settles O6: past the length test `VALID` writes the outcome of the format test to `V`, else it only reports. -/
theorem validCommand : Obligations.ValidCommand := by
  refine ⟨rfl, fun s => ⟨fun h => ?_, fun h => execValid_param h⟩⟩
  exact ⟨_, execValid_ok h, rfl, validateId_digitString s (s.xNat .explen), fun _ _ => rfl, fun _ => rfl, rfl,
    ⟨rfl, rfl, rfl, rfl, rfl⟩, rfl, rfl⟩

/-- Settles O8: in range `CAT` stores code and string, both read before the store, from the start of `DBUF`; else it only
reports. -/
theorem catCommand : Obligations.CatCommand := by
  refine ⟨rfl, fun s => ⟨fun h _ => ?_, fun h => execCat_param h⟩⟩
  have hsum : s.xNat .clen + s.xNat .dlen ≤ 32 := by simp only [not_or] at h; omega
  refine ⟨_, exec_cat_ok h, rfl, xNat_dlen_catSuccess hsum, fun j hj => ?_, fun i hi => ?_, catSuccess_frame hsum⟩
  · rw [dbuf_catSuccess hsum (by omega), State.codeThenString_getD_code hj]
  · rw [dbuf_catSuccess hsum (by omega), State.codeThenString_getD_string hi]

end Sys2Proof.Proofs
end

section
/-! PROOFS. The error a command reports: which one each command ends with, and which one a word written to `CMD` ends with (R190 to
R194). -/

namespace Sys2Proof.Machine

open Sys2Proof.Spec

/-! ## The error of each command -/

section
variable {s t : State}

/-- `VALID` reports the length test (R177, R192). -/
theorem err_of_exec_valid (h : exec .valid s = .next t) : t.err.toNat = errorOf .valid s := by
  rw [errorOf]
  split_ifs with hp
  · cases (execValid_param hp).symm.trans h; rfl
  · cases (execValid_ok (Nat.not_lt.mp hp)).symm.trans h; rfl

/-- `CSUM` reports the range tests before the digit test, and the digit test before the overflow test (R113, R194). -/
theorem err_of_exec_csum (h : exec .csum s = .next t) : t.err.toNat = errorOf .csum s := by
  rw [errorOf]
  split_ifs with hp hd hv
  · cases (csumWith_param hp).symm.trans h; rfl
  · cases (csumWith_overflow hp hd hv).symm.trans h; rfl
  · cases (csumWith_ok hp hd (Nat.not_lt.mp hv)).symm.trans h; rfl
  · cases (csumWith_invalid hp hd).symm.trans h; rfl

/-- `CAT` reports the range test (R178, R192). -/
theorem err_of_exec_cat (h : exec .cat s = .next t) : t.err.toNat = errorOf .cat s := by
  rw [errorOf]
  split_ifs with hp
  · cases (execCat_param hp).symm.trans h; rfl
  · cases (exec_cat_ok hp).symm.trans h; rfl

/-- `MAP` reports the length test before the digit test (R133, R194). -/
theorem err_of_exec_map (h : exec .map s = .next t) : t.err.toNat = errorOf .map s := by
  rw [errorOf]
  split_ifs with hp hd
  · cases (exec_map_param hp).symm.trans h; rfl
  · cases (exec_map_ok (Nat.not_lt.mp hp) hd).symm.trans h; rfl
  · cases (exec_map_unmappable (Nat.not_lt.mp hp) hd).symm.trans h; rfl

/-- `CLRROW` has nothing to report (R146). -/
theorem err_of_exec_clrrow (h : exec .clrrow s = .next t) : t.err.toNat = errorOf .clrrow s := by
  cases (execClrrow_eq s).symm.trans h; rfl

/-- `PLACE` reports the range test (R147, R192). -/
theorem err_of_exec_place (h : exec .place s = .next t) : t.err.toNat = errorOf .place s := by
  rw [errorOf]
  split_ifs with hp
  · cases (execPlace_param hp).symm.trans h; rfl
  · cases (execPlace_ok hp).symm.trans h; rfl

/-- `WRITE` reports the range tests, and past them what the sink answered (R168, R169, R194). -/
theorem err_of_exec_write (h : exec .write s = .next t) : t.err.toNat = errorOf .write s := by
  rw [errorOf]
  split_ifs with hp
  · cases (execWrite_param hp).symm.trans h; rfl
  · have hsink := (execWrite_asks hp).symm.trans h
    rw [sinkOutcome_eq] at hsink
    cases hsink
    cases s.nextResponse <;> rfl

/-- Every command reports the first of its conditions that holds (R192, R194). -/
theorem err_of_exec {i : Instr} (h : exec i s = .next t) : t.err.toNat = errorOf i s := by
  cases i with
  | valid => exact err_of_exec_valid h
  | csum => exact err_of_exec_csum h
  | cat => exact err_of_exec_cat h
  | map => exact err_of_exec_map h
  | clrrow => exact err_of_exec_clrrow h
  | place => exact err_of_exec_place h
  | write => exact err_of_exec_write h

end

/-! ## The error of each word -/

/-- No condition looks at the inputs that wait. -/
theorem errorOf_setInputs (i : Instr) (s : State) (l : List Input) : errorOf i (s.setInputs l) = errorOf i s := by
  cases i <;> rfl

/-- A command's word reports the command's error (R81). -/
theorem errorOfWord_encode (i : Instr) (s : State) : errorOfWord (encode i) s = errorOf i s := by cases i <;> rfl

/-- A word that is 0 or above 7 reports IllegalCommand (R82). -/
theorem errorOfWord_illegal {w : Word} (h : w.toNat = 0 ∨ 7 < w.toNat) (s : State) : errorOfWord w s = 8 := by
  unfold errorOfWord
  split
  case h_8 => rfl
  all_goals omega

/-- Every number from 1 to 7 is the word of a command (R81). -/
theorem exists_encode_toNat_eq {n : Nat} (h1 : 1 ≤ n) (h7 : n ≤ 7) : ∃ i, (encode i).toNat = n := by
  interval_cases n
  exacts [⟨.valid, rfl⟩, ⟨.csum, rfl⟩, ⟨.cat, rfl⟩, ⟨.map, rfl⟩, ⟨.clrrow, rfl⟩, ⟨.place, rfl⟩, ⟨.write, rfl⟩]

/-- A word the decoder rejects is 0 or above 7 (R81, R82). -/
theorem toNat_of_decode_error {w : Word} {e : DecodeReject} (h : decode w = .error e) : w.toNat = 0 ∨ 7 < w.toNat := by
  by_contra hw
  obtain ⟨i, hi⟩ := exists_encode_toNat_eq (n := w.toNat) (by omega) (by omega)
  rw [← BitVec.eq_of_toNat_eq hi, decode_encode] at h
  cases h

/-- The error of a `CMD` write: the word is decoded first, and a word that is a command reports what the command does (R82,
R194). -/
theorem err_of_commandWrite {s t : State} {w : Word} (h : commandWrite w s = .next t) : t.err.toNat = errorOfWord w s := by
  cases hd : decode w with
  | ok i =>
    rw [commandWrite_ok hd] at h
    rw [decode_eq_ok_iff.mp hd, errorOfWord_encode, err_of_exec h]
  | error e =>
    rw [errorOfWord_illegal (toNat_of_decode_error hd)]
    cases (commandWrite_illegal hd s).symm.trans h
    rfl

/-- Taking the `CMD` write from the waiting inputs changes none of the errors it can report. -/
theorem errorOfWord_setInputs (w : Word) (s : State) (l : List Input) : errorOfWord w (s.setInputs l) = errorOfWord w s := by
  simp only [errorOfWord, errorOf_setInputs]

end Sys2Proof.Machine

namespace Sys2Proof.Proofs

open Sys2Proof.Machine Sys2Proof.Spec

/-- Settles O14: command by command, and for a word after it was decoded. -/
theorem errorCausesAndPriority : Obligations.ErrorCausesAndPriority := by
  refine ⟨fun i s t => err_of_exec, fun s t w rest hin h => ?_⟩
  rw [step_command hin] at h
  rw [err_of_commandWrite h, errorOfWord_setInputs]

end Sys2Proof.Proofs
end

section
/-! PROOFS. A failed `WRITE` issued again: what the failure leaves for the retry, and what an accepted `WRITE` does (R199). -/

namespace Sys2Proof.Machine

open Sys2Proof.Spec

section
variable {s t : State}

/-- No `WRITE` changes an operand register (R54, R169). -/
theorem regs_of_exec_write (h : exec .write s = .next t) : t.regs = s.regs := by
  cases exec_cases h with
  | writeParam => rfl
  | writeAsks _ _ hsink =>
    obtain ⟨hregs, -⟩ := sinkOutcome_frame hsink
    exact hregs

/-- A `WRITE` leaves all that its record is made of (R170, R199). -/
theorem recordOf_of_exec_write (h : exec .write s = .next t) : recordOf t = recordOf s := by
  have hx := State.x_of_regs (regs_of_exec_write h)
  exact recordOf_congr (hx _) (hx _) (hx _) fun _ _ => sameBytes_of_mem_eq (mem_of_exec_write h) _

/-- A `WRITE` leaves all that its range tests look at (R161, R199). -/
theorem writeRangeFails_of_exec_write (h : exec .write s = .next t) : writeRangeFails t ↔ writeRangeFails s := by
  have hx : ∀ r, t.xNat r = s.xNat r := fun r => congrArg BitVec.toNat (State.x_of_regs (regs_of_exec_write h) r)
  simp only [writeRangeFails, hx]

/-- A `WRITE` that fails its range tests reports that and no other error (R192). -/
theorem not_writeRangeFails_of_exec_write (h : exec .write s = .next t) (herr : t.err ≠ 7) : ¬ writeRangeFails s := by
  intro hp
  cases (execWrite_param hp).symm.trans h
  exact herr rfl

/-- A `WRITE` that ends with an error emits nothing (R168, R169). -/
theorem emitted_of_exec_write_failed (h : exec .write s = .next t) (herr : t.err ≠ 0) : t.emitted = s.emitted := by
  cases exec_cases h with
  | writeParam => rfl
  | writeAsks _ _ hsink =>
    rw [ne_eq, sinkOutcome_err_eq_zero_iff hsink] at herr
    rw [sinkOutcome_eq] at hsink
    cases hsink
    cases hr : s.nextResponse with
    | accepted => exact absurd hr herr
    | openFailed | initFailed | rowFailed => rfl

/-- A `WRITE` in range whose response is `Accepted` succeeds, hands the record of its state to the sink and has drawn that one
response (R168, R169). -/
theorem exec_write_accepted (hp : ¬ writeRangeFails s) (hr : s.nextResponse = .accepted) :
    ∃ t, exec .write s = .next t ∧ t.err = 0 ∧ t.emitted = s.emitted ++ [recordOf s]
      ∧ t.sinkAt (s.x .tag) = some (.record (recordOf s)) ∧ t.draws = s.draws + 1 := by
  obtain ⟨t, ht⟩ : ∃ t, sinkOutcome .accepted (recordOf s) s.drawResponse = .next t := ⟨_, sinkOutcome_eq ..⟩
  obtain ⟨herr, -, hsink, hemitted⟩ := sinkOutcome_accepted ht
  obtain ⟨-, -, -, -, hdraws, -⟩ := sinkOutcome_frame ht
  exact ⟨t, (execWrite_asks hp).trans (hr ▸ ht), herr, hemitted, hsink, hdraws⟩

end

end Sys2Proof.Machine

namespace Sys2Proof.Proofs

open Sys2Proof.Machine Sys2Proof.Spec

/-- Settles O32: the failed `WRITE` kept registers, bytes and history, so the retry passes the same range tests with the same
record. -/
theorem retrySerializesSameRecord : Obligations.RetrySerializesSameRecord := by
  intro s t h herr hacc
  have hdistinct : ∀ e : BitVec 4, e = 4 ∨ e = 5 ∨ e = 6 → e ≠ 7 ∧ e ≠ 0 := by decide
  obtain ⟨hrange, hfailed⟩ := hdistinct _ herr
  have hp : ¬ writeRangeFails t := mt (writeRangeFails_of_exec_write h).mp (not_writeRangeFails_of_exec_write h hrange)
  obtain ⟨u, hu, huerr, hemitted, hsink, hdraws⟩ := exec_write_accepted hp hacc
  rw [recordOf_of_exec_write h, emitted_of_exec_write_failed h hfailed] at hemitted
  rw [recordOf_of_exec_write h, State.x_of_regs (regs_of_exec_write h)] at hsink
  exact ⟨u, recordOf s, hu, huerr, isRecordOf_recordOf s, hemitted, hsink, hdraws⟩

end Sys2Proof.Proofs
end

section
/-! PROOFS. The reset event: the core's state goes to the values of R40, the environment stays (R220). -/

namespace Sys2Proof.Machine

/-- A reset event that waits is taken by the next step (R220). -/
theorem step_reset {s : State} {rest : List Input} (h : s.inputs = .reset :: rest) :
    step s = .next (resetEvent (s.setInputs rest)) := by
  rw [step_input h, takeInput]

/-- After the reset event every operand register is zero (R40). -/
@[simp] theorem State.x_resetEvent (s : State) (r : OpReg) : (resetEvent s).x r = 0 :=
  Vector.getElem_replicate r.number.isLt

/-- After the reset event `STATUS` is zero: `ERR`, `V` and `OPEN` are (R24, R40). -/
@[simp] theorem State.statusWord_resetEvent (s : State) : (resetEvent s).statusWord = 0 := rfl

/-- An address with no entry reads as what it holds at reset (R40). -/
@[simp] theorem Memory.read_nil (a : Nat) : Memory.read [] a = Memory.unlisted a := ite_self _

/-- After the reset event every byte of the four buffers is `0x00` (R40, R55). -/
theorem State.readByte_resetEvent (s : State) {a : Nat} (h : a < 0x69) : (resetEvent s).readByte a = 0x00 :=
  (Memory.read_nil a).trans (if_neg (by omega))

/-- `GROM` holds its constants in every state (R34, R87). -/
theorem gromConstant_of_state (s : State) : gromConstant s := by
  have hgrom : ∀ d < 10, s.grom d = glyph d := fun _ => s.grom_eq
  simp [gromConstant, hgrom, glyph, glyphTable]

/-- The reset event does not contact the sink (R220). -/
theorem sameSink_resetEvent (s : State) : sameSink s (resetEvent s) := ⟨rfl, rfl, rfl, rfl, rfl⟩

end Sys2Proof.Machine

namespace Sys2Proof.Proofs

open Sys2Proof.Machine

/-- Settles O41: the step is the reset event on the inputs that remain, which sets all of the core's state and none of its
environment. -/
theorem resetEvent : Obligations.ResetEvent := by
  intro s rest hin
  exact ⟨_, step_reset hin, rfl, State.x_resetEvent _, State.statusWord_resetEvent _, fun _ => State.readByte_resetEvent _, rfl,
    gromConstant_of_state _, sameSink_resetEvent (s.setInputs rest), rfl⟩

end Sys2Proof.Proofs
end

section
/-! PROOFS. What a command may write: which register, which buffer, and what else of the state (R54, R196). -/

namespace Sys2Proof.Machine

/-! ## The write sets -/

/-- The operand registers a command may write (R54). -/
def writtenRegs : Instr → List OpReg
  | .csum => [.clen]
  | .cat => [.dlen]
  | .map => [.plen]
  | .valid | .clrrow | .place | .write => []

/-- The buffer a command may write, if it writes one (R54). -/
def writtenBuffer : Instr → Option Buffer
  | .csum => some .cbuf
  | .cat => some .dbuf
  | .map => some .pbuf
  | .clrrow | .place => some .row
  | .valid | .write => none

/-- An address of a buffer (R55). -/
abbrev inBuffer (b : Buffer) (a : Nat) : Prop := b.base ≤ a ∧ a < b.base + b.cap

/-- The buffer map answers the buffer an address lies in (R55). -/
theorem bufferAt_of_inBuffer {b : Buffer} {a : Nat} (h : inBuffer b a) : bufferAt a = some b := by
  obtain ⟨hlo, hhi⟩ := h
  unfold bufferAt
  cases b with
  | dbuf => exact if_pos (hhi.trans_le (by decide))
  | pbuf =>
    rw [Buffer.pbuf_base] at hlo hhi
    rw [Buffer.pbuf_cap] at hhi
    rw [if_neg (by omega), if_pos hhi]
  | row =>
    rw [Buffer.row_base] at hlo hhi
    rw [Buffer.row_cap] at hhi
    rw [if_neg (by omega), if_neg (by omega), if_pos hhi]
  | cbuf =>
    rw [Buffer.cbuf_base] at hlo hhi
    rw [Buffer.cbuf_cap] at hhi
    rw [if_neg (by omega), if_neg (by omega), if_neg (by omega), if_pos hhi]
  | grom =>
    rw [Buffer.grom_base] at hlo hhi
    rw [Buffer.grom_cap] at hhi
    rw [if_neg (by omega), if_neg (by omega), if_neg (by omega), if_neg (by omega), if_neg (by omega), if_pos hhi]

/-- Buffers share no address (R55). -/
theorem buffer_eq_of_inBuffer {b c : Buffer} {a : Nat} (hb : inBuffer b a) (hc : inBuffer c a) : b = c :=
  Option.some.inj ((bufferAt_of_inBuffer hb).symm.trans (bufferAt_of_inBuffer hc))

/-- Only `CSUM` writes `CLEN` and `CBUF` (R54). -/
theorem writes_csum {i : Instr} (hi : i ≠ .csum) : .clen ∉ writtenRegs i ∧ writtenBuffer i ≠ some .cbuf := by
  cases i <;> simp [writtenRegs, writtenBuffer] at hi ⊢

/-- Only `MAP` writes `PLEN` and `PBUF` (R54). -/
theorem writes_map {i : Instr} (hi : i ≠ .map) : .plen ∉ writtenRegs i ∧ writtenBuffer i ≠ some .pbuf := by
  cases i <;> simp [writtenRegs, writtenBuffer] at hi ⊢

/-- A store leaves every byte outside the addresses it goes to. -/
theorem State.readByte_storeBytes_outside (s : State) {a c : Nat} {l : List Byte} (h : ¬ (a ≤ c ∧ c < a + l.length)) :
    (s.storeBytes a l).readByte c = s.readByte c := by
  rw [State.readByte_storeBytes, if_neg fun hc => h ⟨hc.1, hc.2.1⟩]

/-- A command that stores bytes and reports its error leaves `V`, `OPEN`, the sink and the host's side alone. -/
theorem sameRest_storeBytes_setErr (s : State) (a : Nat) (l : List Byte) (e : BitVec 4) :
    sameRest s ((s.storeBytes a l).setErr e) := by
  obtain ⟨-, -, hrest⟩ := storeBytes_setErr_frame s a l e
  exact hrest

/-- A store inside a buffer leaves every byte outside the buffer. -/
theorem State.readByte_storeBytes_of_not_inBuffer (s : State) {b : Buffer} {a c : Nat} {l : List Byte} (hc : ¬ inBuffer b c)
    (hlo : b.base ≤ a) (hhi : a + l.length ≤ b.base + b.cap) : (s.storeBytes a l).readByte c = s.readByte c :=
  s.readByte_storeBytes_outside (by omega)

section
variable {i : Instr} {s t : State}

/-- No command writes an operand register that is not in its write set (R54). -/
theorem x_of_exec (h : exec i s = .next t) : sameRegsBut (writtenRegs i) s t := by
  intro r hr
  cases exec_cases h with
  | csumFails _ e =>
    obtain ⟨-, -, -, hregs, -⟩ := csumFailed_csumFailure e s
    exact hregs r hr
  | mapFails _ e =>
    obtain ⟨-, -, -, hregs, -⟩ := mapFailed_mapFailure e s
    exact hregs r hr
  | csumOk | catOk | mapOk => exact State.x_setX_ne _ _ (List.ne_of_not_mem_cons hr)
  | writeAsks => exact State.x_of_regs (regs_of_exec_write h) r
  | validParam | validOk | catParam | clrrow | placeParam | placeOk | writeParam => simp

/-- No command writes a byte outside the buffer of its write set (R54). -/
theorem readByte_of_exec (h : exec i s = .next t) {a : Nat} (ha : ∀ b, writtenBuffer i = some b → ¬ inBuffer b a) :
    t.readByte a = s.readByte a := by
  cases exec_cases h with
  | csumFails _ e =>
    obtain ⟨-, -, -, -, hbytes, -⟩ := csumFailed_csumFailure e s
    exact hbytes a (ha .cbuf rfl)
  | mapFails _ e =>
    obtain ⟨-, -, -, -, hbytes, -⟩ := mapFailed_mapFailure e s
    exact hbytes a (ha .pbuf rfl)
  | csumOk _ r _ h9 hr =>
    rw [State.readByte_setErr, State.readByte_setX]
    exact s.readByte_storeBytes_of_not_inBuffer (ha .cbuf rfl) (by decide) (by simp; omega)
  | catOk =>
    rw [State.readByte_setErr, State.readByte_setX]
    exact s.readByte_storeBytes_of_not_inBuffer (ha .dbuf rfl) (by decide) (by simp [State.digitString_length]; omega)
  | mapOk =>
    rw [State.readByte_setErr, State.readByte_setX]
    exact s.readByte_storeBytes_of_not_inBuffer (ha .pbuf rfl) (by decide) (by simp [State.digitString_length]; omega)
  | clrrow =>
    rw [State.readByte_setErr]
    exact s.readByte_storeBytes_of_not_inBuffer (ha .row rfl) (by decide) (by simp)
  | placeOk =>
    rw [State.readByte_setErr]
    exact s.readByte_storeBytes_of_not_inBuffer (ha .row rfl) (Nat.le_add_right _ _) (by simp; omega)
  | writeAsks => exact sameBytes_of_mem_eq (mem_of_exec_write h) a
  | validParam | validOk | catParam | placeParam | writeParam => rfl

/-- A buffer that is not the one of its write set keeps its bytes through a command (R54, R55). -/
theorem readByte_of_exec_of_inBuffer (h : exec i s = .next t) {b : Buffer} (hb : writtenBuffer i ≠ some b) {a : Nat}
    (ha : inBuffer b a) : t.readByte a = s.readByte a :=
  readByte_of_exec h fun _ hc hac => hb (buffer_eq_of_inBuffer hac ha ▸ hc)

/-- Beside registers and bytes a command other than `WRITE` writes `ERR`, and `V` in a `VALID` that succeeds (R26, R54). -/
theorem rest_of_exec (h : exec i s = .next t) (hi : i ≠ .write) :
    (t.v = s.v ∨ i = .valid ∧ t.err = 0) ∧ t.chanOpen = s.chanOpen ∧ sameSink s t ∧ sameHost s t := by
  cases exec_cases h with
  | writeParam | writeAsks => exact absurd rfl hi
  | validOk => exact ⟨.inr ⟨rfl, rfl⟩, rfl, ⟨rfl, rfl, rfl, rfl, rfl⟩, rfl, rfl⟩
  | clrrow | placeOk =>
    obtain ⟨hv, hrest⟩ := sameRest_storeBytes_setErr s _ _ _
    exact ⟨.inl hv, hrest⟩
  | csumFails _ e =>
    obtain ⟨-, -, -, -, -, hv, hrest⟩ := csumFailed_csumFailure e s
    exact ⟨.inl hv, hrest⟩
  | mapFails _ e =>
    obtain ⟨-, -, -, -, -, hv, hrest⟩ := mapFailed_mapFailure e s
    exact ⟨.inl hv, hrest⟩
  | validParam | csumOk | catParam | catOk | mapOk | placeParam =>
    exact ⟨.inl rfl, rfl, ⟨rfl, rfl, rfl, rfl, rfl⟩, rfl, rfl⟩

/-- `V` changes only in a `VALID` that succeeds (R26). -/
theorem v_of_exec (h : exec i s = .next t) : t.v = s.v ∨ i = .valid ∧ t.err = 0 := by
  by_cases hi : i = .write
  · subst hi
    cases exec_cases h with
    | writeParam => exact .inl rfl
    | writeAsks _ _ hsink =>
      obtain ⟨-, -, hv, -⟩ := sinkOutcome_frame hsink
      exact .inl hv
  · obtain ⟨hv, -⟩ := rest_of_exec h hi
    exact hv

/-- No command touches the host's side (R54). -/
theorem sameHost_of_exec (h : exec i s = .next t) : sameHost s t := by
  by_cases hi : i = .write
  · subst hi
    cases exec_cases h with
    | writeParam => exact ⟨rfl, rfl⟩
    | writeAsks _ _ hsink =>
      obtain ⟨-, -, -, hhost, -⟩ := sinkOutcome_frame hsink
      exact hhost
  · obtain ⟨-, -, -, hhost⟩ := rest_of_exec h hi
    exact hhost

/-- The history grows by nothing, or by the record of an accepted `WRITE` (R53). -/
theorem emitted_of_exec (h : exec i s = .next t) :
    t.emitted = s.emitted ∨ i = .write ∧ t.err = 0 ∧ t.emitted = s.emitted ++ [recordOf s] := by
  by_cases hi : i = .write
  · subst hi
    by_cases herr : t.err = 0
    · exact .inr ⟨rfl, herr, emitted_of_exec_write h herr⟩
    · exact .inl (emitted_of_exec_write_failed h herr)
  · obtain ⟨-, -, ⟨-, hemitted, -⟩, -⟩ := rest_of_exec h hi
    exact .inl hemitted

/-! ## Failures -/

/-- A `WRITE` past its range tests that the sink answered: what the response leads to (R168). -/
abbrev writeAsked (s t : State) : Prop := sinkOutcome s.nextResponse (recordOf s) s.drawResponse = .next t

/-- How a command can fail: `CSUM` and `MAP` clear their results, a `WRITE` may fail at the sink, and every other failure only
reports ParamError (R192, R196). -/
theorem exec_failed_cases (h : exec i s = .next t) (herr : t.err ≠ 0) :
    (i = .csum ∧ ∃ e, t = csumFailure e s) ∨ (i = .map ∧ ∃ e, t = mapFailure e s) ∨ (i = .write ∧ writeAsked s t)
      ∨ (i ≠ .csum ∧ i ≠ .map ∧ t = s.setErr 7) := by
  cases exec_cases h with
  | csumFails _ e => exact .inl ⟨rfl, e, rfl⟩
  | mapFails _ e => exact .inr (.inl ⟨rfl, e, rfl⟩)
  | writeAsks _ _ hsink => exact .inr (.inr (.inl ⟨rfl, hsink⟩))
  | validParam | catParam | placeParam | writeParam => exact .inr (.inr (.inr ⟨by decide, by decide, rfl⟩))
  | validOk | csumOk | catOk | mapOk | clrrow | placeOk => exact absurd rfl herr

/-- The sink's response shows in the error of a `WRITE` it answered (R168). -/
theorem writeAsked_err (h : writeAsked s t) :
    (t.err = 0 ∧ s.nextResponse = .accepted) ∨ (t.err = 4 ∧ s.nextResponse = .openFailed)
      ∨ (t.err = 5 ∧ s.nextResponse = .initFailed) ∨ (t.err = 6 ∧ s.nextResponse = .rowFailed) := by
  rw [writeAsked, sinkOutcome_eq] at h
  cases h
  cases s.nextResponse <;> simp

end

end Sys2Proof.Machine

namespace Sys2Proof.Proofs

open Sys2Proof.Machine Sys2Proof.Spec

/-- Settles O16: the write sets of registers and bytes, and what is left of the state. -/
theorem commandWriteSets : Obligations.CommandWriteSets := by
  intro i s t h
  refine ⟨fun r hr => ?_, fun a ha => ?_, fun hv => ?_, fun hopen => ?_, fun hsink => ?_, fun hemitted => ?_⟩
  · have hmem : r ∈ writtenRegs i := by_contra fun hr' => hr (x_of_exec h r hr')
    cases i with
    | csum | cat | map => simpa [writtenRegs] using hmem
    | valid | clrrow | place | write => cases hmem
  · obtain ⟨b, hb, hab⟩ : ∃ b, writtenBuffer i = some b ∧ inBuffer b a := by
      by_contra hnone
      exact ha (readByte_of_exec h fun b hb hab => hnone ⟨b, hb, hab⟩)
    cases i with
    | csum => cases hb; exact Or.inl ⟨rfl, hab⟩
    | cat =>
      cases hb
      obtain ⟨-, hhi⟩ := hab
      exact Or.inr (Or.inl ⟨rfl, hhi⟩)
    | map => cases hb; exact Or.inr (Or.inr (Or.inl ⟨rfl, hab⟩))
    | clrrow => cases hb; exact Or.inr (Or.inr (Or.inr ⟨Or.inl rfl, hab⟩))
    | place => cases hb; exact Or.inr (Or.inr (Or.inr ⟨Or.inr rfl, hab⟩))
    | valid | write => cases hb
  · exact (v_of_exec h).resolve_left hv
  · exact by_contra fun hi => hopen (chanOpen_of_exec_ne_write h hi)
  · by_contra hi
    obtain ⟨-, -, hsame, -⟩ := rest_of_exec h hi
    exact hsink hsame
  · obtain ⟨-, herr, hgrown⟩ := (emitted_of_exec h).resolve_left hemitted
    exact ⟨herr, recordOf s, hgrown⟩

/-- Settles O15: by the ways a command can fail, and for a `WRITE` by the sink's response. -/
theorem failingCommandWrites : Obligations.FailingCommandWrites := by
  intro i s t h herr
  refine ⟨(v_of_exec h).resolve_right fun hv => herr hv.2, sameHost_of_exec h,
    (emitted_of_exec h).resolve_right fun hw => herr hw.2.1, ?_⟩
  rcases exec_failed_cases h herr with ⟨rfl, e, rfl⟩ | ⟨rfl, e, rfl⟩ | ⟨rfl, hsink⟩ | ⟨hc, hm, rfl⟩
  · obtain ⟨-, hopen, hsink, -⟩ := rest_of_exec h (by decide)
    obtain ⟨hstore, -⟩ := id hsink
    exact ⟨fun _ => csumFailed_csumFailure e s, nofun, fun hne => absurd rfl hne, nofun, fun _ => ⟨hopen, hstore⟩, fun _ => hsink⟩
  · obtain ⟨-, hopen, hsink, -⟩ := rest_of_exec h (by decide)
    obtain ⟨hstore, -⟩ := id hsink
    exact ⟨nofun, fun _ => mapFailed_mapFailure e s, fun _ hne => absurd rfl hne, nofun, fun _ => ⟨hopen, hstore⟩, fun _ => hsink⟩
  · refine ⟨nofun, nofun, fun _ _ => ⟨fun r _ => x_of_exec h r nofun, sameBytes_of_mem_eq (mem_of_exec_write h)⟩, ?_⟩
    have hothers : ∀ u, u ≠ s.x .tag → t.sinkAt u = s.sinkAt u := fun u hu => sinkOutcome_sinkAt_ne hsink hu
    rcases writeAsked_err hsink with ⟨he, -⟩ | ⟨he, hr⟩ | ⟨he, hr⟩ | ⟨he, hr⟩
    · exact absurd he herr
    all_goals rw [writeAsked, hr] at hsink
    · obtain ⟨-, hopen, hstore, -⟩ := sinkOutcome_openFailed hsink
      exact ⟨by simp [he], fun _ => ⟨hopen, hstore⟩, by simp [he]⟩
    · obtain ⟨-, hopen, hentry, -⟩ := sinkOutcome_initFailed hsink
      exact ⟨fun _ => ⟨hopen, hentry, hothers⟩, by simp [he], by simp [he]⟩
    · obtain ⟨-, hopen, hentry, -⟩ := sinkOutcome_rowFailed hsink
      exact ⟨fun _ => ⟨hopen, hentry, hothers⟩, by simp [he], by simp [he]⟩
  · exact ⟨fun hi => absurd hi hc, fun hi => absurd hi hm, fun _ _ => ⟨fun _ _ => rfl, fun _ => rfl⟩, by simp,
      fun _ => ⟨rfl, rfl⟩, fun _ => ⟨rfl, rfl, rfl, rfl, rfl⟩⟩

end Sys2Proof.Proofs
end

section
/-! PROOFS. What a step can do: one case per kind of input, and per kind of host transaction (R65, R70, R76, R220). -/

namespace Sys2Proof.Machine

/-- The addresses the host may write are those of `DBUF` and of `ROW` (R55, R57). -/
abbrev hostWritable (a : Fin 256) : Prop := a.val < 0x20 ∨ (0x40 ≤ a.val ∧ a.val < 0x60)

/-! ## Single transactions -/

/-- `WR` of a word to a register the host may write (R22). -/
theorem issue_writeOperand {r : OpReg} (h : hostWritesReg r = true) (w : Word) (s : State) :
    issue (.wr (regNumber r) w) s = .next (s.setX r w) := by
  have hw := issue_writeReg h w.toNat s
  rwa [writeReg, BitVec.ofNat_toNat, BitVec.setWidth_eq] at hw

/-- The register numbers 0 to 7 name the operand registers the host may write (R21, R22). -/
theorem exists_hostRegister {n : Fin 16} (h : n.val < 8) : ∃ r, hostWritesReg r = true ∧ regNumber r = n := by
  obtain ⟨n, hn⟩ := n
  simp only at h
  interval_cases n
  exacts [⟨.dlen, rfl, rfl⟩, ⟨.explen, rfl, rfl⟩, ⟨.modulus, rfl, rfl⟩, ⟨.outlen, rfl, rfl⟩, ⟨.offset, rfl, rfl⟩,
    ⟨.width, rfl, rfl⟩, ⟨.height, rfl, rfl⟩, ⟨.tag, rfl, rfl⟩]

/-- `WR` to a number 8 to 14: the write completes and changes nothing (R22, R24, R27). -/
theorem issue_wr_ignored {n : Fin 16} (h8 : 8 ≤ n.val) (h15 : n.val < 15) (w : Word) (s : State) :
    issue (.wr n w) s = .next s := by
  obtain ⟨n, hn⟩ := n
  simp only at h8 h15
  interval_cases n <;> rfl

/-- `RD` of an operand register returns its value (R22). -/
theorem issue_readOperand (r : OpReg) (s : State) : issue (.rd (regNumber r)) s = .next (s.reply (.reg (s.x r))) := by
  cases r <;> rfl

/-- `RD` of a number 10 to 13 is refused (R27, U9). -/
theorem issue_readReserved {n : Fin 16} (h10 : 10 ≤ n.val) (h13 : n.val ≤ 13) (s : State) :
    issue (.rd n) s = .refused (.readReservedRegister n) := by
  obtain ⟨n, hn⟩ := n
  simp only at h10 h13
  interval_cases n <;> rfl

/-- `RB` of an address of a buffer returns the byte that is there (R55). -/
theorem issue_readByte_of_bufferAt {a : Fin 256} {u : Buffer} (h : bufferAt a.val = some u) (s : State) :
    issue (.rb a) s = .next (s.reply (.byte (s.readByte a.val))) := by
  rw [issue_eq, transact, hostReadByte, h]

/-- `RB` of a reserved address is refused (R56, U9). -/
theorem issue_readReservedAddress {a : Fin 256} (h : bufferAt a.val = none) (s : State) :
    issue (.rb a) s = .refused (.readReservedAddress a) := by
  rw [issue_eq, transact, hostReadByte, h]

/-! ## All transactions -/

/-- Everything a host transaction can do: `TxnStep x s t` says by which of its cases `x` takes `s` to `t`. -/
inductive TxnStep : HostTxn → State → State → Prop where
  | command (i s t) (h : exec i s = .next t) : TxnStep (.wr 15 (encode i)) s t
  | illegalWord (w s) : TxnStep (.wr 15 w) s (s.setErr 8)
  | writesReg (r w s) (h : hostWritesReg r = true) : TxnStep (.wr (regNumber r) w) s (s.setX r w)
  | writesByte (a b s) (h : hostWritable a) : TxnStep (.wb a b) s (s.storeBytes a.val [b])
  | ignored (x s) : TxnStep x s s
  | reads (x k s) : TxnStep x s (s.reply k)

section
variable {s t : State}

/-- A command write runs the command the word encodes, or only reports that it encodes none (R25, R82). -/
theorem commandWrite_cases {w : Word} (h : commandWrite w s = .next t) : TxnStep (.wr 15 w) s t := by
  cases hd : decode w with
  | ok i =>
    rw [commandWrite_ok hd] at h
    rw [decode_eq_ok_iff.mp hd]
    exact .command i s t h
  | error e =>
    cases (commandWrite_illegal hd s).symm.trans h
    exact .illegalWord w s

/-- A register write is a command write, a store in one of the registers 0 to 7, or without effect (R22, R24, R25, R27). -/
theorem hostWriteReg_cases {n : Fin 16} {w : Word} (h : issue (.wr n w) s = .next t) : TxnStep (.wr n w) s t := by
  by_cases h8 : n.val < 8
  · obtain ⟨r, hr, rfl⟩ := exists_hostRegister h8
    cases (issue_writeOperand hr w s).symm.trans h
    exact .writesReg r w s hr
  · by_cases h15 : n.val < 15
    · cases (issue_wr_ignored (Nat.not_lt.mp h8) h15 w s).symm.trans h
      exact .ignored _ s
    · obtain rfl : n = 15 := Fin.ext (by omega)
      exact commandWrite_cases h

/-- A register read that is not refused returns a value (R22, R24, R76). -/
theorem hostReadReg_cases {n : Fin 16} (h : issue (.rd n) s = .next t) : TxnStep (.rd n) s t := by
  rw [issue_eq, transact, hostReadReg] at h
  split at h <;> cases h
  · exact .reads _ _ s
  · exact .reads _ _ s

/-- A byte write stores in `DBUF` or `ROW`, or is without effect (R55 to R57). -/
theorem hostWriteByte_cases {a : Fin 256} {b : Byte} (h : issue (.wb a b) s = .next t) : TxnStep (.wb a b) s t := by
  by_cases ha : hostWritable a
  · cases (issue_writeByte ha b s).symm.trans h
    exact .writesByte a b s ha
  · cases (issue_writeByte_ignored ha b s).symm.trans h
    exact .ignored _ s

/-- A byte read that is not refused returns a byte (R55, R76). -/
theorem hostReadByte_cases {a : Fin 256} (h : issue (.rb a) s = .next t) : TxnStep (.rb a) s t := by
  cases hu : bufferAt a.val with
  | some u =>
    cases (issue_readByte_of_bufferAt hu s).symm.trans h
    exact .reads _ _ s
  | none => cases (issue_readReservedAddress hu s).symm.trans h

/-- A transaction that answers a next state does so by one of the cases of `TxnStep`. -/
theorem issue_cases {x : HostTxn} (h : issue x s = .next t) : TxnStep x s t := by
  cases x with
  | wr n w => exact hostWriteReg_cases h
  | rd n => exact hostReadReg_cases h
  | wb a b => exact hostWriteByte_cases h
  | rb a => exact hostReadByte_cases h

/-! ## Steps -/

/-- A step does nothing, or takes the next input: the reset event or a host transaction (R5, R70, R220). -/
theorem step_cases (h : step s = .next t) :
    t = s ∨ (∃ rest, s.inputs = .reset :: rest ∧ t = resetEvent (s.setInputs rest))
      ∨ ∃ x rest, s.inputs = .txn x :: rest ∧ TxnStep x (s.setInputs rest) t := by
  cases hin : s.inputs with
  | nil =>
    cases (step_idle hin).symm.trans h
    exact .inl rfl
  | cons i rest =>
    cases i with
    | reset =>
      cases (step_reset hin).symm.trans h
      exact .inr (.inl ⟨rest, rfl, rfl⟩)
    | txn x =>
      rw [step_txn hin] at h
      exact .inr (.inr ⟨x, rest, rfl, issue_cases h⟩)

/-- A predicate that does not look at the waiting inputs is kept by every step if the reset event and every case of a host
transaction keep it. -/
theorem step_induction {P : State → Prop} (hinputs : ∀ u l, P u → P (u.setInputs l)) (hreset : ∀ u, P u → P (resetEvent u))
    (htxn : ∀ x u v, TxnStep x u v → P u → P v) (hs : P s) (h : step s = .next t) : P t := by
  rcases step_cases h with rfl | ⟨rest, -, rfl⟩ | ⟨x, rest, -, hx⟩
  · exact hs
  · exact hreset _ (hinputs s rest hs)
  · exact htxn x _ t hx (hinputs s rest hs)

end

end Sys2Proof.Machine
end

section
/-! PROOFS. The observable invariants: what each looks at, and that the reset event and every transaction keep them (R39). -/

namespace Sys2Proof.Machine

open Sys2Proof.Spec

section
variable {s t : State}

/-! ## What the invariants look at -/

/-- Equal registers are equal as numbers (R8). -/
theorem xNat_congr {r : OpReg} (h : t.x r = s.x r) : t.xNat r = s.xNat r := congrArg BitVec.toNat h

/-- The first invariant looks at `CLEN` and `CBUF` (R39 a). -/
theorem cbufAgrees_congr (hlen : t.x .clen = s.x .clen) (hbytes : ∀ j < 9, t.cbuf j = s.cbuf j) (h : cbufAgrees s) :
    cbufAgrees t := by
  obtain ⟨h9, hj⟩ := h
  rw [cbufAgrees, xNat_congr hlen]
  exact ⟨h9, fun j hj9 => hbytes j hj9 ▸ hj j hj9⟩

/-- A cleared `CBUF` with `CLEN = 0` agrees (R39 a). -/
theorem cbufAgrees_of_clear (hlen : t.x .clen = 0) (hbytes : ∀ j < 9, t.cbuf j = 0x00) : cbufAgrees t := by
  have hn : t.xNat .clen = 0 := congrArg BitVec.toNat hlen
  rw [cbufAgrees, hn]
  exact ⟨Nat.zero_le 9, hbytes⟩

/-- The second invariant looks at `PLEN` and `PBUF`; the glyph table is the same in every state (R34, R39 b). -/
theorem pbufAgrees_congr (hlen : t.x .plen = s.x .plen) (hbytes : ∀ k < 32, t.pbuf k = s.pbuf k) (h : pbufAgrees s) :
    pbufAgrees t := by
  obtain ⟨h32, hk⟩ := h
  have hgrom : ∀ d < 10, s.grom d = t.grom d := fun d hd => (s.grom_eq hd).trans (t.grom_eq hd).symm
  rw [pbufAgrees, xNat_congr hlen]
  refine ⟨h32, fun k hk32 => ?_⟩
  have hold := hk k hk32
  rw [hbytes k hk32]
  split_ifs at hold ⊢ with hlt
  · obtain ⟨d, hd, hpat⟩ := hold
    exact ⟨d, hd, hpat.trans (hgrom d hd)⟩
  · exact hold

/-- A cleared `PBUF` with `PLEN = 0` agrees (R39 b). -/
theorem pbufAgrees_of_clear (hlen : t.x .plen = 0) (hbytes : ∀ k < 32, t.pbuf k = 0x00) : pbufAgrees t := by
  have hn : t.xNat .plen = 0 := congrArg BitVec.toNat hlen
  rw [pbufAgrees, hn]
  exact ⟨Nat.zero_le 32, hbytes⟩

/-- Of the third invariant the error number is all that is not true of every state (R24, R39 c). -/
theorem statusLegal_of_err (h : t.err.toNat ≤ 8) : statusLegal t := ⟨h, t.statusWord_reserved⟩

/-- What the host and the sink hold is nothing the invariants look at: registers, stored bytes and the three flags are. -/
theorem inv_congr (hregs : t.regs = s.regs) (hmem : t.mem = s.mem) (herr : t.err.toNat ≤ 8) (hopen : t.chanOpen = s.chanOpen)
    (h : Inv s) : Inv t := by
  obtain ⟨hc, hp, -, ho, -⟩ := h
  have hx := State.x_of_regs hregs
  have hb := sameBytes_of_mem_eq hmem
  exact ⟨cbufAgrees_congr (hx _) (fun _ _ => hb _) hc, pbufAgrees_congr (hx _) (fun _ _ => hb _) hp, statusLegal_of_err herr,
    hopen.trans ho, gromConstant_of_state t⟩

/-! ## What a command leaves of them -/

/-- A `MAP` that succeeds (R133). -/
def mapSuccess (s : State) : State :=
  mapEnd (s.glyphPatterns ++ List.replicate (32 - s.xNat .dlen) 0x00) (s.x .dlen) 0 s

/-- `PBUF` after a `MAP` that succeeded: the patterns, and `0x00` where there is none (R133). -/
theorem pbuf_mapSuccess (h : s.xNat .dlen ≤ 32) {k : Nat} (hk : k < 32) :
    (mapSuccess s).pbuf k = s.glyphPatterns.getD k 0x00 := by
  rw [mapSuccess, pbuf_mapEnd (by simp; omega) _ _ _ hk, getD_append_zeros]

/-- No command reports more than an error number 7 (R191 to R194). -/
theorem errorOf_le (i : Instr) (s : State) : errorOf i s ≤ 7 := by
  cases i with
  | clrrow => exact Nat.zero_le 7
  | write =>
    rw [errorOf]
    split_ifs
    · exact le_refl 7
    · cases s.nextResponse <;> decide
  | valid | csum | cat | map | place =>
    rw [errorOf]
    split_ifs <;> omega

/-- A command answers with an error number that exists (R190, R191). -/
theorem err_le_of_exec {i : Instr} (h : exec i s = .next t) : t.err.toNat ≤ 8 := by
  have hle := errorOf_le i s
  rw [err_of_exec h]
  omega

/-- A command that does not write `CBUF` leaves the first invariant (R39 a). -/
theorem cbufAgrees_of_exec_ne_csum {i : Instr} (h : exec i s = .next t) (hi : i ≠ .csum) (hs : cbufAgrees s) : cbufAgrees t := by
  obtain ⟨hlen, hbuf⟩ := writes_csum hi
  exact cbufAgrees_congr (x_of_exec h _ hlen)
    (fun j hj => readByte_of_exec_of_inBuffer h hbuf ⟨Nat.le_add_right _ j, Nat.add_lt_add_left hj _⟩) hs

/-- A `CSUM` that succeeds leaves its text with zeros behind it (R39 a, R113, R117). -/
theorem cbufAgrees_csumSuccess {r : List Byte} (hr : r.length = s.xNat .outlen) (h9 : s.xNat .outlen ≤ 9)
    (hd : ∀ b ∈ r, isDigit b = true) : cbufAgrees (csumSuccess r s) := by
  have hlen : (csumSuccess r s).xNat .clen = s.xNat .outlen := congrArg BitVec.toNat (State.x_setX_same ..)
  rw [cbufAgrees, hlen]
  refine ⟨h9, fun j hj => ?_⟩
  rw [cbuf_csumSuccess hr h9 hj]
  split_ifs with hlt
  · rw [List.getD_eq_getElem _ _ (hr ▸ hlt)]
    exact hd _ (List.getElem_mem _)
  · exact List.getD_eq_default _ _ (by omega)

/-- `CSUM` leaves a text that agrees with `CLEN`, or all of `CBUF` clear (R39 a, R113, R196). -/
theorem cbufAgrees_of_exec_csum (h : exec .csum s = .next t) : cbufAgrees t := by
  cases exec_cases h with
  | csumFails _ e =>
    obtain ⟨-, hlen, hbytes, -⟩ := csumFailed_csumFailure e s
    exact cbufAgrees_of_clear hlen hbytes
  | csumOk _ r _ h9 hr hd => exact cbufAgrees_csumSuccess hr h9 hd

/-- A command that does not write `PBUF` leaves the second invariant (R39 b). -/
theorem pbufAgrees_of_exec_ne_map {i : Instr} (h : exec i s = .next t) (hi : i ≠ .map) (hs : pbufAgrees s) : pbufAgrees t := by
  obtain ⟨hlen, hbuf⟩ := writes_map hi
  exact pbufAgrees_congr (x_of_exec h _ hlen)
    (fun k hk => readByte_of_exec_of_inBuffer h hbuf ⟨Nat.le_add_right _ k, Nat.add_lt_add_left hk _⟩) hs

/-- A `MAP` that succeeds leaves glyph patterns with zeros behind them (R39 b, R133). -/
theorem pbufAgrees_mapSuccess (h32 : s.xNat .dlen ≤ 32) (hd : allDigits s) : pbufAgrees (mapSuccess s) := by
  have hlen : (mapSuccess s).xNat .plen = s.xNat .dlen := congrArg BitVec.toNat (x_plen_mapEnd ..)
  rw [pbufAgrees, hlen]
  refine ⟨h32, fun k hk => ?_⟩
  rw [pbuf_mapSuccess h32 hk]
  split_ifs with hlt
  · have hdigit : digit (s.dbuf k) < 10 := digit_lt ((isDigit_iff _).mpr (hd k hlt))
    rw [State.glyphPatterns_getD hlt (hd k hlt)]
    exact ⟨digit (s.dbuf k), hdigit, (s.grom_eq hdigit).trans ((mapSuccess s).grom_eq hdigit).symm⟩
  · exact List.getD_eq_default _ _ (by rw [State.glyphPatterns_length]; omega)

/-- `MAP` leaves patterns that agree with `PLEN`, or all of `PBUF` clear (R39 b, R133, R196). -/
theorem pbufAgrees_of_exec_map (h : exec .map s = .next t) : pbufAgrees t := by
  cases exec_cases h with
  | mapFails _ e =>
    obtain ⟨-, hlen, hbytes, -⟩ := mapFailed_mapFailure e s
    exact pbufAgrees_of_clear hlen hbytes
  | mapOk _ h32 hd => exact pbufAgrees_mapSuccess h32 ((digitString_all_iff_allDigits s).mp hd)

/-- No command opens a channel and leaves it open (R39 d, R171). -/
theorem channelClosed_of_exec {i : Instr} (h : exec i s = .next t) (hs : channelClosed s) : channelClosed t := by
  by_cases hi : i = .write
  · subst hi
    exact (chanOpen_of_exec_write h).elim id fun ⟨hopen, _⟩ => hopen.trans hs
  · exact (chanOpen_of_exec_ne_write h hi).trans hs

/-- Every command keeps the invariants (R39). -/
theorem inv_of_exec {i : Instr} (h : exec i s = .next t) (hs : Inv s) : Inv t := by
  obtain ⟨hc, hp, -, ho, -⟩ := hs
  refine ⟨?_, ?_, statusLegal_of_err (err_le_of_exec h), channelClosed_of_exec h ho, gromConstant_of_state t⟩
  · by_cases hi : i = .csum
    · subst hi
      exact cbufAgrees_of_exec_csum h
    · exact cbufAgrees_of_exec_ne_csum h hi hc
  · by_cases hi : i = .map
    · subst hi
      exact pbufAgrees_of_exec_map h
    · exact pbufAgrees_of_exec_ne_map h hi hp

/-! ## What the host leaves of them -/

/-- After the reset event the invariants hold (R39, R40). -/
theorem inv_resetEvent (u : State) : Inv (resetEvent u) := by
  refine ⟨cbufAgrees_of_clear (u.x_resetEvent _) fun j hj => ?_, pbufAgrees_of_clear (u.x_resetEvent _) fun k hk => ?_,
    statusLegal_of_err (Nat.zero_le 8), rfl, gromConstant_of_state _⟩
  · exact u.readByte_resetEvent (by rw [Buffer.cbuf_base]; omega)
  · exact u.readByte_resetEvent (by rw [Buffer.pbuf_base]; omega)

/-- A host write of a register keeps the invariants: `CLEN` and `PLEN` are read only (R22, R39). -/
theorem inv_setX {r : OpReg} (h : hostWritesReg r = true) (w : Word) (hs : Inv s) : Inv (s.setX r w) := by
  obtain ⟨hc, hp, ⟨herr, -⟩, ho, -⟩ := hs
  refine ⟨cbufAgrees_congr (State.x_setX_ne _ _ ?_) (fun _ _ => rfl) hc, pbufAgrees_congr (State.x_setX_ne _ _ ?_) (fun _ _ => rfl) hp,
    statusLegal_of_err herr, ho, gromConstant_of_state _⟩
  all_goals
    rintro rfl
    cases h

/-- A host write of a byte keeps the invariants: `CBUF` and `PBUF` are read only (R39, R57). -/
theorem inv_storeByte {a : Fin 256} (h : hostWritable a) (b : Byte) (hs : Inv s) : Inv (s.storeBytes a.val [b]) := by
  obtain ⟨hc, hp, ⟨herr, -⟩, ho, -⟩ := hs
  refine ⟨cbufAgrees_congr (s := s) rfl (fun j hj => ?_) hc, pbufAgrees_congr (s := s) rfl (fun k hk => ?_) hp,
    statusLegal_of_err herr, ho, gromConstant_of_state _⟩
  all_goals
    refine s.readByte_storeBytes_outside ?_
    simp only [List.length_singleton, Buffer.cbuf_base, Buffer.pbuf_base]
    omega

/-- Every host transaction keeps the invariants (R39). -/
theorem inv_of_txnStep {x : HostTxn} (h : TxnStep x s t) (hs : Inv s) : Inv t := by
  have ⟨_, _, ⟨herr, _⟩, _, _⟩ := hs
  cases h with
  | command i _ _ hi => exact inv_of_exec hi hs
  | illegalWord => exact inv_congr (s := s) rfl rfl (le_refl 8) rfl hs
  | writesReg r w _ hr => exact inv_setX hr w hs
  | writesByte a b _ ha => exact inv_storeByte ha b hs
  | ignored => exact hs
  | reads => exact inv_congr rfl rfl herr rfl hs

end

end Sys2Proof.Machine

namespace Sys2Proof.Proofs

open Sys2Proof.Machine

/-- Settles O44: the reset event and every kind of host transaction keep the five invariants. -/
theorem invariantKeptByEveryStep : Obligations.InvariantKeptByEveryStep := by
  intro s t hs h
  have hinputs : ∀ (u : State) l, Inv u → Inv (u.setInputs l) := fun u l hu =>
    have ⟨_, _, ⟨herr, _⟩, _, _⟩ := hu
    inv_congr rfl rfl herr rfl hu
  exact step_induction (P := fun u => Inv u) hinputs (fun u _ => inv_resetEvent u) (fun _ _ _ => inv_of_txnStep) hs h

/-- Settles O43: the reset state is what the reset event leaves of it. -/
theorem invariantHoldsAtReset : Obligations.InvariantHoldsAtReset := inv_resetEvent State.reset

/-- Settles O40: the reset state is what the reset event leaves of it. -/
theorem resetValues : Obligations.ResetValues := by
  have hbyte : ∀ a < 0x69, State.reset.readByte a = 0x00 := fun _ => State.reset.readByte_resetEvent
  refine ⟨State.reset.x_resetEvent, State.reset.statusWord_resetEvent, rfl, rfl, rfl, fun i hi => hbyte _ ?_, fun j hj => hbyte _ ?_,
    fun k hk => hbyte _ ?_, fun i hi => hbyte _ ?_, gromConstant_of_state _⟩
  all_goals
    simp only [Buffer.dbuf_base, Buffer.cbuf_base, Buffer.pbuf_base, Buffer.row_base]
    omega

end Sys2Proof.Proofs
end

section
/-! PROOFS. The host port: what a register write, a register read and a byte read do, and reads and writes one after another (R22,
R24, R55, R65, R71). -/

namespace Sys2Proof.Machine

/-! ## Registers -/

/-- An operand register is the one of its register number (R51). -/
theorem eq_regNumber {n : Fin 16} {r : OpReg} (h : r.number.val = n.val) : n = regNumber r := Fin.ext h.symm

/-- The registers the host may write are those with numbers 0 to 7 (R21, R22). -/
theorem number_lt_of_hostWritesReg {r : OpReg} (h : hostWritesReg r = true) : r.number.val < 8 := by
  cases r with
  | clen | plen => cases h
  | dlen | explen | modulus | outlen | offset | width | height | tag => decide

/-- An operand register is told by its number (R21). -/
theorem number_val_eq_iff {q r : OpReg} : q.number.val = r.number.val ↔ q = r :=
  ⟨fun h => OpReg.number_injective (Fin.ext h), fun h => h ▸ rfl⟩

/-! ## Bytes -/

/-- What the five regions of the buffer map have in common: the address belongs to a buffer, and its byte is read there (R55). -/
theorem bufferAt_of_region {s : State} {a : Nat} {b : Byte}
    (h : (a < 0x20 ∧ b = s.dbuf a) ∨ (0x20 ≤ a ∧ a < 0x40 ∧ b = s.pbuf (a - 0x20))
      ∨ (0x40 ≤ a ∧ a < 0x60 ∧ b = s.row (a - 0x40)) ∨ (0x60 ≤ a ∧ a < 0x69 ∧ b = s.cbuf (a - 0x60))
      ∨ (0x70 ≤ a ∧ a < 0x7A ∧ b = s.grom (a - 0x70))) : (∃ u, bufferAt a = some u) ∧ b = s.readByte a := by
  have hat : ∀ {base}, base ≤ a → s.readByte (base + (a - base)) = s.readByte a := fun hle => by rw [Nat.add_sub_cancel' hle]
  rcases h with ⟨h, rfl⟩ | ⟨hlo, h, rfl⟩ | ⟨hlo, h, rfl⟩ | ⟨hlo, h, rfl⟩ | ⟨hlo, h, rfl⟩
  · exact ⟨⟨.dbuf, bufferAt_of_inBuffer ⟨Nat.zero_le a, h⟩⟩, congrArg s.readByte (Nat.zero_add a)⟩
  · exact ⟨⟨.pbuf, bufferAt_of_inBuffer ⟨hlo, h⟩⟩, hat hlo⟩
  · exact ⟨⟨.row, bufferAt_of_inBuffer ⟨hlo, h⟩⟩, hat hlo⟩
  · exact ⟨⟨.cbuf, bufferAt_of_inBuffer ⟨hlo, h⟩⟩, hat hlo⟩
  · exact ⟨⟨.grom, bufferAt_of_inBuffer ⟨hlo, h⟩⟩, hat hlo⟩

/-- The reserved addresses belong to no buffer (R56). -/
theorem bufferAt_reserved {a : Nat} (h : (0x69 ≤ a ∧ a < 0x70) ∨ 0x7A ≤ a) : bufferAt a = none := by
  unfold bufferAt
  rw [if_neg (by omega), if_neg (by omega), if_neg (by omega), if_neg (by omega)]
  split_ifs
  · rfl
  · omega
  · rfl

/-! ## Two writes of one value -/

/-- Nothing is left to erase after the entries of an address were erased. -/
theorem Memory.erase_erase (m : Memory) (a : Nat) : Memory.erase (Memory.erase m a) a = Memory.erase m a := by
  simp [Memory.erase, List.filter_filter]

/-- Erasing the entry that was put in place leaves the other entries. -/
theorem Memory.erase_place (m : Memory) (a : Nat) (b : Byte) : Memory.erase (Memory.place m a b) a = Memory.erase m a := by
  induction m with
  | nil => simp [Memory.place, Memory.erase]
  | cons c m ih =>
    rw [Memory.place]
    split_ifs
    · simp [Memory.erase]
    · simpa only [Memory.erase, List.filter_cons] using congrArg (fun l => if decide (c.1 ≠ a) = true then c :: l else l) ih

/-- Writing a byte twice leaves the entries that writing it once leaves (R65). -/
theorem Memory.write_write (m : Memory) (a : Nat) (b : Byte) :
    Memory.write (Memory.write m a b) a b = Memory.write m a b := by
  simp only [Memory.write]
  split_ifs
  · exact Memory.erase_erase m a
  · rw [Memory.erase_place, Memory.erase_erase]
  · rfl

/-- Storing a byte twice is storing it once (R65). -/
theorem State.storeBytes_storeBytes_singleton (s : State) (a : Nat) (b : Byte) :
    (s.storeBytes a [b]).storeBytes a [b] = s.storeBytes a [b] := by
  simp only [State.storeBytes, Memory.writeFrom, Memory.write_write]

/-- Setting a register twice is setting it once (R65). -/
theorem State.setX_setX (s : State) (r : OpReg) (w : Word) : (s.setX r w).setX r w = s.setX r w := by
  simp only [State.setX, Vector.set_set]

/-- A transaction that leaves a state in which it does nothing more: issuing it twice is issuing it once. -/
theorem issueAll_twice {x : HostTxn} {s t : State} (h : issue x s = .next t) (h' : issue x t = .next t) :
    issueAll [x, x] s = issueAll [x] s := by
  simp only [issueAll, h, h']

/-- Two transactions that both answer, one after the other. -/
theorem issueAll_pair {x y : HostTxn} {s t u : State} (h : issue x s = .next t) (h' : issue y t = .next u) :
    issueAll [x, y] s = .next u := by
  simp only [issueAll, h, h']

end Sys2Proof.Machine

namespace Sys2Proof.Proofs

open Sys2Proof.Machine

/-- Settles O34: a number 0 to 7 names a register the host may write, a number 8 to 14 none. -/
theorem hostRegisterWrite : Obligations.HostRegisterWrite := by
  intro s n w rest hin hn
  rw [step_txn hin]
  by_cases h8 : n.val < 8
  · obtain ⟨r, hr, rfl⟩ := exists_hostRegister h8
    refine ⟨_, issue_writeOperand hr w _, rfl, fun q => ?_, fun _ => rfl, rfl, rfl, rfl, ⟨rfl, rfl, rfl, rfl, rfl⟩, rfl⟩
    simp only [State.x_setX, State.x_setInputs, regNumber, number_val_eq_iff, number_lt_of_hostWritesReg hr, and_true]
  · refine ⟨_, issue_wr_ignored (Nat.not_lt.mp h8) hn w _, rfl, fun q => ?_, fun _ => rfl, rfl, rfl, rfl,
      ⟨rfl, rfl, rfl, rfl, rfl⟩, rfl⟩
    simp only [State.x_setInputs, h8, and_false, if_false]

/-- Settles O35: by what the register number names. -/
theorem hostRegisterRead : Obligations.HostRegisterRead := by
  intro s n rest hin
  rw [step_txn hin]
  refine ⟨fun r hr => ?_, fun h14 => ?_, fun h10 h13 => issue_readReserved h10 h13 _, fun h15 => ?_⟩
  · rw [eq_regNumber hr]
    exact issue_readOperand r _
  · obtain rfl : n = 14 := Fin.ext h14
    exact ⟨s.statusWord, issue_readStatus _, s.statusWord_err, s.statusWord_v, s.statusWord_open, s.statusWord_reserved⟩
  · obtain rfl : n = 15 := Fin.ext h15
    rfl

/-- Settles O37: the address belongs to a buffer, or to none. -/
theorem hostByteRead : Obligations.HostByteRead := by
  intro s a rest hin
  rw [step_txn hin]
  refine ⟨fun b hb => ?_, fun ha => issue_readReservedAddress (bufferAt_reserved ha) _⟩
  obtain ⟨⟨u, hu⟩, rfl⟩ := bufferAt_of_region hb
  exact issue_readByte_of_bufferAt hu _

/-- Settles O38: the read returns what the write has just stored. -/
theorem readReturnsLatestWrite : Obligations.ReadReturnsLatestWrite := by
  refine ⟨fun s a b ha => ?_, fun s n w hn => ?_⟩
  · have hlt : a.val < 0x69 := by omega
    refine ⟨_, issueAll_pair (issue_writeByte ha b s) (issue_readByte hlt _), ?_⟩
    rw [State.readByte_storeBytes_singleton _ hlt, if_pos rfl]
    rfl
  · obtain ⟨r, hr, rfl⟩ := exists_hostRegister hn
    refine ⟨_, issueAll_pair (issue_writeOperand hr w s) (issue_readOperand r _), ?_⟩
    rw [State.x_setX_same]
    rfl

/-- Settles O39: the second write finds what the first has left. -/
theorem repeatedWriteEqualsOne : Obligations.RepeatedWriteEqualsOne := by
  refine ⟨fun s a b => ?_, fun s n w hn => ?_⟩
  · by_cases ha : hostWritable a
    · refine issueAll_twice (issue_writeByte ha b s) ?_
      rw [issue_writeByte ha, State.storeBytes_storeBytes_singleton]
    · exact issueAll_twice (issue_writeByte_ignored ha b s) (issue_writeByte_ignored ha b s)
  · by_cases h8 : n.val < 8
    · obtain ⟨r, hr, rfl⟩ := exists_hostRegister h8
      refine issueAll_twice (issue_writeOperand hr w s) ?_
      rw [issue_writeOperand hr, State.setX_setX]
    · have hig : issue (.wr n w) s = .next s := issue_wr_ignored (Nat.not_lt.mp h8) hn w s
      exact issueAll_twice hig hig

end Sys2Proof.Proofs
end

section
/-! PROOFS. The two stores stay canonical, and a canonical memory is determined by what it reads as (log 5). -/

namespace Sys2Proof.Machine

/-- The entries of a canonical memory stand in rising order of their addresses. -/
theorem Memory.pairwise_of_wf {m : Memory} (h : Memory.wf m = true) : m.Pairwise (fun c d => c.1 < d.1) := by
  induction m with
  | nil => exact .nil
  | cons c m ih =>
    obtain ⟨-, -, hlt, hwf⟩ := Memory.wf_cons.mp h
    exact .cons hlt (ih hwf)

/-- An address without an entry reads as it does where nothing is listed. -/
theorem Memory.lookup_of_not_mem {m : Memory} {a : Nat} (h : ∀ c ∈ m, c.1 ≠ a) : Memory.lookup m a = Memory.unlisted a := by
  induction m with
  | nil => rfl
  | cons c m ih =>
    rw [Memory.lookup, if_neg (h c (by simp)), ih fun d hd => h d (by simp [hd])]

/-- The entries of a canonical memory are the stored addresses that do not read as if unlisted, with what they read as. -/
theorem Memory.mem_iff_of_wf {m : Memory} (h : Memory.wf m = true) (c : Host.Cell) :
    c ∈ m ↔ storedAt c.1 = true ∧ c.2 ≠ Memory.unlisted c.1 ∧ c.2 = Memory.lookup m c.1 := by
  induction m with
  | nil => simp [Memory.lookup]
  | cons d m ih =>
    obtain ⟨hs, hne, hlt, hwf⟩ := Memory.wf_cons.mp h
    rw [List.mem_cons, ih hwf, Memory.lookup]
    by_cases hdc : d.1 = c.1
    · have hnone : Memory.lookup m c.1 = Memory.unlisted c.1 := Memory.lookup_of_not_mem fun e he => by have := hlt e he; omega
      rw [if_pos hdc, hnone]
      constructor
      · rintro (rfl | ⟨-, hlisted, hval⟩)
        · exact ⟨hs, hne, rfl⟩
        · exact absurd hval hlisted
      · rintro ⟨-, -, hval⟩
        exact .inl (Prod.ext hdc.symm hval)
    · rw [if_neg hdc, or_iff_right fun heq => hdc (congrArg Prod.fst heq.symm)]

/-- The store of bytes and the store of the sink are all that the canonical form looks at. -/
theorem canonical_congr {s t : State} (hmem : t.mem = s.mem) (hsink : t.sink = s.sink) (h : Canonical s) : Canonical t := by
  rwa [Canonical, hmem, hsink]

section
variable {s t : State}

/-- The sink's response keeps the store of the sink canonical (R169, R172). -/
theorem sinkWf_of_sinkOutcome {resp : SinkResponse} {r : RasterRecord} (h : sinkOutcome resp r s = .next t)
    (hs : SinkStore.wf s.sink = true) : SinkStore.wf t.sink = true := by
  rw [sinkOutcome_eq] at h
  cases h
  cases resp with
  | openFailed => exact hs
  | accepted | initFailed | rowFailed => exact SinkStore.wf_put hs _ _

/-- Every command keeps the byte list canonical (log 5). -/
theorem memWf_of_exec {i : Instr} (h : exec i s = .next t) (hs : Memory.wf s.mem = true) : Memory.wf t.mem = true := by
  cases exec_cases h with
  | writeAsks => exact mem_of_exec_write h ▸ hs
  | csumFails | csumOk | catOk | mapFails | mapOk | clrrow | placeOk =>
    simp [csumFailure, mapFailure, failureWrites, Memory.wf_writeFrom hs]
  | validParam | validOk | catParam | placeParam | writeParam => exact hs

/-- Every command keeps the store of the sink canonical (log 5). -/
theorem sinkWf_of_exec {i : Instr} (h : exec i s = .next t) (hs : SinkStore.wf s.sink = true) : SinkStore.wf t.sink = true := by
  by_cases hi : i = .write
  · subst hi
    cases exec_cases h with
    | writeParam => exact hs
    | writeAsks _ _ hsink => exact sinkWf_of_sinkOutcome hsink hs
  · obtain ⟨-, -, ⟨hstore, -⟩, -⟩ := rest_of_exec h hi
    exact hstore ▸ hs

/-- Every host transaction keeps both stores canonical (log 5). -/
theorem canonical_of_txnStep {x : HostTxn} (h : TxnStep x s t) (hs : Canonical s) : Canonical t := by
  cases h with
  | command _ _ _ hi =>
    obtain ⟨hm, hk⟩ := hs
    exact ⟨memWf_of_exec hi hm, sinkWf_of_exec hi hk⟩
  | writesByte =>
    obtain ⟨hm, hk⟩ := hs
    exact ⟨State.wf_storeBytes hm _ _, hk⟩
  | ignored => exact hs
  | illegalWord | writesReg | reads => exact canonical_congr (s := s) rfl rfl hs

end

end Sys2Proof.Machine

namespace Sys2Proof.Proofs

open Sys2Proof.Machine

/-- Settles O45: every write of a byte and every entry put in the sink's store keeps the canonical form. -/
theorem storageStaysCanonical : Obligations.StorageStaysCanonical := by
  refine ⟨⟨rfl, rfl⟩, fun s t hs h => ?_⟩
  exact step_induction (P := fun u => Canonical u) (fun _ _ => id) (fun _ ⟨_, hk⟩ => ⟨rfl, hk⟩)
    (fun _ _ _ => canonical_of_txnStep) hs h

/-- Settles O46: the two lists have the same entries and both stand in rising order. -/
theorem canonicalMemoriesAreEqual : Obligations.CanonicalMemoriesAreEqual := by
  intro m m' h h' hread
  have hlookup : ∀ a, storedAt a = true → Memory.lookup m a = Memory.lookup m' a := fun a ha => by
    simpa only [Memory.read, ha, if_true] using hread a
  have hmem : ∀ c, c ∈ m ↔ c ∈ m' := fun c => by
    rw [Memory.mem_iff_of_wf h, Memory.mem_iff_of_wf h']
    exact and_congr_right fun hs => by rw [hlookup _ hs]
  have : Std.Irrefl fun c d : Host.Cell => c.1 < d.1 := ⟨fun c => Nat.lt_irrefl c.1⟩
  have : Std.Antisymm fun c d : Host.Cell => c.1 < d.1 := ⟨fun c d hcd hdc => absurd hcd (Nat.lt_asymm hdc)⟩
  exact (Memory.pairwise_of_wf h).eq_of_mem_iff (Memory.pairwise_of_wf h') hmem

end Sys2Proof.Proofs
end

section
/-! PROOFS. Every run of a command, with the conditions under which it takes each of its ends (R190, R192, R194). -/

namespace Sys2Proof.Machine

open Sys2Proof.Spec

/-- The cases of `CommandStep` with their exact conditions, so that they can be used in both directions: `CommandRun i s t` says under
which conditions `i` takes `s` to `t`. -/
inductive CommandRun : Instr → State → State → Prop where
  | validParam {s} (h : 32 < s.xNat .dlen) : CommandRun .valid s (s.setErr 7)
  | validOk {s} (h : s.xNat .dlen ≤ 32) :
      CommandRun .valid s ((s.setV (validateId s.digitString (s.xNat .explen))).setErr 0)
  | csumParam {s} (hp : csumRangeFails 4294967295 s) : CommandRun .csum s (csumFailure .paramError s)
  | csumInvalid {s} (hp : ¬ csumRangeFails 4294967295 s) (hd : ¬ allDigits s) : CommandRun .csum s (csumFailure .invalidInput s)
  | csumOverflow {s} (hp : ¬ csumRangeFails 4294967295 s) (hd : allDigits s) (hv : 4294967295 < stringValue s) :
      CommandRun .csum s (csumFailure .numericOverflow s)
  | csumOk {s} (hp : ¬ csumRangeFails 4294967295 s) (hd : allDigits s) (hv : stringValue s ≤ 4294967295) :
      CommandRun .csum s
        (csumSuccess (decText (s.xNat .outlen) (stringValue s % s.xNat .modulus % 10 ^ s.xNat .outlen)) s)
  | catParam {s} (hp : catRangeFails s) : CommandRun .cat s (s.setErr 7)
  | catOk {s} (hp : ¬ catRangeFails s) : CommandRun .cat s (catSuccess s)
  | mapParam {s} (h : 32 < s.xNat .dlen) : CommandRun .map s (mapFailure .paramError s)
  | mapUnmappable {s} (h : s.xNat .dlen ≤ 32) (hd : ¬ allDigits s) : CommandRun .map s (mapFailure .unmappableCharacter s)
  | mapOk {s} (h : s.xNat .dlen ≤ 32) (hd : allDigits s) : CommandRun .map s (mapSuccess s)
  | clrrow {s} : CommandRun .clrrow s ((s.storeBytes 0x40 (List.replicate 32 0x00)).setErr 0)
  | placeParam {s} (hp : placeRangeFails s) : CommandRun .place s (s.setErr 7)
  | placeOk {s} (hp : ¬ placeRangeFails s) :
      CommandRun .place s ((s.storeBytes (0x40 + s.xNat .offset) (s.bytes .pbuf (s.xNat .plen))).setErr 0)
  | writeParam {s} (hp : writeRangeFails s) : CommandRun .write s (s.setErr 7)
  | writeAsks {s t} (hp : ¬ writeRangeFails s) (h : writeAsked s t) : CommandRun .write s t

/-- The model runs each case as it stands. -/
theorem CommandRun.exec_eq {i : Instr} {s t : State} (h : CommandRun i s t) : exec i s = .next t := by
  cases h with
  | validParam h => exact execValid_param h
  | validOk h => exact execValid_ok h
  | csumParam hp => exact csumWith_param hp
  | csumInvalid hp hd => exact csumWith_invalid hp hd
  | csumOverflow hp hd hv => exact csumWith_overflow hp hd hv
  | csumOk hp hd hv => exact csumWith_ok hp hd hv
  | catParam hp => exact execCat_param hp
  | catOk hp => exact execCat_ok hp
  | mapParam h => exact exec_map_param h
  | mapUnmappable h hd => exact exec_map_unmappable h hd
  | mapOk h hd => exact exec_map_ok h hd
  | clrrow => exact execClrrow_eq s
  | placeParam hp => exact execPlace_param hp
  | placeOk hp => exact execPlace_ok hp
  | writeParam hp => exact execWrite_param hp
  | writeAsks hp h => exact (execWrite_asks hp).trans h

/-- The conditions leave no state out: every command runs from every state (R190). -/
theorem exists_commandRun (i : Instr) (s : State) : ∃ t, CommandRun i s t := by
  cases i with
  | valid =>
    rcases Nat.lt_or_ge 32 (s.xNat .dlen) with h | h
    · exact ⟨_, .validParam h⟩
    · exact ⟨_, .validOk h⟩
  | csum =>
    by_cases hp : csumRangeFails 4294967295 s
    · exact ⟨_, .csumParam hp⟩
    by_cases hd : allDigits s
    · rcases Nat.lt_or_ge 4294967295 (stringValue s) with hv | hv
      · exact ⟨_, .csumOverflow hp hd hv⟩
      · exact ⟨_, .csumOk hp hd hv⟩
    · exact ⟨_, .csumInvalid hp hd⟩
  | cat =>
    by_cases hp : catRangeFails s
    · exact ⟨_, .catParam hp⟩
    · exact ⟨_, .catOk hp⟩
  | map =>
    rcases Nat.lt_or_ge 32 (s.xNat .dlen) with h | h
    · exact ⟨_, .mapParam h⟩
    by_cases hd : allDigits s
    · exact ⟨_, .mapOk h hd⟩
    · exact ⟨_, .mapUnmappable h hd⟩
  | clrrow => exact ⟨_, .clrrow⟩
  | place =>
    by_cases hp : placeRangeFails s
    · exact ⟨_, .placeParam hp⟩
    · exact ⟨_, .placeOk hp⟩
  | write =>
    by_cases hp : writeRangeFails s
    · exact ⟨_, .writeParam hp⟩
    · exact ⟨_, .writeAsks hp (sinkOutcome_eq ..)⟩

section
variable {i : Instr} {s t u : State}

/-- A command has one end. -/
theorem CommandRun.eq_of_exec (h : CommandRun i s u) (he : exec i s = .next t) : t = u := by
  cases h.exec_eq.symm.trans he
  rfl

/-- Whatever a command answers is one of its cases. -/
theorem commandRun_iff_exec : CommandRun i s t ↔ exec i s = .next t := by
  refine ⟨CommandRun.exec_eq, fun he => ?_⟩
  obtain ⟨u, hu⟩ := exists_commandRun i s
  rwa [hu.eq_of_exec he]

end

end Sys2Proof.Machine
end

section
/-! PROOFS. Every write of `CMD`: it completes, it reads neither `ERR` nor `V`, and only an accepted `WRITE` shows in the output
history (R25, R26, R53, R190). -/

namespace Sys2Proof.Machine

open Sys2Proof.Spec

/-- Every word written to `CMD` gets a result, and the inputs that wait stay (R82, R190). -/
theorem exists_commandWrite_eq_next (s : State) (w : Word) :
    ∃ t, commandWrite w s = .next t ∧ t.inputs = s.inputs ∧ t.err.toNat ≤ 8 := by
  cases hd : decode w with
  | ok i =>
    obtain ⟨t, ht⟩ := exists_commandRun i s
    obtain ⟨hinputs, -⟩ := sameHost_of_exec ht.exec_eq
    exact ⟨t, (commandWrite_ok hd s).trans ht.exec_eq, hinputs, err_le_of_exec ht.exec_eq⟩
  | error e => exact ⟨_, commandWrite_illegal hd s, rfl, le_refl 8⟩

/-! ## The flags -/

/-- The state with other `ERR` and `V`. -/
def State.withFlags (s : State) (e : BitVec 4) (b : Bool) : State := { s with err := e, v := b }

section
variable {s t : State} (e : BitVec 4) (b : Bool)

/-- A store of bytes and the report of an error take no flag from the state. -/
theorem storeBytes_setErr_withFlags (s : State) (a : Nat) (l : List Byte) (f : BitVec 4) :
    ((s.withFlags e b).storeBytes a l).setErr f = ((s.storeBytes a l).setErr f).withFlags f b := rfl

/-- The failure writes of `CSUM` take no flag from the state (R196). -/
theorem csumFailure_withFlags (f : ErrCode) (s : State) :
    csumFailure f (s.withFlags e b) = (csumFailure f s).withFlags (errNumber f) b := by
  simp only [csumFailure, failureWrites]
  generalize List.replicate Config.cCap (0x00 : Byte) = zeros
  rfl

/-- The failure writes of `MAP` take no flag from the state (R196). -/
theorem mapFailure_withFlags (f : ErrCode) (s : State) :
    mapFailure f (s.withFlags e b) = (mapFailure f s).withFlags (errNumber f) b := by
  simp only [mapFailure_eq]
  generalize List.replicate 32 (0x00 : Byte) = zeros
  rfl

/-- The sink's response takes no flag from the state (R168). -/
theorem writeAsked_withFlags (h : writeAsked s t) : writeAsked (s.withFlags e b) (t.withFlags t.err b) := by
  rw [writeAsked, sinkOutcome_eq] at h ⊢
  cases h
  rw [show (s.withFlags e b).nextResponse = s.nextResponse from rfl]
  cases s.nextResponse <;> rfl

/-- A `VALID` that succeeds overwrites both flags (R26). -/
theorem CommandRun.valid_withFlags (h : CommandRun .valid s t) (herr : t.err = 0) : CommandRun .valid (s.withFlags e b) t := by
  cases h with
  | validParam => exact absurd herr (show (7 : BitVec 4) ≠ 0 by decide)
  | validOk h => exact .validOk (s := s.withFlags e b) h

/-- Every other command takes the same end whatever the flags are, writes `ERR` and leaves `V` (R26). -/
theorem CommandRun.withFlags {i : Instr} (h : CommandRun i s t) (hi : ¬ (i = .valid ∧ t.err = 0)) :
    CommandRun i (s.withFlags e b) (t.withFlags t.err b) := by
  cases h with
  | validOk => exact absurd ⟨rfl, rfl⟩ hi
  | clrrow => exact storeBytes_setErr_withFlags e b s .. ▸ .clrrow (s := s.withFlags e b)
  | placeOk hp => exact storeBytes_setErr_withFlags e b s .. ▸ .placeOk (s := s.withFlags e b) hp
  | writeAsks hp h => exact .writeAsks (s := s.withFlags e b) hp (writeAsked_withFlags e b h)
  | validParam h => exact .validParam (s := s.withFlags e b) h
  | csumParam hp => exact csumFailure_withFlags e b _ s ▸ .csumParam (s := s.withFlags e b) hp
  | csumInvalid hp hd => exact csumFailure_withFlags e b _ s ▸ .csumInvalid (s := s.withFlags e b) hp hd
  | csumOverflow hp hd hv => exact csumFailure_withFlags e b _ s ▸ .csumOverflow (s := s.withFlags e b) hp hd hv
  | csumOk hp hd hv => exact .csumOk (s := s.withFlags e b) hp hd hv
  | catParam hp => exact .catParam (s := s.withFlags e b) hp
  | catOk hp => exact .catOk (s := s.withFlags e b) hp
  | mapParam h => exact mapFailure_withFlags e b _ s ▸ .mapParam (s := s.withFlags e b) h
  | mapUnmappable h hd => exact mapFailure_withFlags e b _ s ▸ .mapUnmappable (s := s.withFlags e b) h hd
  | mapOk h hd => exact .mapOk (s := s.withFlags e b) h hd
  | placeParam hp => exact .placeParam (s := s.withFlags e b) hp
  | writeParam hp => exact .writeParam (s := s.withFlags e b) hp

/-- A write of `CMD` with `VALID` that succeeds gives the same state whatever the flags were (R26). -/
theorem commandWrite_valid_withFlags (h : commandWrite (encode .valid) s = .next t) (herr : t.err = 0) :
    commandWrite (encode .valid) (s.withFlags e b) = .next t := by
  rw [commandWrite_ok (decode_encode _)] at h ⊢
  exact ((commandRun_iff_exec.mpr h).valid_withFlags e b herr).exec_eq

/-- Every other write of `CMD` leaves `V` and does not read the flags (R26, R82). -/
theorem commandWrite_withFlags {w : Word} (h : commandWrite w s = .next t) (hw : ¬ (w = encode .valid ∧ t.err = 0)) :
    t.v = s.v ∧ commandWrite w (s.withFlags e b) = .next (t.withFlags t.err b) := by
  cases hd : decode w with
  | ok i =>
    have hi : ¬ (i = .valid ∧ t.err = 0) := fun ⟨hi, herr⟩ => hw ⟨hi ▸ decode_eq_ok_iff.mp hd, herr⟩
    rw [commandWrite_ok hd] at h ⊢
    exact ⟨(v_of_exec h).resolve_right hi, ((commandRun_iff_exec.mpr h).withFlags e b hi).exec_eq⟩
  | error f =>
    cases (commandWrite_illegal hd s).symm.trans h
    exact ⟨rfl, commandWrite_illegal hd _⟩

end

/-! ## The output history -/

section
variable {s t : State}

/-- A `WRITE` that ends without an error was accepted, and its record joined the history and is now the sink's entry (R53, R168,
R169). -/
theorem exec_write_success (h : exec .write s = .next t) (herr : t.err = 0) :
    s.nextResponse = .accepted ∧ t.emitted = s.emitted ++ [recordOf s] ∧ t.sinkAt (s.x .tag) = some (.record (recordOf s)) := by
  cases exec_cases h with
  | writeParam => exact absurd herr (show (7 : BitVec 4) ≠ 0 by decide)
  | writeAsks _ _ hsink =>
    have hr := (sinkOutcome_err_eq_zero_iff hsink).mp herr
    rw [hr] at hsink
    obtain ⟨-, -, hentry, hemitted⟩ := sinkOutcome_accepted hsink
    exact ⟨hr, hemitted, hentry⟩

/-- A transaction leaves the history, or is a `WRITE` command that succeeded (R53). -/
theorem emitted_of_txnStep {x : HostTxn} (h : TxnStep x s t) :
    t.emitted = s.emitted ∨ x = .wr 15 (encode .write) ∧ exec .write s = .next t ∧ t.err = 0 := by
  cases h with
  | command i _ _ hi =>
    rcases emitted_of_exec hi with hsame | ⟨rfl, herr, -⟩
    · exact .inl hsame
    · exact .inr ⟨rfl, hi, herr⟩
  | illegalWord | writesReg | writesByte | ignored | reads => exact .inl rfl

end

end Sys2Proof.Machine

namespace Sys2Proof.Proofs

open Sys2Proof.Machine Sys2Proof.Spec

/-- Settles O18: by what the write of `CMD` does with other flags. -/
theorem flagsNotReadByCommands : Obligations.FlagsNotReadByCommands := by
  intro s t w rest e b hin h
  have hin' : (s.withFlags e b).inputs = .txn (.wr 15 w) :: rest := hin
  rw [step_command hin] at h
  change (_ → step (s.withFlags e b) = _) ∧ (_ → _ ∧ step (s.withFlags e b) = _)
  rw [step_command hin']
  refine ⟨?_, fun hw => commandWrite_withFlags e b h hw⟩
  rintro ⟨rfl, herr⟩
  exact commandWrite_valid_withFlags e b h herr

/-- Settles O47: of all inputs only a `WRITE` command that succeeds shows in the history. -/
theorem outputStreamGrowsByAcceptedWrites : Obligations.OutputStreamGrowsByAcceptedWrites := by
  intro s t h
  rcases step_cases h with rfl | ⟨rest, -, rfl⟩ | ⟨x, rest, hin, hx⟩
  · exact .inl rfl
  · exact .inl rfl
  · refine (emitted_of_txnStep hx).imp_right ?_
    rintro ⟨rfl, hw, herr⟩
    obtain ⟨hr, hemitted, hentry⟩ := exec_write_success hw herr
    exact ⟨rest, recordOf (s.setInputs rest), hin, hr, isRecordOf_recordOf (s.setInputs rest), hemitted, hentry⟩

/-- Settles O13: the word is a command, which answers, or is none, which is reported. -/
theorem everyCommandWriteCompletes : Obligations.EveryCommandWriteCompletes := by
  intro s w rest hin
  rw [step_command hin]
  exact exists_commandWrite_eq_next _ w

/-- Settles O5: the step is the command write, and the decoder settles which command that is. -/
theorem stepRunsDecodedCommand : Obligations.StepRunsDecodedCommand := by
  intro s w i hd
  refine ⟨fun rest hin => (step_command hin).trans (commandWrite_ok hd _), ?_⟩
  have hw : BitVec.ofNat 32 (w.toNat % 2 ^ 32) = w := by rw [Nat.mod_eq_of_lt w.isLt, BitVec.ofNat_toNat, BitVec.setWidth_eq]
  rw [State.withFetchWord, hw, step_command (rest := s.inputs) rfl, commandWrite_ok hd]
  rfl

end Sys2Proof.Proofs
end

section
/-! PROOFS. The range tests of `WRITE` and the traffic of the sink port (R77, R161, R168, R169). -/

namespace Sys2Proof.Machine

open Sys2Proof.Spec

section
variable {s t : State}

/-- A `WRITE` reports ParamError exactly when its range tests fail: the sink's answers have other numbers (R168, R192). -/
theorem err_eq_seven_iff_writeRangeFails (h : exec .write s = .next t) : t.err = 7 ↔ writeRangeFails s := by
  refine ⟨fun herr => by_contra fun hp => ?_, fun hp => ?_⟩
  · have hdistinct : ∀ e : BitVec 4, e = 7 → ¬ (e = 0 ∨ e = 4 ∨ e = 5 ∨ e = 6) := by decide
    refine hdistinct _ herr ((writeAsked_err ((execWrite_asks hp).symm.trans h)).imp And.left ?_)
    exact Or.imp And.left (Or.imp And.left And.left)
  · rw [(CommandRun.writeParam hp).eq_of_exec h]
    rfl

/-- What is not refused by the range tests, in the words of the precondition (R161). -/
theorem not_writeRangeFails_iff : ¬ writeRangeFails s
    ↔ 1 ≤ s.xNat .width ∧ 1 ≤ s.xNat .height ∧ s.xNat .height * ((s.xNat .width + 7) / 8) ≤ 32 := by
  rw [writeRangeFails]
  omega

/-- An image of at most 32 bytes with a row at least is at most 256 pixels wide and 32 rows high (R161). -/
theorem shape_le {w h : Nat} (hw : 1 ≤ w) (hh : 1 ≤ h) (hwh : h * ((w + 7) / 8) ≤ 32) : w ≤ 256 ∧ h ≤ 32 := by
  have hrow : 1 ≤ (w + 7) / 8 := by omega
  have hle : (w + 7) / 8 ≤ h * ((w + 7) / 8) := Nat.le_mul_of_pos_left _ hh
  have hle' : h ≤ h * ((w + 7) / 8) := Nat.le_mul_of_pos_right _ hrow
  omega

/-- The error a response leads to (R168). -/
def responseErr : SinkResponse → BitVec 4
  | .accepted => 0
  | .openFailed => 4
  | .initFailed => 5
  | .rowFailed => 6

/-- What a response puts on the sink port (R77; log 10). -/
def portEvents (r : RasterRecord) : SinkResponse → List SinkEvent
  | .accepted => [.openRequest r.tag, .header r.header, .rows r.rows, .close]
  | .openFailed => [.openRequest r.tag]
  | .initFailed => [.openRequest r.tag, .header r.header, .close]
  | .rowFailed => [.openRequest r.tag, .header r.header, .rowsRefused, .close]

/-- What a response adds to the output history (R53, R168). -/
def emittedRecords (r : RasterRecord) : SinkResponse → List RasterRecord
  | .accepted => [r]
  | .openFailed | .initFailed | .rowFailed => []

/-- What a response that is not a refused open leaves under the tag (R169, R172). -/
def entryLeft (r : RasterRecord) : SinkResponse → SinkEntry
  | .accepted => .record r
  | .openFailed | .initFailed | .rowFailed => .unspecified

/-- What every response writes: the error, the traffic of the port, the output history and the draw (R77, R168). -/
theorem writeAsked_writes (h : writeAsked s t) : t.err = responseErr s.nextResponse
    ∧ t.sinkPort = s.sinkPort ++ portEvents (recordOf s) s.nextResponse
    ∧ t.emitted = s.emitted ++ emittedRecords (recordOf s) s.nextResponse
    ∧ t.draws = s.draws + 1 ∧ t.sinkAnswers = s.sinkAnswers.drop 1 := by
  rw [writeAsked, sinkOutcome_eq] at h
  cases h
  cases s.nextResponse <;> simp [responseErr, portEvents, emittedRecords]

/-- A refused open leaves the channel and the sink's store (R171). -/
theorem writeAsked_openFailed (h : writeAsked s t) (hr : s.nextResponse = .openFailed) :
    t.chanOpen = s.chanOpen ∧ t.sink = s.sink := by
  rw [writeAsked, hr] at h
  obtain ⟨-, hopen, hstore, -⟩ := sinkOutcome_openFailed h
  exact ⟨hopen, hstore⟩

/-- Every other response closes the channel and leaves an entry under the tag (R169, R171, R172). -/
theorem writeAsked_opened (h : writeAsked s t) (hr : s.nextResponse ≠ .openFailed) :
    t.chanOpen = false ∧ t.sinkAt (s.x .tag) = some (entryLeft (recordOf s) s.nextResponse) := by
  rw [writeAsked] at h
  revert h hr
  cases s.nextResponse with
  | openFailed => exact fun _ hr => absurd rfl hr
  | accepted =>
    intro h _
    obtain ⟨-, hopen, hentry, -⟩ := sinkOutcome_accepted h
    exact ⟨hopen, hentry⟩
  | initFailed =>
    intro h _
    obtain ⟨-, hopen, hentry, -⟩ := sinkOutcome_initFailed h
    exact ⟨hopen, hentry⟩
  | rowFailed =>
    intro h _
    obtain ⟨-, hopen, hentry, -⟩ := sinkOutcome_rowFailed h
    exact ⟨hopen, hentry⟩

/-- A `WRITE` that fails its range tests does not contact the sink (R169). -/
theorem sameSink_of_writeRangeFails (hp : writeRangeFails s) (h : exec .write s = .next t) : sameSink s t := by
  rw [(CommandRun.writeParam hp).eq_of_exec h]
  exact ⟨rfl, rfl, rfl, rfl, rfl⟩

end

end Sys2Proof.Machine

namespace Sys2Proof.Proofs

open Sys2Proof.Machine Sys2Proof.Spec

/-- Settles O27: the error 7 is that of the range tests, and what passes them is bounded. -/
theorem writePreconditions : Obligations.WritePreconditions := by
  intro s t h
  have hpre := (not_congr (err_eq_seven_iff_writeRangeFails h)).trans not_writeRangeFails_iff
  refine ⟨hpre, fun herr => ?_, fun herr => sameSink_of_writeRangeFails ((err_eq_seven_iff_writeRangeFails h).mp herr) h⟩
  obtain ⟨hw, hh, hwh⟩ := hpre.mp herr
  exact shape_le hw hh hwh

/-- Settles O33: only a `WRITE` that the sink answered puts anything on the port. -/
theorem sinkPortTraffic : Obligations.SinkPortTraffic := by
  refine ⟨fun i s t h hquiet => ?_, fun s t h herr => ?_⟩
  · by_cases hi : i = .write
    · subst hi
      have hp := (err_eq_seven_iff_writeRangeFails h).mp (hquiet.resolve_left fun hne => hne rfl)
      obtain ⟨-, -, hport, -⟩ := sameSink_of_writeRangeFails hp h
      exact hport
    · obtain ⟨-, -, ⟨-, -, hport, -⟩, -⟩ := rest_of_exec h hi
      exact hport
  · have hp := not_writeRangeFails_of_exec_write h herr
    obtain ⟨he, hport, -⟩ := writeAsked_writes ((execWrite_asks hp).symm.trans h)
    refine ⟨recordOf s, isRecordOf_recordOf s, ?_⟩
    rw [he, hport]
    cases s.nextResponse <;> simp [responseErr, portEvents]

end Sys2Proof.Proofs
end

section
/-! PROOFS. The read sets: two runs of a command from states that agree on what it reads (R54, R118, R173). -/

namespace Sys2Proof.Machine

open Sys2Proof.Spec

section
variable {s t : State}

/-- A string operand that fits `DBUF` is the bytes below `DLEN` (R83). -/
theorem digitString_congr (hlen : t.x .dlen = s.x .dlen) (hbytes : ∀ k < 32, k < s.xNat .dlen → t.dbuf k = s.dbuf k)
    (h32 : s.xNat .dlen ≤ 32) : t.digitString = s.digitString := by
  rw [State.digitString, xNat_congr hlen]
  exact State.bytes_congr fun k hk => hbytes k (by omega) hk

/-- The digit test looks at the string operand only. -/
theorem allDigits_congr (h : t.digitString = s.digitString) : allDigits t ↔ allDigits s := by
  rw [← digitString_all_iff_allDigits, ← digitString_all_iff_allDigits, h]

/-- The value looks at the string operand only (R111). -/
theorem stringValue_congr (h : t.digitString = s.digitString) : stringValue t = stringValue s := by
  rw [← reversedValue_digitString, ← reversedValue_digitString, h]

end

section
variable {s t s' t' : State}

/-- `VALID` reads `DLEN`, `EXPLEN` and the string (R54, R177). -/
theorem valid_readsOnly (hr : readsAgree .valid s t) (hs : CommandRun .valid s s') (ht : exec .valid t = .next t') :
    writesAgree .valid s s' t t' := by
  obtain ⟨hlen, hexp, hbytes⟩ := hr
  have hn := xNat_congr hlen
  cases hs with
  | validParam h =>
    rw [(CommandRun.validParam (hn ▸ h)).eq_of_exec ht]
    exact ⟨rfl, fun herr => absurd herr (show (7 : BitVec 4) ≠ 0 by decide)⟩
  | validOk h =>
    rw [(CommandRun.validOk (hn ▸ h)).eq_of_exec ht, digitString_congr hlen hbytes h, xNat_congr hexp]
    exact ⟨rfl, fun _ => rfl⟩

/-- Two failures of `CSUM` with one error leave the same (R196). -/
theorem csumFailure_writesAgree (e : ErrCode) : writesAgree .csum s (csumFailure e s) t (csumFailure e t) := by
  obtain ⟨hse, hsx, hsb, -⟩ := csumFailed_csumFailure e s
  obtain ⟨hte, htx, htb, -⟩ := csumFailed_csumFailure e t
  exact ⟨hte.trans hse.symm, htx.trans hsx.symm, fun j hj => (htb j hj).trans (hsb j hj).symm⟩

/-- `CSUM` reads `DLEN`, `MODULUS`, `OUTLEN` and the string (R54, R113, R118). -/
theorem csum_readsOnly (hr : readsAgree .csum s t) (hs : CommandRun .csum s s') (ht : exec .csum t = .next t') :
    writesAgree .csum s s' t t' := by
  obtain ⟨hlen, hmod, hout, hbytes⟩ := hr
  have hp : csumRangeFails 4294967295 t ↔ csumRangeFails 4294967295 s := by
    rw [csumRangeFails, xNat_congr hlen, xNat_congr hmod, xNat_congr hout]
  have hstr : ¬ csumRangeFails 4294967295 s → t.digitString = s.digitString := fun h =>
    digitString_congr hlen hbytes (by simp only [not_or] at h; omega)
  cases hs with
  | csumParam h =>
    rw [(CommandRun.csumParam (hp.mpr h)).eq_of_exec ht]
    exact csumFailure_writesAgree _
  | csumInvalid h hd =>
    rw [(CommandRun.csumInvalid (mt hp.mp h) (mt (allDigits_congr (hstr h)).mp hd)).eq_of_exec ht]
    exact csumFailure_writesAgree _
  | csumOverflow h hd hv =>
    rw [(CommandRun.csumOverflow (mt hp.mp h) ((allDigits_congr (hstr h)).mpr hd)
      (hv.trans_eq (stringValue_congr (hstr h)).symm)).eq_of_exec ht]
    exact csumFailure_writesAgree _
  | csumOk h hd hv =>
    have h9 : s.xNat .outlen ≤ 9 := by simp only [not_or] at h; omega
    rw [(CommandRun.csumOk (mt hp.mp h) ((allDigits_congr (hstr h)).mpr hd)
        ((stringValue_congr (hstr h)).trans_le hv)).eq_of_exec ht,
      stringValue_congr (hstr h), xNat_congr hmod, xNat_congr hout]
    refine ⟨rfl, (State.x_setX_same ..).trans (hout.trans (State.x_setX_same ..).symm), fun j hj => ?_⟩
    rw [cbuf_csumSuccess (by rw [decText_length, xNat_congr hout]) (by rwa [xNat_congr hout]) hj,
      cbuf_csumSuccess (decText_length ..) h9 hj]

/-- The check code and the string that `CAT` joins are the bytes below `CLEN` and below `DLEN` (R178). -/
theorem codeThenString_congr (hr : readsAgree .cat s t) (h32 : s.xNat .clen + s.xNat .dlen ≤ 32) :
    t.codeThenString = s.codeThenString := by
  obtain ⟨hlen, hcode, hstring, hcbuf⟩ := hr
  rw [State.codeThenString, digitString_congr hlen hstring (by omega), xNat_congr hcode, State.codeThenString]
  exact congrArg (· ++ _) (State.bytes_congr fun j hj => hcbuf j (by omega) hj)

/-- `CAT` reads `CLEN`, `DLEN`, the check code and the string (R54, R178). -/
theorem cat_readsOnly (hr : readsAgree .cat s t) (hs : CommandRun .cat s s') (ht : exec .cat t = .next t') :
    writesAgree .cat s s' t t' := by
  obtain ⟨hlen, hcode, -, -⟩ := id hr
  have hp : catRangeFails t ↔ catRangeFails s := by
    rw [catRangeFails, xNat_congr hlen, xNat_congr hcode]
  cases hs with
  | catParam h =>
    rw [(CommandRun.catParam (hp.mpr h)).eq_of_exec ht]
    exact ⟨rfl, hlen, fun _ _ herr => absurd herr (show (7 : BitVec 4) ≠ 0 by decide)⟩
  | catOk h =>
    have h32 : s.xNat .clen + s.xNat .dlen ≤ 32 := by simp only [not_or] at h; omega
    have hsum : t.xNat .clen + t.xNat .dlen = s.xNat .clen + s.xNat .dlen := by rw [xNat_congr hlen, xNat_congr hcode]
    rw [(CommandRun.catOk (mt hp.mp h)).eq_of_exec ht]
    refine ⟨rfl, BitVec.eq_of_toNat_eq ?_, fun k hk _ => ?_⟩
    · exact (xNat_dlen_catSuccess (hsum.trans_le h32)).trans (hsum.trans (xNat_dlen_catSuccess h32).symm)
    · rw [xNat_dlen_catSuccess h32] at hk
      rw [dbuf_catSuccess (hsum.trans_le h32) (hsum ▸ hk), dbuf_catSuccess h32 hk, codeThenString_congr hr h32]

/-- Two failures of `MAP` with one error leave the same (R196). -/
theorem mapFailure_writesAgree (e : ErrCode) : writesAgree .map s (mapFailure e s) t (mapFailure e t) := by
  obtain ⟨hse, hsx, hsb, -⟩ := mapFailed_mapFailure e s
  obtain ⟨hte, htx, htb, -⟩ := mapFailed_mapFailure e t
  exact ⟨hte.trans hse.symm, htx.trans hsx.symm, fun k hk => (htb k hk).trans (hsb k hk).symm⟩

/-- `MAP` reads `DLEN` and the string (R54, R133). -/
theorem map_readsOnly (hr : readsAgree .map s t) (hs : CommandRun .map s s') (ht : exec .map t = .next t') :
    writesAgree .map s s' t t' := by
  obtain ⟨hlen, hbytes⟩ := hr
  have hn := xNat_congr hlen
  cases hs with
  | mapParam h =>
    rw [(CommandRun.mapParam (hn ▸ h)).eq_of_exec ht]
    exact mapFailure_writesAgree _
  | mapUnmappable h hd =>
    rw [(CommandRun.mapUnmappable (hn ▸ h) (mt (allDigits_congr (digitString_congr hlen hbytes h)).mp hd)).eq_of_exec ht]
    exact mapFailure_writesAgree _
  | mapOk h hd =>
    have hstr := digitString_congr hlen hbytes h
    rw [(CommandRun.mapOk (hn ▸ h) ((allDigits_congr hstr).mpr hd)).eq_of_exec ht]
    refine ⟨rfl, (x_plen_mapEnd ..).trans (hlen.trans (x_plen_mapEnd ..).symm), fun k hk => ?_⟩
    rw [pbuf_mapSuccess (hn ▸ h) hk, pbuf_mapSuccess h hk, State.glyphPatterns, hstr, State.glyphPatterns]

/-- `CLRROW` reads nothing (R54, R146). -/
theorem clrrow_readsOnly (hs : CommandRun .clrrow s s') (ht : exec .clrrow t = .next t') : writesAgree .clrrow s s' t t' := by
  cases hs
  rw [CommandRun.clrrow.eq_of_exec ht]
  have hrow : ∀ (u : State), ∀ k < 32, ((u.storeBytes 0x40 (List.replicate 32 0x00)).setErr 0).row k = 0x00 := fun u k hk => by
    have hzero := row_storeBytes_setErr u (o := 0) (l := List.replicate 32 0x00) (k := k) (by simp) (by simpa using hk) 0
    rwa [Nat.add_zero, Nat.zero_add, getD_zeros] at hzero
  exact ⟨rfl, fun k hk => (hrow t k hk).trans (hrow s k hk).symm⟩

/-- `PLACE` reads `OFFSET`, `PLEN` and the patterns (R54, R147). -/
theorem place_readsOnly (hr : readsAgree .place s t) (hs : CommandRun .place s s') (ht : exec .place t = .next t') :
    writesAgree .place s s' t t' := by
  obtain ⟨hoff, hlen, hbytes⟩ := hr
  have hp : placeRangeFails t ↔ placeRangeFails s := by
    rw [placeRangeFails, xNat_congr hoff, xNat_congr hlen]
  cases hs with
  | placeParam h =>
    rw [(CommandRun.placeParam (hp.mpr h)).eq_of_exec ht]
    exact ⟨rfl, fun _ herr => absurd herr (show (7 : BitVec 4) ≠ 0 by decide)⟩
  | placeOk h =>
    have hfit : s.xNat .offset + (s.bytes .pbuf (s.xNat .plen)).length ≤ 32 := by
      simp only [not_or] at h
      rw [State.bytes_length]
      omega
    have hpat : t.bytes .pbuf (s.xNat .plen) = s.bytes .pbuf (s.xNat .plen) :=
      State.bytes_congr fun k hk => hbytes k (by rw [State.bytes_length] at hfit; omega) hk
    rw [(CommandRun.placeOk (mt hp.mp h)).eq_of_exec ht, xNat_congr hoff, xNat_congr hlen, hpat]
    refine ⟨rfl, fun k _ hlo hhi => ?_⟩
    obtain ⟨j, rfl⟩ := Nat.exists_eq_add_of_le hlo
    have hj : j < (s.bytes .pbuf (s.xNat .plen)).length := by rw [State.bytes_length]; omega
    rw [row_storeBytes_setErr t hfit hj, row_storeBytes_setErr s hfit hj]

/-- Two sinks with one response to one record end alike (R54, R168). -/
theorem writeAsked_writesAgree (hrec : recordOf t = recordOf s)
    (hresp : t.nextResponse = s.nextResponse) (hs : writeAsked s s') (ht : writeAsked t t') : writesAgree .write s s' t t' := by
  obtain ⟨hserr, hsport, hsemitted, hsdraws, hsanswers⟩ := writeAsked_writes hs
  obtain ⟨hterr, htport, htemitted, htdraws, htanswers⟩ := writeAsked_writes ht
  rw [hrec, hresp] at htport htemitted
  rw [hresp] at hterr
  have hopened : ∀ q : SinkResponse, responseErr q = 0 ∨ responseErr q = 5 ∨ responseErr q = 6 → q ≠ .openFailed := by
    rintro q hq rfl
    revert hq
    decide
  have hrefused : ∀ q : SinkResponse, responseErr q = 7 ∨ responseErr q = 4 → q = .openFailed := by
    intro q hq
    revert hq
    cases q <;> decide
  refine ⟨hterr.trans hserr.symm, fun he => ?_, fun he => ?_, ⟨_, hsemitted, htemitted⟩, ⟨_, hsport, htport⟩,
    ⟨1, hsdraws, htdraws, hsanswers, htanswers⟩⟩
  · have hr := hopened _ (hserr ▸ he)
    obtain ⟨hsopen, hsentry⟩ := writeAsked_opened hs hr
    obtain ⟨htopen, htentry⟩ := writeAsked_opened ht (hresp ▸ hr)
    rw [hrec, hresp] at htentry
    exact ⟨htopen.trans hsopen.symm, htentry.trans hsentry.symm⟩
  · have hr := hrefused _ (hserr ▸ he)
    obtain ⟨hsopen, hsstore⟩ := writeAsked_openFailed hs hr
    obtain ⟨htopen, htstore⟩ := writeAsked_openFailed ht (hresp ▸ hr)
    exact ⟨hsopen, htopen, hsstore, htstore⟩

/-- `WRITE` reads `WIDTH`, `HEIGHT`, `TAG`, the image's bytes of `ROW` and the sink's response (R54, R169, R173). -/
theorem write_readsOnly (hr : readsAgree .write s t) (hs : CommandRun .write s s') (ht : exec .write t = .next t') :
    writesAgree .write s s' t t' := by
  obtain ⟨hw, hh, htag, hresp, hbytes⟩ := hr
  have hp : writeRangeFails t ↔ writeRangeFails s := by
    rw [writeRangeFails, xNat_congr hw, xNat_congr hh]
  cases hs with
  | writeParam h =>
    rw [(CommandRun.writeParam (hp.mpr h)).eq_of_exec ht]
    refine ⟨rfl, fun herr => ?_, fun _ => ⟨rfl, rfl, rfl, rfl⟩, ⟨[], ?_⟩, ⟨[], ?_⟩, 0, rfl, rfl, rfl, rfl⟩
    · exact absurd herr (show ¬ ((7 : BitVec 4) = 0 ∨ (7 : BitVec 4) = 5 ∨ (7 : BitVec 4) = 6) by decide)
    all_goals simp
  | writeAsks h hasked =>
    have hrec : recordOf t = recordOf s := recordOf_congr hw hh htag fun k hk => hbytes k (by simp only [not_or] at h; omega) hk
    exact writeAsked_writesAgree hrec hresp hasked ((execWrite_asks (mt hp.mp h)).symm.trans ht)

end

end Sys2Proof.Machine

namespace Sys2Proof.Proofs

open Sys2Proof.Machine Sys2Proof.Spec

/-- Settles O17: command by command, the second state meets the conditions of the end that the first state comes to. -/
theorem commandReadSets : Obligations.CommandReadSets := by
  intro i s t s' t' hr hs ht
  have hs := commandRun_iff_exec.mpr hs
  cases i with
  | valid => exact valid_readsOnly hr hs ht
  | csum => exact csum_readsOnly hr hs ht
  | cat => exact cat_readsOnly hr hs ht
  | map => exact map_readsOnly hr hs ht
  | clrrow => exact clrrow_readsOnly hs ht
  | place => exact place_readsOnly hr hs ht
  | write => exact write_readsOnly hr hs ht

end Sys2Proof.Proofs
end

section
/-! PROOFS. The glyph table, and the first command after reset (R87, R223). -/

namespace Sys2Proof.Machine

open Sys2Proof.Spec

/-- No two digits have one pattern (R87, end of R188). -/
theorem glyph_injective {d e : Nat} (hd : d < 10) (he : e < 10) (h : glyph d = glyph e) : d = e := by
  have hall : ∀ d < 10, ∀ e < 10, glyph d = glyph e → d = e := by decide
  exact hall d hd e he h

/-- A command ends with the error its conditions give (R190, R192). -/
theorem exists_exec_err_eq (i : Instr) (s : State) : ∃ t, exec i s = .next t ∧ t.err.toNat = errorOf i s := by
  obtain ⟨t, ht⟩ := exists_commandRun i s
  exact ⟨t, ht.exec_eq, err_of_exec ht.exec_eq⟩

/-- In the reset state every operand register is the number 0 (R40). -/
theorem xNat_reset (r : OpReg) : State.reset.xNat r = 0 := congrArg BitVec.toNat (State.reset.x_resetEvent r)

/-- Where every length, operand and dimension is 0, `CSUM`, `CAT`, `PLACE` and `WRITE` report ParamError (R223). -/
theorem exec_reset_paramError {i : Instr} (hi : i = .csum ∨ i = .cat ∨ i = .place ∨ i = .write) :
    ∃ t, exec i State.reset = .next t ∧ t.err = 7 := by
  obtain ⟨t, ht, herr⟩ := exists_exec_err_eq i State.reset
  refine ⟨t, ht, BitVec.eq_of_toNat_eq (herr.trans ?_)⟩
  rcases hi with rfl | rfl | rfl | rfl <;> simp [errorOf, xNat_reset]

end Sys2Proof.Machine

namespace Sys2Proof.Proofs

open Sys2Proof.Machine Sys2Proof.Spec

/-- Settles O1: the seven words are the commands' encodings. -/
theorem commandWordsDecode : Obligations.CommandWordsDecode :=
  ⟨decode_encode .valid, decode_encode .csum, decode_encode .cat, decode_encode .map, decode_encode .clrrow, decode_encode .place,
    decode_encode .write⟩

/-- Settles O25: the table reads the same in every state, and its ten bytes are looked at one by one. -/
theorem glyphTableConstant : Obligations.GlyphTableConstant := by
  refine ⟨gromConstant_of_state, ?_, fun d hd e he => glyph_injective hd he⟩
  decide

/-- Settles O42: all lengths are 0, which `VALID` and `MAP` take and the four others refuse. -/
theorem firstCommandAfterReset : Obligations.FirstCommandAfterReset := by
  have hlen : State.reset.xNat .dlen ≤ 32 := (xNat_reset .dlen).trans_le (Nat.zero_le 32)
  have hdigits : allDigits State.reset := fun i hi => absurd hi (by rw [xNat_reset]; omega)
  refine ⟨⟨_, execValid_ok hlen, rfl, ?_⟩, exec_reset_paramError (by simp), exec_reset_paramError (by simp),
    ⟨_, exec_map_ok hlen hdigits, rfl, (x_plen_mapEnd ..).trans (State.reset.x_resetEvent .dlen)⟩, ⟨_, execClrrow_eq _, rfl⟩,
    exec_reset_paramError (by simp), exec_reset_paramError (by simp)⟩
  exact (validateId_digitString _ (State.reset.xNat .explen)).mpr ⟨(xNat_reset _).trans (xNat_reset _).symm, hdigits⟩

end Sys2Proof.Proofs
end

section
/-! PROOFS. Functions of strings: decimal text read back, the digit-serial checksum, mapping of joined strings, tags of IDs (R85, R86,
R94, R115, R132). -/

namespace Sys2Proof.Machine

open Sys2Proof.Spec

/-- Reading the text of a number that fits the width gives the number (R85, R86). -/
theorem num_decText {n c : Nat} (h : c < 10 ^ n) : num (decText n c) = c := by
  induction n generalizing c with
  | zero =>
    obtain rfl : c = 0 := by simpa using h
    rfl
  | succ n ih =>
    have hlast : num [chr (c % 10)] = c % 10 := by simp [num, digit_chr (Nat.mod_lt c (by decide))]
    rw [decText_succ, num_append, ih (by rw [Nat.pow_succ] at h; omega), hlast, List.length_singleton]
    omega

/-! ## The digit-serial form -/

/-- One more character only makes the accumulated value larger. -/
theorem le_acc_mul_pow_add (acc : Nat) (l : List Byte) : acc ≤ acc * 10 ^ l.length + num l :=
  (Nat.le_mul_of_pos_right acc (Nat.pow_pos (by decide))).trans (Nat.le_add_right _ _)

/-- The accumulator ends at the value it is read into, or stops because that value exceeds the range: since it never falls, a step
that exceeds the range leads to an end that does (R115). -/
theorem accumulate_eq {vmax acc : Nat} (l : List Byte) (h : acc ≤ vmax) : accumulate vmax acc l
    = if vmax < acc * 10 ^ l.length + num l then none else some (acc * 10 ^ l.length + num l) := by
  induction l generalizing acc with
  | nil => simp [accumulate, num, h]
  | cons c l ih =>
    have hend : acc * 10 ^ (c :: l).length + num (c :: l) = (acc * 10 + digit c) * 10 ^ l.length + num l := by
      rw [List.length_cons, num, Nat.pow_succ]
      ring
    have hle := le_acc_mul_pow_add (acc * 10 + digit c) l
    rw [accumulate, hend]
    by_cases hstep : vmax < acc * 10 + digit c
    · rw [if_pos hstep, if_pos (by omega)]
    · rw [if_neg hstep, ih (by omega)]

/-- From 0 the accumulator computes the reversed value (R111, R115). -/
theorem accumulate_reverse (vmax : Nat) (s : List Byte) : accumulate vmax 0 s.reverse
    = if vmax < reversedValue s then none else some (reversedValue s) := by
  rw [accumulate_eq s.reverse (Nat.zero_le vmax), Nat.zero_mul, Nat.zero_add, reversedValue]

/-- The digit-serial form answers what the definition answers (R115). -/
theorem checksumSerial_eq (vmax : Nat) (s : List Byte) (m n : Nat) : checksumSerial vmax s m n = checksum vmax s m n := by
  rw [checksumSerial, checksum, accumulate_reverse]
  split_ifs <;> rfl

/-! ## Mapping -/

/-- The digit test of a string in the words of the rules (R84). -/
theorem all_isDigit_iff {l : List Byte} : l.all isDigit = true ↔ ∀ c ∈ l, digitByte c := by
  simp only [List.all_eq_true, isDigit_iff]

/-- A string that maps is a digit string, and its patterns are those of its characters (R132). -/
theorem mapDigits_eq_ok_iff {l p : List Byte} :
    mapDigits l = .ok p ↔ l.all isDigit = true ∧ p = l.map (fun c => glyph (digit c)) := by
  by_cases h : l.all isDigit = true
  · simp [mapDigits_ok h, h, eq_comm]
  · simp [mapDigits_error h, h]

/-- A string fails to map exactly when some character is no digit (R132). -/
theorem mapDigits_eq_error_iff {l : List Byte} : mapDigits l = .error .unmappableCharacter ↔ ∃ c ∈ l, ¬ digitByte c := by
  by_cases h : l.all isDigit = true
  · have hnone : ¬ ∃ c ∈ l, ¬ digitByte c := fun ⟨c, hc, hne⟩ => hne (all_isDigit_iff.mp h c hc)
    simp only [mapDigits_ok h, reduceCtorEq, hnone]
  · have hsome : ∃ c ∈ l, ¬ digitByte c := by
      rw [all_isDigit_iff] at h
      push Not at h
      simpa using h
    simp only [mapDigits_error h, hsome]

/-! ## Tags -/

/-- Four characters make a number of four bytes, most significant first (R94). -/
theorem idTag_four (a b c d : Byte) : idTag [a, b, c, d] = a.toNat * 2 ^ 24 + b.toNat * 2 ^ 16 + c.toNat * 2 ^ 8 + d.toNat := by
  simp only [idTag, List.foldl_cons, List.foldl_nil]
  ring

/-- The four bytes of such a number are told apart (R94). -/
theorem idTag_four_injective {a b c d a' b' c' d' : Byte} (h : idTag [a, b, c, d] = idTag [a', b', c', d']) :
    [a, b, c, d] = [a', b', c', d'] := by
  rw [idTag_four, idTag_four] at h
  have ha := a.isLt; have hb := b.isLt; have hc := c.isLt; have hd := d.isLt
  have ha' := a'.isLt; have hb' := b'.isLt; have hc' := c'.isLt; have hd' := d'.isLt
  have hbytes : a.toNat = a'.toNat ∧ b.toNat = b'.toNat ∧ c.toNat = c'.toNat ∧ d.toNat = d'.toNat := by omega
  simpa only [BitVec.toNat_inj, List.cons.injEq, and_true] using hbytes

end Sys2Proof.Machine

namespace Sys2Proof.Proofs

open Sys2Proof.Machine Sys2Proof.Spec

/-- Settles O21, by induction on the width. -/
theorem decimalTextReadsBack : Obligations.DecimalTextReadsBack := fun _ _ _ => num_decText

/-- Settles O22: the accumulator ends at the reversed value unless that exceeds the range. -/
theorem digitSerialFormAgrees : Obligations.DigitSerialFormAgrees := by
  intro vmax s m n
  refine ⟨checksumSerial_eq vmax s m n, ?_, fun hv => ?_⟩
  · rw [accumulate_reverse]
    simp
  · rw [accumulate_reverse, if_neg (Nat.not_lt.mpr hv)]

/-- Settles O26: the digit test and the patterns of a joined string are those of its parts. -/
theorem mappingIsLaneByLane : Obligations.MappingIsLaneByLane := by
  refine fun a b => ⟨fun p q hp hq => ?_, mapDigits_eq_error_iff.symm⟩
  obtain ⟨ha, rfl⟩ := mapDigits_eq_ok_iff.mp hp
  obtain ⟨hb, rfl⟩ := mapDigits_eq_ok_iff.mp hq
  refine ⟨List.length_map _, mapDigits_eq_ok_iff.mpr ⟨?_, List.map_append.symm⟩⟩
  rw [List.all_append, ha, hb, Bool.and_self]

/-- Settles O50: by the four bytes of a four-character ID. -/
theorem tagsDetermineIds : Obligations.TagsDetermineIds := by
  refine ⟨idTag_four, fun p q hp hq h => ?_⟩
  obtain ⟨a, b, c, d, rfl⟩ := List.length_eq_four.mp hp
  obtain ⟨a', b', c', d', rfl⟩ := List.length_eq_four.mp hq
  exact idTag_four_injective h

end Sys2Proof.Proofs
end

section
/-! PROOFS. Transactions, their triples and assembler lines (R97). -/

namespace Sys2Proof

/-! ## Transactions and triples -/

/-- The triple of a transaction is well formed (R97). -/
theorem HostTxn.triple_wf (t : HostTxn) : t.triple.wf = true := by
  cases t with
  | wr r v => simp [HostTxn.triple, Triple.wf, regInRange, valueInRange, r.isLt, v.isLt]
  | rd r => simp [HostTxn.triple, Triple.wf, regInRange, r.isLt]
  | wb a b => simp [HostTxn.triple, Triple.wf, addrInRange, byteInRange, a.isLt, b.isLt]
  | rb a => simp [HostTxn.triple, Triple.wf, addrInRange, a.isLt]

/-- The triple of a transaction reads back as it (R97). -/
theorem HostTxn.triple_txn (t : HostTxn) : t.triple.txn = some t := by
  cases t with
  | wr r v => simp [HostTxn.triple, Triple.txn, v.isLt]
  | rd r => simp [HostTxn.triple, Triple.txn]
  | wb a b => simp [HostTxn.triple, Triple.txn, b.isLt]
  | rb a => simp [HostTxn.triple, Triple.txn]

/-- A well-formed triple is that of the transaction it reads as (R97). -/
theorem Triple.exists_txn {q : Triple} (h : q.wf = true) : ∃ t, q.txn = some t ∧ t.triple = q := by
  obtain ⟨kind, a, data⟩ := q
  cases kind <;> cases data
  case wr.some v =>
    have h : a < 16 ∧ v < 2 ^ 32 := by simpa [Triple.wf, regInRange, valueInRange] using h
    obtain ⟨-, hv⟩ := id h
    exact ⟨_, dif_pos h, by rw [HostTxn.triple, BitVec.toNat_ofNat, Nat.mod_eq_of_lt hv]⟩
  case rd.none =>
    have h : a < 16 := by simpa [Triple.wf, regInRange] using h
    exact ⟨_, dif_pos h, rfl⟩
  case wb.some v =>
    have h : a < 256 ∧ v < 256 := by simpa [Triple.wf, addrInRange, byteInRange] using h
    obtain ⟨-, hv⟩ := id h
    exact ⟨_, dif_pos h, by rw [HostTxn.triple, BitVec.toNat_ofNat, Nat.mod_eq_of_lt hv]⟩
  case rb.none =>
    have h : a < 256 := by simpa [Triple.wf, addrInRange] using h
    exact ⟨_, dif_pos h, rfl⟩
  all_goals cases h

/-- A list of well-formed triples is that of the transactions they read as, in order (R97). -/
theorem exists_txns_of_wf {l : List Triple} (h : ∀ q ∈ l, q.wf = true) :
    ∃ ts, l.mapM Triple.txn = some ts ∧ ts.map HostTxn.triple = l := by
  induction l with
  | nil => exact ⟨[], rfl, rfl⟩
  | cons q l ih =>
    obtain ⟨t, ht, htq⟩ := Triple.exists_txn (h q (by simp))
    obtain ⟨ts, hts, htsl⟩ := ih fun p hp => h p (by simp [hp])
    exact ⟨t :: ts, by simp [ht, hts], by simp [htq, htsl]⟩

/-! ## Assembler lines -/

/-- The lines `WS` abbreviates are byte writes inside the buffer space (R97). -/
theorem stringTriples_wf {s : List Byte} {a : Nat} (h : a + s.length ≤ 256) : ∀ q ∈ stringTriples a s, q.wf = true := by
  induction s generalizing a with
  | nil => simp [stringTriples]
  | cons c s ih =>
    rw [List.length_cons] at h
    intro q hq
    rcases List.mem_cons.mp hq with rfl | hq
    · simp [Triple.wf, addrInRange, byteInRange, c.isLt]
      omega
    · exact ih (by omega) q hq

/-- An index inside its buffer is an address of the buffer space (R55). -/
theorem addrInRange_of_indexInRange {b : Buffer} {i : Nat} (h : indexInRange b i = true) : addrInRange (b.base + i) = true := by
  have hcap := b.base_add_cap_le
  rw [indexInRange, decide_eq_true_iff] at h
  rw [addrInRange, decide_eq_true_iff]
  omega

/-- A legal line stands for well-formed triples (R97). -/
theorem AsmLine.triples_wf {l : AsmLine} (h : l.wf = true) : ∀ q ∈ l.triples, q.wf = true := by
  cases l with
  | wr | rd | wb | rb => simpa [AsmLine.triples, Triple.wf, AsmLine.wf] using h
  | wbAt b i v =>
    obtain ⟨hi, hv⟩ := (Bool.and_eq_true _ _).mp h
    simp [AsmLine.triples, Triple.wf, addrInRange_of_indexInRange hi, hv]
  | rbAt b i =>
    have hi := addrInRange_of_indexInRange h
    simp [AsmLine.triples, Triple.wf, hi]
  | cmd i => simp [AsmLine.triples, HostTxn.triple_wf]
  | ws b s =>
    have hcap := b.base_add_cap_le
    have hfit := of_decide_eq_true h
    exact stringTriples_wf (by omega)

/-- The transactions of a legal line are those of its triples (R97). -/
theorem AsmLine.exists_txns {l : AsmLine} (h : l.wf = true) : ∃ ts, l.txns = some ts ∧ ts.map HostTxn.triple = l.triples := by
  rw [AsmLine.txns, if_pos h]
  exact exists_txns_of_wf (AsmLine.triples_wf h)

end Sys2Proof

namespace Sys2Proof.Proofs

/-- Settles O3: kind by kind for a transaction and its triple, line by line for the triples of a line. -/
theorem transactionTriplesRoundTrip : Obligations.TransactionTriplesRoundTrip :=
  ⟨fun t => ⟨t.triple_wf, t.triple_txn⟩, fun _ => Triple.exists_txn, fun _ => AsmLine.exists_txns⟩

end Sys2Proof.Proofs
end

section
/-! PROOFS. What the host loads and what it reads back: strings, patterns, the check code and the image, as sequences of bytes (R83, R97,
R98). -/

namespace Sys2Proof.Machine

open Sys2Proof.Spec

/-! ## Registers and buffers -/

/-- A register that was given a number of 32 bits holds that number (R8, R51). -/
theorem State.xNat_setX_ofNat (s : State) (r : OpReg) {n : Nat} (h : n < 2 ^ 32) : (s.setX r (BitVec.ofNat 32 n)).xNat r = n := by
  rw [State.xNat, State.x_setX_same, BitVec.toNat_ofNat, Nat.mod_eq_of_lt h]

/-- The other registers keep their numbers. -/
theorem State.xNat_setX_ne (s : State) {r q : OpReg} (w : Word) (h : q ≠ r) : (s.setX r w).xNat q = s.xNat q :=
  xNat_congr (State.x_setX_ne s w h)

/-- The bytes of a buffer are the sequence `l` if each of them is the byte of `l` at its index. -/
theorem State.bytes_eq {s : State} {b : Buffer} {l : List Byte} (h : ∀ i < l.length, s.readByte (b.base + i) = l.getD i 0x00) :
    s.bytes b l.length = l := by
  refine List.ext_getElem (s.bytes_length b _) fun i hi hi' => ?_
  have hbyte := s.bytes_getD b l.length i hi'
  rw [List.getD_eq_getElem _ _ hi] at hbyte
  rw [hbyte, h i hi', List.getD_eq_getElem _ _ hi']

/-- A sequence stored from the start of a buffer stands there. -/
theorem State.bytes_storeBytes (s : State) {b : Buffer} {l : List Byte} (h : b.base + l.length ≤ 0x69) :
    (s.storeBytes b.base l).bytes b l.length = l := by
  refine State.bytes_eq fun i hi => ?_
  rw [State.readByte_storeBytes_in _ h, if_pos (by omega), Nat.add_sub_cancel_left]

/-! ## The string operand -/

/-- The state after the host loaded a string: its characters in `DBUF`, its length in `DLEN` (R83, R97). -/
def State.loadString (s : State) (l : List Byte) : State := (s.storeBytes 0x00 l).setX .dlen (BitVec.ofNat 32 l.length)

/-- `DLEN` of a loaded string that fits `DBUF`. -/
theorem State.xNat_dlen_loadString (s : State) {l : List Byte} (h : l.length ≤ 32) : (s.loadString l).xNat .dlen = l.length :=
  State.xNat_setX_ofNat _ _ (by omega)

/-- The string operand is the string that was loaded (R83). -/
theorem State.digitString_loadString (s : State) {l : List Byte} (h : l.length ≤ 32) : (s.loadString l).digitString = l := by
  rw [State.digitString, s.xNat_dlen_loadString h]
  exact s.bytes_storeBytes (b := .dbuf) (by rw [Buffer.dbuf_base]; omega)

/-- A write of another register leaves the string operand. -/
theorem State.digitString_setX (s : State) {r : OpReg} (w : Word) (h : r ≠ .dlen) : (s.setX r w).digitString = s.digitString := by
  rw [State.digitString, State.xNat_setX_ne _ _ (Ne.symm h)]
  rfl

/-- The state after the host loaded the operands of `CSUM` beside the string (R98, R186). -/
def State.loadOperands (s : State) (m n : Nat) : State :=
  (s.setX .modulus (BitVec.ofNat 32 m)).setX .outlen (BitVec.ofNat 32 n)

/-- The operands of `CSUM` stand in their registers, and `DLEN` is as before. -/
theorem State.xNat_loadOperands (s : State) {m n : Nat} (hm : m < 2 ^ 32) (hn : n < 2 ^ 32) :
    (s.loadOperands m n).xNat .dlen = s.xNat .dlen ∧ (s.loadOperands m n).xNat .modulus = m
      ∧ (s.loadOperands m n).xNat .outlen = n := by
  refine ⟨?_, ?_, State.xNat_setX_ofNat _ _ hn⟩
  · rw [State.loadOperands, State.xNat_setX_ne _ _ (by decide), State.xNat_setX_ne _ _ (by decide)]
  · rw [State.loadOperands, State.xNat_setX_ne _ _ (by decide), State.xNat_setX_ofNat _ _ hm]

/-- The string operand is as before. -/
theorem State.digitString_loadOperands (s : State) (m n : Nat) : (s.loadOperands m n).digitString = s.digitString := by
  rw [State.loadOperands, State.digitString_setX _ _ (by decide), State.digitString_setX _ _ (by decide)]

/-! ## Results -/

/-- The text of a `CSUM` that succeeded, read back (R98, R113). -/
theorem bytes_csumSuccess {s : State} {r : List Byte} (hr : r.length = s.xNat .outlen) (h9 : s.xNat .outlen ≤ 9) :
    (csumSuccess r s).bytes .cbuf (s.xNat .outlen) = r := by
  rw [← hr]
  exact State.bytes_eq fun j hj => cbuf_csumSuccess hr h9 (by omega)

/-- The patterns of a `MAP` that succeeded, read back (R98, R133). -/
theorem bytes_mapSuccess {s : State} (h : s.xNat .dlen ≤ 32) : (mapSuccess s).bytes .pbuf (s.xNat .dlen) = s.glyphPatterns := by
  rw [← s.glyphPatterns_length]
  exact State.bytes_eq fun k hk => pbuf_mapSuccess h (by rw [State.glyphPatterns_length] at hk; omega)

/-! ## `CSUM` by the function it computes -/

section
variable {s : State} (hp : ¬ csumRangeFails 4294967295 s)
include hp

/-- In range `CSUM` leaves what the checksum function answers (R112, R113). -/
theorem exec_csum_of_checksum_ok {r : List Byte} (h : checksum 4294967295 s.digitString (s.xNat .modulus) (s.xNat .outlen) = .ok r) :
    exec .csum s = .next (csumSuccess r s) := by
  rw [exec_csum, csumWith_inRange hp, h]
  rfl

/-- In range `CSUM` fails as the checksum function does (R112, R113, R196). -/
theorem exec_csum_of_checksum_error {e : ErrCode}
    (h : checksum 4294967295 s.digitString (s.xNat .modulus) (s.xNat .outlen) = .error e) :
    exec .csum s = .next (csumFailure e s) := by
  rw [exec_csum, csumWith_inRange hp, h]

end

/-! ## The image -/

/-- A record depends on the bytes of the image only (R165). -/
theorem serialize_congr {w h : Nat} {l k : List Byte} (tag : Word)
    (hbytes : ∀ i < h * rowStride w, l.getD i 0x00 = k.getD i 0x00) : serialize w h l tag = serialize w h k tag := by
  have hindex : ∀ r < h, ∀ j < rowStride w, r * rowStride w + j < h * rowStride w := fun r hr j hj =>
    calc r * rowStride w + j < r * rowStride w + rowStride w := Nat.add_lt_add_left hj _
      _ = (r + 1) * rowStride w := by ring
      _ ≤ h * rowStride w := Nat.mul_le_mul_right _ hr
  simp only [serialize, RasterRecord.mk.injEq, true_and]
  refine List.map_congr_left fun r hr => List.map_congr_left fun j hj => ?_
  rw [hbytes _ (hindex r (List.mem_range.mp hr) j (List.mem_range.mp hj))]

/-- The state after the host loaded the geometry and the tag of an image (R98, R186). -/
def State.loadGeometry (s : State) (tag : Word) (w h : Nat) : State :=
  ((s.setX .width (BitVec.ofNat 32 w)).setX .height (BitVec.ofNat 32 h)).setX .tag tag

/-- The state after the host loaded an image (R98). -/
def State.loadImage (s : State) (tag : Word) (w h : Nat) (l : List Byte) : State := (s.storeBytes 0x40 l).loadGeometry tag w h

section
variable (s : State) (tag : Word) {w h : Nat} (l : List Byte) (hw : w < 2 ^ 32) (hh : h < 2 ^ 32)
include hw hh

/-- The registers after a geometry was loaded. -/
theorem State.x_loadGeometry :
    (s.loadGeometry tag w h).xNat .width = w ∧ (s.loadGeometry tag w h).xNat .height = h ∧ (s.loadGeometry tag w h).x .tag = tag := by
  refine ⟨?_, ?_, State.x_setX_same ..⟩
  · rw [State.loadGeometry, State.xNat_setX_ne _ _ (by decide), State.xNat_setX_ne _ _ (by decide), State.xNat_setX_ofNat _ _ hw]
  · rw [State.loadGeometry, State.xNat_setX_ne _ _ (by decide), State.xNat_setX_ofNat _ _ hh]

/-- The registers after an image was loaded. -/
theorem State.x_loadImage :
    (s.loadImage tag w h l).xNat .width = w ∧ (s.loadImage tag w h l).xNat .height = h ∧ (s.loadImage tag w h l).x .tag = tag :=
  State.x_loadGeometry _ tag hw hh

/-- The range tests of `WRITE` on a loaded image are about its numbers (R161). -/
theorem writeRangeFails_loadImage : writeRangeFails (s.loadImage tag w h l) ↔ w = 0 ∨ h = 0 ∨ 32 < h * ((w + 7) / 8) := by
  obtain ⟨hxw, hxh, -⟩ := s.x_loadImage tag l hw hh
  rw [writeRangeFails, hxw, hxh]

/-- The record of a loaded image is the serialized buffer, if the buffer holds all bytes of the image (R161, R165). -/
theorem recordOf_loadImage (h32 : l.length ≤ 32) (hl : h * ((w + 7) / 8) ≤ l.length) :
    recordOf (s.loadImage tag w h l) = serialize w h l tag := by
  obtain ⟨hxw, hxh, hxt⟩ := s.x_loadImage tag l hw hh
  rw [recordOf, hxw, hxh, hxt]
  refine serialize_congr tag fun i hi => ?_
  have hlt : i < l.length := hi.trans_le hl
  rw [State.bytes_getD _ _ (imageBytes w h) _ hi]
  simp only [State.loadImage, State.loadGeometry, State.readByte_setX, Buffer.row_base]
  rw [State.readByte_storeBytes_in _ (by omega), if_pos (by omega), Nat.add_sub_cancel_left]

end

/-! ## Issuing -/

/-- A transaction that answers, and the rest from there. -/
theorem issueAll_cons {x : HostTxn} {s t : State} (h : issue x s = .next t) (l : List HostTxn) :
    issueAll (x :: l) s = issueAll l t := by
  simp only [issueAll, h]

/-- `WR` of a number, and the rest from there. -/
theorem issueAll_writeReg {r : OpReg} (h : hostWritesReg r = true) (n : Nat) (l : List HostTxn) (s : State) :
    issueAll (writeReg r n :: l) s = issueAll l (s.setX r (BitVec.ofNat 32 n)) :=
  issueAll_cons (issue_writeReg h n s) l

/-- A command at the end of what is issued. -/
theorem issueAll_command {i : Instr} {s t : State} (h : exec i s = .next t) : issueAll [commandTxn i] s = .next t :=
  issueAll_cons ((issue_command i s).trans h) []

/-- The loading of a string, and the rest from there (R97, R98). -/
theorem issueAll_loadString {l : List Byte} (h : l.length ≤ 32) (rest : List HostTxn) (s : State) :
    issueAll (stringTxns Buffer.dbuf.base l ++ writeReg .dlen l.length :: rest) s = issueAll rest (s.loadString l) := by
  rw [issueAll_append (issueAll_stringTxns l _ s (.inl (by rw [Buffer.dbuf_base]; omega)))]
  exact issueAll_writeReg rfl _ _ _

end Sys2Proof.Machine
end

section
/-! PROOFS. The four source calls (R98). -/

namespace Sys2Proof.Machine

open Sys2Proof.Spec

/-! ## What cannot be loaded -/

/-- A call that is loaded never ends as not loadable (R98). -/
theorem runCall_ne_notLoadable {c : SourceCall} (h : c.loadable = true) (s u : State) : runCall c s ≠ .next (u, .notLoadable) := by
  intro hrun
  simp only [runCall, h, if_true] at hrun
  split at hrun
  · rw [withStatus_eq] at hrun
    split_ifs at hrun
    · simp only [readResult] at hrun
      split at hrun <;> cases hrun
    · cases hrun
  · cases hrun
  · cases hrun

/-- A call issues nothing and ends as not loadable exactly when an argument cannot be loaded (R98; log 23). -/
theorem runCall_eq_notLoadable_iff (c : SourceCall) (s : State) : runCall c s = .next (s, .notLoadable) ↔ ¬ c.loadable = true := by
  refine ⟨fun hrun h => runCall_ne_notLoadable h s s hrun, fun h => runCall_notLoadable (Bool.eq_false_iff.mpr h) s⟩

/-! ## `validateIdFormat` -/

/-- The call answers `V`, the value of the function (R98, R176). -/
theorem runCall_validate (s : State) {id : List Byte} {e : Nat} (hid : id.length ≤ 32) (he : e < 2 ^ 32) :
    ∃ t w, runCall (callValidate id e) s = .next (t, .answered w []) ∧ t.replies = s.replies ++ [.reg w] ∧ statusErr w = 0
      ∧ statusV w = validateId id e := by
  have hlen : ((s.loadString id).setX .explen (BitVec.ofNat 32 e)).xNat .dlen = id.length :=
    (State.xNat_setX_ne _ _ (by decide)).trans (s.xNat_dlen_loadString hid)
  have hrun := execValid_ok (hlen.trans_le hid)
  rw [State.digitString_setX _ _ (by decide), s.digitString_loadString hid, State.xNat_setX_ofNat _ _ he] at hrun
  have hload : issueAll (callValidate id e).load s = .next _ :=
    (issueAll_loadString hid _ s).trans ((issueAll_writeReg rfl e _ _).trans (issueAll_command (i := .valid) hrun))
  exact ⟨_, _, runCall_status ((callValidate_loadable id e).mpr ⟨hid, he⟩) hload rfl, rfl, State.statusWord_err _,
    State.statusWord_v _⟩

/-! ## `computeChecksum` -/

/-- The state in which `computeChecksum` issues its command (R98). -/
def State.loadChecksum (s : State) (id : List Byte) (m n : Nat) : State := (s.loadString id).loadOperands m n

section
variable (s : State) {id : List Byte} {m n : Nat} (hid : id.length ≤ 32) (hm : m < 2 ^ 32) (hn : n < 2 ^ 32)
include hid hm hn

/-- The operands of `computeChecksum` stand in their registers. -/
theorem State.xNat_loadChecksum : (s.loadChecksum id m n).xNat .dlen = id.length ∧ (s.loadChecksum id m n).xNat .modulus = m
    ∧ (s.loadChecksum id m n).xNat .outlen = n := by
  obtain ⟨hxd, hxm, hxn⟩ := (s.loadString id).xNat_loadOperands hm hn
  exact ⟨hxd.trans (s.xNat_dlen_loadString hid), hxm, hxn⟩

omit hm hn in
/-- The string of `computeChecksum` is the string operand. -/
theorem State.digitString_loadChecksum : (s.loadChecksum id m n).digitString = id :=
  (State.digitString_loadOperands ..).trans (s.digitString_loadString hid)

/-- The range tests of `CSUM` are those of the function, as far as arguments that can be loaded go (R113, R192). -/
theorem csumRangeFails_loadChecksum : csumRangeFails 4294967295 (s.loadChecksum id m n) ↔ id = [] ∨ m = 0 ∨ n = 0 ∨ 9 < n := by
  obtain ⟨hxd, hxm, hxn⟩ := s.xNat_loadChecksum hid hm hn
  rw [csumRangeFails, hxd, hxm, hxn, ← List.length_eq_zero_iff]
  omega

omit hm hn in
/-- What `computeChecksum` issues before it reads the status (R98). -/
theorem issueAll_callChecksum_load {t : State} (hrun : exec .csum (s.loadChecksum id m n) = .next t) :
    issueAll (callChecksum id m n).load s = .next t :=
  (issueAll_loadString hid _ s).trans ((issueAll_writeReg rfl m _ _).trans ((issueAll_writeReg rfl n _ _).trans
    (issueAll_command hrun)))

/-- When its command fails, the call answers the error and nothing is read back (R98). -/
theorem runCall_checksum_failed {t : State} (hrun : exec .csum (s.loadChecksum id m n) = .next t) (herr : t.err ≠ 0) :
    ∃ u w, runCall (callChecksum id m n) s = .next (u, .answered w []) ∧ u.replies = s.replies ++ [.reg w]
      ∧ statusErr w = t.err := by
  obtain ⟨-, hreplies⟩ := sameHost_of_exec hrun
  exact ⟨_, _, runCall_error ((callChecksum_loadable id m n).mpr ⟨hid, hm, hn⟩) (issueAll_callChecksum_load s hid hrun) herr,
    congrArg (· ++ _) hreplies, t.statusWord_err⟩

/-- When its command succeeds with the text `r`, the call answers success and reads `r` back (R98). -/
theorem runCall_checksum_succeeded {r : List Byte} (hr : r.length = n) (h9 : n ≤ 9)
    (hrun : exec .csum (s.loadChecksum id m n) = .next (csumSuccess r (s.loadChecksum id m n))) :
    ∃ u w, runCall (callChecksum id m n) s = .next (u, .answered w r) ∧ u.replies = s.replies ++ .reg w :: r.map HostReply.byte
      ∧ statusErr w = 0 := by
  obtain ⟨-, -, hxn⟩ := s.xNat_loadChecksum hid hm hn
  obtain ⟨-, hreplies⟩ := sameHost_of_exec hrun
  have hcall := runCall_bytes ((callChecksum_loadable id m n).mpr ⟨hid, hm, hn⟩) (issueAll_callChecksum_load s hid hrun) rfl
    (b := .cbuf) (n := n) rfl (by rw [Buffer.cbuf_base]; omega)
  have hbytes := bytes_csumSuccess (hr.trans hxn.symm) (hxn.trans_le h9)
  rw [hxn] at hbytes
  rw [hbytes] at hcall
  exact ⟨_, _, hcall, congrArg (· ++ _) hreplies, State.statusWord_err _⟩

/-- The call answers ParamError out of range, and in range what the function answers (R98, R112, R113). -/
theorem runCall_checksum : ∃ t w l, runCall (callChecksum id m n) s = .next (t, .answered w l)
    ∧ t.replies = s.replies ++ .reg w :: l.map HostReply.byte
    ∧ (id = [] ∨ m = 0 ∨ n = 0 ∨ 9 < n → statusErr w = 7 ∧ l = [])
    ∧ (id ≠ [] → 1 ≤ m → 1 ≤ n → n ≤ 9 →
        (∀ r, checksum 4294967295 id m n = .ok r → statusErr w = 0 ∧ l = r)
        ∧ ∀ e, checksum 4294967295 id m n = .error e → statusErr w = errNumber e ∧ l = []) := by
  have hrange := csumRangeFails_loadChecksum s hid hm hn
  by_cases hp : csumRangeFails 4294967295 (s.loadChecksum id m n)
  · obtain ⟨u, w, hcall, hreplies, herr⟩ :=
      runCall_checksum_failed s hid hm hn (CommandRun.csumParam hp).exec_eq (errNumber_pos .paramError)
    refine ⟨u, w, [], hcall, hreplies, fun _ => ⟨herr, rfl⟩, fun hne hm1 hn1 hn9 => ?_⟩
    rcases hrange.mp hp with h | h | h | h
    · exact absurd h hne
    all_goals omega
  · have hfun : checksum 4294967295 (s.loadChecksum id m n).digitString ((s.loadChecksum id m n).xNat .modulus)
        ((s.loadChecksum id m n).xNat .outlen) = checksum 4294967295 id m n := by
      obtain ⟨-, hxm, hxn⟩ := s.xNat_loadChecksum hid hm hn
      rw [s.digitString_loadChecksum hid, hxm, hxn]
    have hin := mt hrange.mpr hp
    cases hc : checksum 4294967295 id m n with
    | error e =>
      obtain ⟨u, w, hcall, hreplies, herr⟩ :=
        runCall_checksum_failed s hid hm hn (exec_csum_of_checksum_error hp (hfun.trans hc)) (errNumber_pos e)
      refine ⟨u, w, [], hcall, hreplies, fun h => absurd h hin, fun _ _ _ _ => ⟨nofun, fun e' he => ?_⟩⟩
      cases he
      exact ⟨herr, rfl⟩
    | ok r =>
      obtain ⟨hr, -⟩ := checksum_text hc
      obtain ⟨u, w, hcall, hreplies, herr⟩ := runCall_checksum_succeeded s hid hm hn hr (by simp only [not_or] at hin; omega)
        (exec_csum_of_checksum_ok hp (hfun.trans hc))
      refine ⟨u, w, r, hcall, hreplies, fun h => absurd h hin, fun _ _ _ _ => ⟨fun r' hr' => ?_, nofun⟩⟩
      cases hr'
      exact ⟨herr, rfl⟩

end

/-! ## `mapDigitsToPattern` -/

section
variable (s : State) {d : List Byte} (hd : d.length ≤ 32)
include hd

/-- What `mapDigitsToPattern` issues before it reads the status (R98). -/
theorem issueAll_callMapDigits_load {t : State} (hrun : exec .map (s.loadString d) = .next t) :
    issueAll (callMapDigits d).load s = .next t :=
  (issueAll_loadString hd _ s).trans (issueAll_command hrun)

/-- The call answers what the function answers (R98, R132, R133). -/
theorem runCall_mapDigits : ∃ t w l, runCall (callMapDigits d) s = .next (t, .answered w l)
    ∧ t.replies = s.replies ++ .reg w :: l.map HostReply.byte
    ∧ (∀ r, mapDigits d = .ok r → statusErr w = 0 ∧ l = r)
    ∧ ∀ e, mapDigits d = .error e → statusErr w = errNumber e ∧ l = [] := by
  have hlen := s.xNat_dlen_loadString hd
  have hstr := s.digitString_loadString hd
  have hload := (callMapDigits_loadable d).mpr hd
  have hdigits := digitString_all_iff_allDigits (s.loadString d)
  rw [hstr] at hdigits
  by_cases hall : d.all isDigit = true
  · have hrun := (CommandRun.mapOk (hlen.trans_le hd) (hdigits.mp hall)).exec_eq
    obtain ⟨-, hreplies⟩ := sameHost_of_exec hrun
    have hcall := runCall_bytes hload (issueAll_callMapDigits_load s hd hrun) rfl (b := .pbuf) (n := d.length) rfl
      (by rw [Buffer.pbuf_base]; omega)
    have hbytes := bytes_mapSuccess (hlen.trans_le hd)
    rw [hlen, State.glyphPatterns, hstr] at hbytes
    rw [hbytes] at hcall
    refine ⟨_, _, _, hcall, congrArg (· ++ _) hreplies, fun r hr => ?_, fun e he => ?_⟩
    · obtain ⟨-, rfl⟩ := mapDigits_eq_ok_iff.mp hr
      exact ⟨State.statusWord_err _, rfl⟩
    · rw [mapDigits_ok hall] at he
      cases he
  · have hrun := (CommandRun.mapUnmappable (hlen.trans_le hd) (mt hdigits.mpr hall)).exec_eq
    obtain ⟨-, hreplies⟩ := sameHost_of_exec hrun
    refine ⟨_, _, _, runCall_error hload (issueAll_callMapDigits_load s hd hrun) (errNumber_pos .unmappableCharacter),
      congrArg (· ++ _) hreplies, fun r hr => ?_, fun e he => ?_⟩
    · rw [mapDigits_error hall] at hr
      cases hr
    · rw [mapDigits_error hall] at he
      cases he
      exact ⟨State.statusWord_err _, rfl⟩

end

/-! ## `writeRasterImage` -/

section
variable (s : State) (tag : Word) {w h : Nat} {l : List Byte} (hl : l.length ≤ 32) (hw : w < 2 ^ 32) (hh : h < 2 ^ 32)
include hl

/-- What `writeRasterImage` issues before it reads the status (R98). -/
theorem issueAll_callWriteRaster_load {t : State} (hrun : exec .write (s.loadImage tag w h l) = .next t) :
    issueAll (callWriteRaster tag w h l).load s = .next t := by
  have htag : BitVec.ofNat 32 tag.toNat = tag := by rw [BitVec.ofNat_toNat, BitVec.setWidth_eq]
  have hbytes := issueAll_stringTxns l Buffer.row.base s (.inr (by rw [Buffer.row_base]; omega))
  refine (issueAll_append hbytes).trans ((issueAll_writeReg rfl w _ _).trans ((issueAll_writeReg rfl h _ _).trans
    ((issueAll_writeReg rfl tag.toNat _ _).trans ?_)))
  rw [htag]
  exact issueAll_command hrun

include hw hh

/-- The call answers ParamError and emits nothing out of range; in range, with a buffer that holds the image, it answers what the sink
answers and emits the serialized buffer if that is accepted (R98, R161, R168, R169). -/
theorem runCall_writeRaster : ∃ t u, runCall (callWriteRaster tag w h l) s = .next (t, .answered u [])
    ∧ t.replies = s.replies ++ [.reg u]
    ∧ (w = 0 ∨ h = 0 ∨ 32 < h * ((w + 7) / 8) → statusErr u = 7 ∧ t.emitted = s.emitted)
    ∧ (1 ≤ w → 1 ≤ h → h * ((w + 7) / 8) ≤ l.length →
        statusErr u = responseErr s.nextResponse
          ∧ t.emitted = s.emitted ++ emittedRecords (serialize w h l tag) s.nextResponse) := by
  obtain ⟨t, hrun⟩ := exists_commandRun .write (s.loadImage tag w h l)
  obtain ⟨-, hreplies⟩ := sameHost_of_exec hrun.exec_eq
  have hrange := writeRangeFails_loadImage s tag l hw hh
  refine ⟨_, _, runCall_status ((callWriteRaster_loadable tag w h l).mpr ⟨hl, hw, hh⟩)
    (issueAll_callWriteRaster_load s tag hl hrun.exec_eq) rfl, congrArg (· ++ _) hreplies, fun hp => ?_, fun hw1 hh1 hfit => ?_⟩
  · rw [t.statusWord_err]
    cases hrun with
    | writeParam => exact ⟨rfl, rfl⟩
    | writeAsks hp' => exact absurd (hrange.mpr hp) hp'
  · rw [t.statusWord_err]
    cases hrun with
    | writeParam hp => exact absurd (hrange.mp hp) (by omega)
    | writeAsks _ hasked =>
      obtain ⟨herr, -, hemitted, -⟩ := writeAsked_writes hasked
      rw [recordOf_loadImage s tag l hw hh hl hfit] at hemitted
      exact ⟨herr, hemitted⟩

end

end Sys2Proof.Machine

namespace Sys2Proof.Proofs

open Sys2Proof.Machine Sys2Proof.Spec

/-- Settles O48: call by call; for `writeRasterImage` each response of the sink is looked up. -/
theorem sourceCallsComputeTheirFunctions : Obligations.SourceCallsComputeTheirFunctions := by
  refine ⟨fun s id e => runCall_validate s, fun s id m n => runCall_checksum s, fun s d => runCall_mapDigits s, ?_⟩
  intro s tag w h l hl hw hh
  obtain ⟨t, u, hcall, hreplies, hparam, hasked⟩ := runCall_writeRaster s tag hl hw hh
  refine ⟨t, u, hcall, hreplies, hparam, fun hw1 hh1 hfit => ?_⟩
  obtain ⟨herr, hemitted⟩ := hasked hw1 hh1 hfit
  rw [herr, hemitted]
  cases s.nextResponse <;> simp [responseErr, emittedRecords]

end Sys2Proof.Proofs
end

section
/-! PROOFS. `ENCODE`: the test of the candidate, then the stages of the sequence, each with what it leaves for the next (R186 to
R188). -/

namespace Sys2Proof.Machine

open Sys2Proof.Spec

/-! ## The sink between the stages -/

section
variable {s t u : State}

/-- What leaves the sink alone twice leaves it alone. -/
theorem sameSink_trans (h : sameSink s t) (h' : sameSink t u) : sameSink s u := by
  obtain ⟨h1, h2, h3, h4, h5⟩ := h
  obtain ⟨h1', h2', h3', h4', h5'⟩ := h'
  exact ⟨h1'.trans h1, h2'.trans h2, h3'.trans h3, h4'.trans h4, h5'.trans h5⟩

/-- The next response is the same while the sink is left alone (R168). -/
theorem nextResponse_of_sameSink (h : sameSink s t) : t.nextResponse = s.nextResponse := by
  obtain ⟨-, -, -, hanswers, hdraws⟩ := h
  rw [State.nextResponse, hanswers, hdraws, State.nextResponse]

/-- No command but `WRITE` contacts the sink (R77). -/
theorem sameSink_of_exec {i : Instr} (h : exec i s = .next t) (hi : i ≠ .write) : sameSink s t := by
  obtain ⟨-, -, hsink, -⟩ := rest_of_exec h hi
  exact hsink

end

/-- The host goes on after a command that succeeded (R186). -/
theorem runHost_stopOnError_of_ok {s : State} (h : s.err = 0) (l : List HostAct) :
    runHost (.stopOnError :: l) s = runHost l (s.reply (.reg s.statusWord)) := by
  rw [runHost_stopOnError, if_neg (not_not.mpr h)]

/-! ## Steps 1 to 5 -/

/-- What follows the test of the candidate (R186, steps 6 to 19). -/
def encodeTail (id : List Byte) (m : Nat) : List HostAct :=
  [.stopUnlessFits m, .io (writeReg .modulus m), .io (writeReg .outlen Config.outLenRef), .io (commandTxn .csum), .stopOnError,
    .io (commandTxn .cat), .io (commandTxn .map), .stopOnError, .io (commandTxn .clrrow), .io (writeReg .offset Config.glyphOffset),
    .io (commandTxn .place), .io (writeReg .width Config.wRef), .io (writeReg .height Config.hRef), .io (writeReg .tag (idTag id)),
    .io (commandTxn .write)]

/-- The state after `VALID` of a candidate (R186, steps 1 to 4). -/
def State.validated (s : State) (id : List Byte) : State :=
  (((s.loadString id).setX .explen (BitVec.ofNat 32 4)).setV (validateId id 4)).setErr 0

section
variable (s : State) {id : List Byte} (m : Nat) (h : id.length ≤ 32)
include h

/-- A candidate that fits `DBUF` is tested by `VALID` (R186, steps 1 to 5). -/
theorem encodeId_eq_of_fits : encodeId id m s = runHost (.stopUnlessValid :: encodeTail id m) (s.validated id) := by
  have hlen : ((s.loadString id).setX .explen (BitVec.ofNat 32 4)).xNat .dlen = id.length :=
    (State.xNat_setX_ne _ _ (by decide)).trans (s.xNat_dlen_loadString h)
  have hrun := execValid_ok (hlen.trans_le h)
  rw [State.digitString_setX _ _ (by decide), s.digitString_loadString h, State.xNat_setX_ofNat _ _ (by decide)] at hrun
  have hfits : ¬ Config.dCap < id.length := Nat.not_lt.mpr h
  rw [encodeId, if_neg hfits, encodeActs, runHost_string _ _ _ _ (by rw [Buffer.dbuf_base]; omega),
    runHost_writeReg rfl, runHost_writeReg rfl]
  exact runHost_command (i := .valid) hrun _

/-- A candidate that fails the test is rejected (R186, step 5). -/
theorem encodeId_of_invalid (hv : validateId id 4 = false) :
    encodeId id m s = .next ((s.validated id).reply (.reg (s.validated id).statusWord), .rejected) := by
  rw [encodeId_eq_of_fits s m h, runHost_stopUnlessValid]
  exact if_pos (Or.inr hv)

/-- The sequence goes on after a candidate that passes the test (R186, step 5). -/
theorem encodeId_of_valid (hv : validateId id 4 = true) : encodeId id m s
    = runHost (encodeTail id m) ((s.validated id).reply (.reg (s.validated id).statusWord)) := by
  rw [encodeId_eq_of_fits s m h, runHost_stopUnlessValid, if_neg]
  rintro (herr | hv')
  · exact herr rfl
  · exact absurd (hv.symm.trans hv') (by decide)

/-- The tested candidate is the string operand. -/
theorem State.digitString_validated : (s.validated id).digitString = id :=
  (State.digitString_setX _ _ (by decide)).trans (s.digitString_loadString h)

end

/-- The test of a candidate in the words of the rules (R176). -/
theorem validateId_four_iff {id : List Byte} : validateId id 4 = true ↔ id.length = 4 ∧ ∀ c ∈ id, digitByte c := by
  rw [validateId, Bool.and_eq_true, decide_eq_true_iff, all_isDigit_iff]

/-! ## Steps 6 to 9 -/

/-- The check code and the string operand stand ready to be joined: what `CAT` will make is `l`, within range (R178). -/
structure CodeReady (u : State) (l : List Byte) : Prop where
  join : u.codeThenString = l
  inRange : ¬ catRangeFails u

/-- What a read of `STATUS` leaves. -/
theorem CodeReady.reply {u : State} {l : List Byte} (h : CodeReady u l) (k : HostReply) : CodeReady (u.reply k) l :=
  ⟨h.join, h.inRange⟩

section
variable {s : State} {r : List Byte} (hr : r.length = s.xNat .outlen) (h9 : s.xNat .outlen ≤ 9)
include hr h9

/-- A `CSUM` that succeeded leaves the string (R113). -/
theorem digitString_csumSuccess (h32 : s.xNat .dlen ≤ 32) : (csumSuccess r s).digitString = s.digitString := by
  refine digitString_congr (State.x_setX_ne _ _ (by decide)) (fun k hk _ => ?_) h32
  rw [State.dbuf, readByte_csumSuccess hr h9, Buffer.dbuf_base, if_neg (by omega), State.dbuf, Buffer.dbuf_base]

/-- A `CSUM` that succeeded leaves its text to be joined with the string (R113, R178). -/
theorem codeReady_csumSuccess (h1 : 1 ≤ s.xNat .outlen) (h32 : s.xNat .outlen + s.xNat .dlen ≤ 32) :
    CodeReady (csumSuccess r s) (r ++ s.digitString) := by
  have hclen : (csumSuccess r s).xNat .clen = s.xNat .outlen := congrArg BitVec.toNat (State.x_setX_same ..)
  have hdlen : (csumSuccess r s).xNat .dlen = s.xNat .dlen := congrArg BitVec.toNat (State.x_setX_ne _ _ (by decide))
  refine ⟨?_, ?_⟩
  · rw [State.codeThenString, hclen, bytes_csumSuccess hr h9, digitString_csumSuccess hr h9 (by omega)]
  · rw [catRangeFails, hclen, hdlen]
    omega

end

/-- In range `CSUM` succeeds with the function's text, ready to be joined with the string (R112, R113). -/
theorem exec_csum_codeReady {c : State} {r : List Byte} (hp : ¬ csumRangeFails 4294967295 c)
    (hsum : c.xNat .outlen + c.xNat .dlen ≤ 32)
    (hr : checksum 4294967295 c.digitString (c.xNat .modulus) (c.xNat .outlen) = .ok r) :
    ∃ v, exec .csum c = .next v ∧ v.err = 0 ∧ CodeReady v (r ++ c.digitString) := by
  obtain ⟨hrlen, -⟩ := checksum_text hr
  have hout : 1 ≤ c.xNat .outlen ∧ c.xNat .outlen ≤ 9 := by simp only [not_or] at hp; omega
  obtain ⟨h1, h9⟩ := hout
  exact ⟨_, exec_csum_of_checksum_ok hp hr, rfl, codeReady_csumSuccess hrlen h9 h1 hsum⟩

/-- `CSUM` with two characters of check code (R186, steps 6 to 9). -/
theorem runHost_csum {u : State} {r : List Byte} {m : Nat} (hlen : u.xNat .dlen = 4) (hm : 1 ≤ m) (hm32 : m < 2 ^ 32)
    (hr : checksum 4294967295 u.digitString m 2 = .ok r) (l : List HostAct) :
    ∃ v, runHost (.io (writeReg .modulus m) :: .io (writeReg .outlen Config.outLenRef) :: .io (commandTxn .csum) :: .stopOnError :: l) u
        = runHost l v ∧ CodeReady v (r ++ u.digitString) ∧ sameSink u v := by
  have hstr := u.digitString_loadOperands m 2
  obtain ⟨hxd, hxm, hxn⟩ := u.xNat_loadOperands hm32 (n := 2) (by decide)
  rw [hlen] at hxd
  obtain ⟨v, hrun, herr, hready⟩ := exec_csum_codeReady (r := r) (by rw [csumRangeFails, hxd, hxm, hxn]; omega)
    (by rw [hxd, hxn]; decide) (by rw [hstr, hxm, hxn, hr])
  have hsink : sameSink _ v := sameSink_of_exec hrun (by decide)
  refine ⟨v.reply (.reg v.statusWord), ?_, (hstr ▸ hready).reply _, hsink⟩
  rw [runHost_writeReg rfl, runHost_writeReg rfl]
  exact (runHost_command hrun _).trans (runHost_stopOnError_of_ok herr l)

/-! ## Steps 10 to 12 -/

/-- A `CAT` that succeeded leaves code and string as the string operand (R178). -/
theorem digitString_catSuccess {s : State} (h : s.xNat .clen + s.xNat .dlen ≤ 32) :
    (catSuccess s).digitString = s.codeThenString := by
  rw [State.digitString, xNat_dlen_catSuccess h, ← s.codeThenString_length]
  exact State.bytes_eq fun k hk => dbuf_catSuccess h (by rwa [State.codeThenString_length] at hk)

/-- `CAT` and `MAP`: the patterns of what was ready to be joined stand in `PBUF` (R133, R178, R186). -/
theorem runHost_cat_map {u : State} {str : List Byte} (hu : CodeReady u str) (hd : str.all isDigit = true) (l : List HostAct) :
    ∃ v, runHost (.io (commandTxn .cat) :: .io (commandTxn .map) :: .stopOnError :: l) u = runHost l v
      ∧ v.bytes .pbuf (v.xNat .plen) = str.map (fun c => glyph (digit c)) ∧ sameSink u v := by
  obtain ⟨hjoin, hp⟩ := hu
  have hsum : u.xNat .clen + u.xNat .dlen ≤ 32 := by simp only [not_or] at hp; omega
  have hcat := (CommandRun.catOk hp).exec_eq
  have hstr := (digitString_catSuccess hsum).trans hjoin
  have h32 : (catSuccess u).xNat .dlen ≤ 32 := (xNat_dlen_catSuccess hsum).trans_le hsum
  have hmap := (CommandRun.mapOk h32 ((digitString_all_iff_allDigits _).mp (hstr ▸ hd))).exec_eq
  have hplen : (mapSuccess (catSuccess u)).xNat .plen = (catSuccess u).xNat .dlen := congrArg BitVec.toNat (x_plen_mapEnd ..)
  have hbytes := bytes_mapSuccess h32
  rw [← hplen, State.glyphPatterns, hstr] at hbytes
  have hsink := sameSink_trans (sameSink_of_exec hcat (by decide)) (sameSink_of_exec hmap (by decide))
  refine ⟨(mapSuccess (catSuccess u)).reply (.reg (mapSuccess (catSuccess u)).statusWord), ?_, hbytes, hsink⟩
  rw [runHost_command hcat, runHost_command hmap, runHost_stopOnError_of_ok rfl]

/-! ## Steps 13 to 15 -/

/-- `CLRROW` and `PLACE` at offset 1: a zero, the patterns, and zeros up to the end of `ROW` (R146, R147, R186). -/
theorem runHost_clrrow_place {u : State} {p : List Byte} (hp : u.bytes .pbuf (u.xNat .plen) = p) (h1 : 1 ≤ p.length)
    (h31 : p.length ≤ 31) (l : List HostAct) :
    ∃ v, runHost (.io (commandTxn .clrrow) :: .io (writeReg .offset Config.glyphOffset) :: .io (commandTxn .place) :: l) u = runHost l v
      ∧ (∀ i < 32, v.row i = (0x00 :: p).getD i 0x00) ∧ sameSink u v := by
  obtain ⟨-, hclrrow⟩ := Proofs.clrrowCommand
  obtain ⟨c, hclear, -, hzero, hregs, hbytes, -, -, hsink, -⟩ := hclrrow u
  have hplen : (c.setX .offset (BitVec.ofNat 32 1)).xNat .plen = p.length := by
    rw [State.xNat_setX_ne _ _ (by decide), xNat_congr (hregs .plen (by simp)), ← hp, State.bytes_length]
  have hoff : (c.setX .offset (BitVec.ofNat 32 1)).xNat .offset = 1 := State.xNat_setX_ofNat _ _ (by decide)
  obtain ⟨-, hplace⟩ := Proofs.placeCommand
  obtain ⟨hplaced, -⟩ := hplace (c.setX .offset (BitVec.ofNat 32 1))
  rw [placeRangeFails, hplen, hoff] at hplaced
  obtain ⟨v, hrun, -, hput, -, hkept, -, -, hsink', -⟩ := hplaced (by omega)
  have hpat : ∀ k < p.length, c.pbuf k = p.getD k 0x00 := fun k hk => by
    rw [State.pbuf, hbytes _ (by rw [Buffer.pbuf_base]; omega), ← hp,
      State.bytes_getD _ _ _ _ (by rwa [← hp, State.bytes_length] at hk)]
  refine ⟨v, ?_, fun i hi => ?_, sameSink_trans hsink hsink'⟩
  · rw [runHost_command hclear, runHost_writeReg rfl, Config.glyphOffset_eq, runHost_command hrun]
  · have hout : ¬ (1 ≤ i ∧ i < 1 + p.length) → v.row i = 0x00 := fun h =>
      (hkept _ (by rw [Buffer.row_base]; omega)).trans (hzero i hi)
    cases i with
    | zero => exact hout (by omega)
    | succ k =>
      rw [List.getD_cons_succ]
      by_cases hk : k < p.length
      · rw [Nat.add_comm k 1, hput k hk]
        exact hpat k hk
      · rw [hout (by omega), List.getD_eq_default _ _ (Nat.not_lt.mp hk)]

/-! ## Steps 16 to 20 -/

/-- `WRITE` of the reference image: the record of the row that stands, and for the host the error of the sink's response (R168, R186,
R188). -/
theorem runHost_write (u : State) {tag : Nat} (htag : tag < 2 ^ 32) :
    ∃ v, runHost [.io (writeReg .width Config.wRef), .io (writeReg .height Config.hRef), .io (writeReg .tag tag),
        .io (commandTxn .write)] u
        = .next (v, if responseErr u.nextResponse = 0 then .success else .failed (responseErr u.nextResponse))
      ∧ (∀ i, v.row i = u.row i) ∧ v.xNat .tag = tag ∧ v.xNat .width = 256 ∧ v.xNat .height = 1
      ∧ v.emitted = u.emitted ++ emittedRecords (recordOf v) u.nextResponse := by
  obtain ⟨hxw, hxh, hxt⟩ := u.x_loadGeometry (BitVec.ofNat 32 tag) (w := 256) (h := 1) (by decide) (by decide)
  obtain ⟨t, hrun⟩ := exists_commandRun .write (u.loadGeometry (BitVec.ofNat 32 tag) 256 1)
  have hexec := hrun.exec_eq
  have hx := State.x_of_regs (regs_of_exec_write hexec)
  have hbytes := sameBytes_of_mem_eq (mem_of_exec_write hexec)
  have htagged : t.xNat .tag = tag := by
    rw [State.xNat, hx, hxt, BitVec.toNat_ofNat, Nat.mod_eq_of_lt htag]
  cases hrun with
  | writeParam hp =>
    rw [writeRangeFails, hxw, hxh] at hp
    omega
  | writeAsks _ hasked =>
    obtain ⟨herr, -, hemitted, -⟩ := writeAsked_writes hasked
    rw [← recordOf_of_exec_write hexec] at hemitted
    refine ⟨t.reply (.reg t.statusWord), ?_, fun i => hbytes _, htagged, (xNat_congr (hx .width)).trans hxw,
      (xNat_congr (hx .height)).trans hxh, hemitted⟩
    rw [runHost_writeReg rfl, runHost_writeReg rfl, runHost_writeReg rfl]
    refine (runHost_command hexec []).trans ?_
    rw [runHost_end, herr]
    rfl

/-! ## The sequence -/

/-- Steps 6 to 20 for a candidate of four digits: only the sink can fail, and the row is a zero, the patterns of check code and
candidate, and zeros (R187, R188). -/
theorem runHost_encodeTail {u : State} {r : List Byte} {m : Nat} (hlen : u.xNat .dlen = 4) (hd : u.digitString.all isDigit = true)
    (hm : 1 ≤ m) (hm32 : m < 2 ^ 32) (hr : checksum 4294967295 u.digitString m 2 = .ok r) (htag : idTag u.digitString < 2 ^ 32) :
    ∃ v, runHost (encodeTail u.digitString m) u
        = .next (v, if responseErr u.nextResponse = 0 then .success else .failed (responseErr u.nextResponse))
      ∧ (∀ i < 32, v.row i = (0x00 :: (r ++ u.digitString).map (fun c => glyph (digit c))).getD i 0x00)
      ∧ v.xNat .tag = idTag u.digitString ∧ v.xNat .width = 256 ∧ v.xNat .height = 1
      ∧ v.emitted = u.emitted ++ emittedRecords (recordOf v) u.nextResponse := by
  obtain ⟨hrlen, hrd⟩ := checksum_text hr
  have hslen : u.digitString.length = 4 := u.digitString_length.trans hlen
  have hall : (r ++ u.digitString).all isDigit = true := by
    rw [List.all_append, Bool.and_eq_true]
    exact ⟨List.all_eq_true.mpr hrd, hd⟩
  obtain ⟨a, hrun, hready, hsink⟩ := runHost_csum hlen hm hm32 hr _
  obtain ⟨b, hrun', hpat, hsink'⟩ := runHost_cat_map hready hall _
  obtain ⟨c, hrun'', hrow, hsink''⟩ := runHost_clrrow_place hpat (by simp; omega) (by simp; omega) _
  obtain ⟨v, hrun''', hrow', htag', hwidth, hheight, hemitted⟩ := runHost_write c htag
  have huc : sameSink u c := sameSink_trans hsink (sameSink_trans hsink' hsink'')
  have hresp := nextResponse_of_sameSink huc
  obtain ⟨-, hue, -⟩ := huc
  rw [hresp] at hrun''' hemitted
  rw [hue] at hemitted
  refine ⟨v, ?_, fun i hi => (hrow' i).trans (hrow i hi), htag', hwidth, hheight, hemitted⟩
  rw [encodeTail, runHost_stopUnlessFits, if_pos hm32, hrun, hrun', hrun'', hrun''']

/-- `ENCODE` of four digits, whole: what the host has in the end, and what stands in the core (R186 to R188). -/
theorem encodeId_of_digits (s : State) {id r : List Byte} {m : Nat} (hlen : id.length = 4) (hd : ∀ c ∈ id, digitByte c) (hm : 1 ≤ m)
    (hm32 : m < 2 ^ 32) (hr : checksum 4294967295 id m 2 = .ok r) (htag : idTag id < 2 ^ 32) :
    ∃ v, encodeId id m s = .next (v, if responseErr s.nextResponse = 0 then .success else .failed (responseErr s.nextResponse))
      ∧ (∀ i < 32, v.row i = (0x00 :: (r ++ id).map (fun c => glyph (digit c))).getD i 0x00)
      ∧ v.xNat .tag = idTag id ∧ v.xNat .width = 256 ∧ v.xNat .height = 1
      ∧ v.emitted = s.emitted ++ emittedRecords (recordOf v) s.nextResponse := by
  have hfits : id.length ≤ 32 := by omega
  have hstr : ((s.validated id).reply (.reg (s.validated id).statusWord)).digitString = id := s.digitString_validated hfits
  have hdlen : ((s.validated id).reply (.reg (s.validated id).statusWord)).xNat .dlen = 4 := by
    rw [← State.digitString_length, hstr, hlen]
  have htail := runHost_encodeTail (r := r) (m := m) hdlen
  rw [hstr] at htail
  rw [encodeId_of_valid s m hfits (validateId_four_iff.mpr ⟨hlen, hd⟩)]
  exact htail (all_isDigit_iff.mpr hd) hm hm32 hr htag

/-- The check code of four digits: two digit characters (R112, R117). -/
theorem exists_checkCode {id : List Byte} (hlen : id.length = 4) (hd : id.all isDigit = true) (m : Nat) :
    ∃ c0 c1, checksum 4294967295 id m 2 = .ok [c0, c1] ∧ digitByte c0 ∧ digitByte c1 := by
  have hval : reversedValue id ≤ 4294967295 := by
    have hlt := reversedValue_lt hd
    rw [hlen] at hlt
    omega
  have hok := checksum_ok (m := m) (n := 2) hd hval
  obtain ⟨hrlen, hrd⟩ := checksum_text hok
  obtain ⟨c0, c1, hr⟩ := List.length_eq_two.mp hrlen
  rw [hr] at hok hrd
  exact ⟨c0, c1, hok, (isDigit_iff _).mp (hrd c0 (by simp)), (isDigit_iff _).mp (hrd c1 (by simp))⟩

/-- The `GROM` entry of a digit character is its pattern (R87). -/
theorem State.grom_digit (s : State) {c : Byte} (h : digitByte c) : s.grom (c.toNat - 0x30) = glyph (digit c) :=
  s.grom_eq (digit_lt ((isDigit_iff c).mpr h))

/-- Digit characters with one pattern are one character (end of R188). -/
theorem eq_of_glyph_digit_eq {c e : Byte} (hc : digitByte c) (he : digitByte e) (h : glyph (digit c) = glyph (digit e)) : c = e := by
  have hc := (isDigit_iff c).mpr hc
  have he := (isDigit_iff e).mpr he
  rw [← chr_digit hc, ← chr_digit he, glyph_injective (digit_lt hc) (digit_lt he) h]

end Sys2Proof.Machine

namespace Sys2Proof.Proofs

open Sys2Proof.Machine Sys2Proof.Spec

/-- Settles O49: a call by its test of the arguments; `ENCODE` by stopping where the modulus would be written. -/
theorem unloadableArgumentsIssueNothing : Obligations.UnloadableArgumentsIssueNothing := by
  refine ⟨fun s id e => ?_, fun s id m n => ?_, fun s d => ?_, fun s tag w h b => ?_, fun s id m hlen hd hm => ?_⟩
  · rw [runCall_eq_notLoadable_iff, callValidate_loadable]
    omega
  · rw [runCall_eq_notLoadable_iff, callChecksum_loadable]
    omega
  · rw [runCall_eq_notLoadable_iff, callMapDigits_loadable]
    omega
  · rw [runCall_eq_notLoadable_iff, callWriteRaster_loadable]
    omega
  · refine ⟨(s.validated id).reply (.reg (s.validated id).statusWord), ?_, ?_, ⟨rfl, rfl, rfl, rfl, rfl⟩⟩
    · rw [encodeId_of_valid s m (by omega) (validateId_four_iff.mpr ⟨hlen, hd⟩), encodeTail, runHost_stopUnlessFits,
        if_neg (Nat.not_lt.mpr hm)]
    · exact (State.x_setX_ne _ _ (by decide)).trans (State.x_setX_ne _ _ (by decide))

/-- Settles O51: a candidate longer than `DBUF` is rejected by the host, any other by `VALID`. -/
theorem encodeRejectsMalformedIds : Obligations.EncodeRejectsMalformedIds := by
  intro s id m hbad
  by_cases hlong : Config.dCap < id.length
  · exact ⟨s, if_pos hlong, ⟨rfl, rfl, rfl, rfl, rfl⟩⟩
  · have hv : validateId id 4 = false := by
      rw [← Bool.not_eq_true, validateId_four_iff]
      rintro ⟨hlen, hd⟩
      rcases hbad with hne | ⟨c, hc, hnd⟩
      · exact hne hlen
      · exact hnd (hd c hc)
    exact ⟨_, encodeId_of_invalid s m (Nat.not_lt.mp hlong) hv, ⟨rfl, rfl, rfl, rfl, rfl⟩⟩

/-- Settles O52: the sequence runs to its end, and the row it leaves is read byte by byte. -/
theorem encodeReferenceArtifact : Obligations.EncodeReferenceArtifact := by
  intro s d0 d1 d2 d3 m hm hmax h0 h1 h2 h3
  have hd : ∀ c ∈ [d0, d1, d2, d3], digitByte c := by simpa using ⟨h0, h1, h2, h3⟩
  obtain ⟨c0, c1, hcode, hc0, hc1⟩ := exists_checkCode rfl (all_isDigit_iff.mpr hd) m
  have htag := idTag_four d0 d1 d2 d3
  have hfits : idTag [d0, d1, d2, d3] < 2 ^ 32 := by
    have := d0.isLt; have := d1.isLt; have := d2.isLt; have := d3.isLt
    omega
  obtain ⟨t, hrun, hrow, hxt, hxw, hxh, hemitted⟩ := encodeId_of_digits s rfl hd hm (by omega) hcode hfits
  have hequal : ∀ {i e c}, t.row i = glyph (digit c) → digitByte c → digitByte e → t.row i = s.grom (e.toNat - 0x30) → e = c :=
    fun hi hc he hrow => eq_of_glyph_digit_eq he hc ((s.grom_digit he).symm.trans (hrow.symm.trans hi))
  have hids : ∀ e0 e1 e2 e3 : Byte, digitByte e0 → digitByte e1 → digitByte e2 → digitByte e3 →
      t.row 3 = s.grom (e0.toNat - 0x30) → t.row 4 = s.grom (e1.toNat - 0x30) → t.row 5 = s.grom (e2.toNat - 0x30) →
      t.row 6 = s.grom (e3.toNat - 0x30) → [e0, e1, e2, e3] = [d0, d1, d2, d3] := by
    intro e0 e1 e2 e3 he0 he1 he2 he3 hr0 hr1 hr2 hr3
    rw [hequal (hrow 3 (by decide)) h0 he0 hr0, hequal (hrow 4 (by decide)) h1 he1 hr1, hequal (hrow 5 (by decide)) h2 he2 hr2,
      hequal (hrow 6 (by decide)) h3 he3 hr3]
  refine ⟨t, _, c0, c1, hrun, hcode, hrow 0 (by decide), (hrow 1 (by decide)).trans (s.grom_digit hc0).symm,
    (hrow 2 (by decide)).trans (s.grom_digit hc1).symm, (hrow 3 (by decide)).trans (s.grom_digit h0).symm,
    (hrow 4 (by decide)).trans (s.grom_digit h1).symm, (hrow 5 (by decide)).trans (s.grom_digit h2).symm,
    (hrow 6 (by decide)).trans (s.grom_digit h3).symm, fun i hi h7 => (hrow i hi).trans (List.getD_eq_default _ _ h7),
    hxt.trans htag, hxw, hxh, fun hr => ?_, fun hr => ?_, fun hr => ?_, fun hr => ?_, hids⟩
  all_goals rw [hr] at hemitted ⊢
  · exact ⟨rfl, recordOf t, isRecordOf_recordOf t, hemitted⟩
  all_goals exact ⟨rfl, hemitted.trans (List.append_nil _)⟩

end Sys2Proof.Proofs
end
